-- ==== Sys2Proof/Word.lean ====
section
/-! DEFINITION. The word and byte-string types of the OCB engine (spec/00_scope.md R11, R12): a byte, a 32-bit
command word, a byte string of fixed length in index order, a 16-byte block, a key string. -/

namespace Sys2Proof

/-- R11: 8 bits, value 0..255; bit 7 is the most significant (R12). -/
abbrev Byte := BitVec 8

/-- R80, R82: a header word or an operand word, 32 bits, unsigned. -/
abbrev Word := BitVec 32

/-- R11: a byte string of `n` bytes, `B[0]` first. -/
abbrev Bytes (n : Nat) := Vector Byte n

/-- R11: a block is a string of 16 bytes `B[0] .. B[15]`. -/
abbrev Block := Bytes 16

/-- R40: a key is a byte string; which lengths are accepted is the platform's `KEYLEN_OK`. -/
abbrev Key := List Byte

end Sys2Proof
end

