-- ==== Sys2Proof/Config.lean ====
section
/-! DEFINITION. What an implementation fixes and the spec leaves open: the parameters of spec/00_scope.md R7
(`Platform`), the platform the machine runs on (`Config.platform`, without a body), and the free values of
spec/93_implementation_defined.md (U1, U7, U12), each an opaque constant of which nothing can be proved.
Assumption log: 6, 7, 8, 9, 10, 23, 24. -/

namespace Sys2Proof

/-- The strap `NAME` of a permutation port: a byte string of 1..28 bytes (45_session_control.md R221, R227).
`bytes[0 .. lenLess1 + 1)` is the name; the bytes behind it mean nothing. -/
structure StrapName where
  bytes : Bytes 28
  lenLess1 : Fin 28
  deriving DecidableEq, Repr, Inhabited

/-- The name as a byte string. -/
def StrapName.string (n : StrapName) : List Byte :=
  n.bytes.toList.take (n.lenLess1.val + 1)

/-- The OPEN parameters of 00_scope.md R7, with the bounds the spec puts on them (U14 of
93_implementation_defined.md: sizes at most 2^32, names of 1..28 bytes, `D(k, ·)` the inverse of `E(k, ·)`). -/
structure Platform where
  /-- `IBUF_SIZE`, at most 2^32. -/
  ibufSize : Fin (2 ^ 32 + 1)
  /-- `OBUF_SIZE`, at most 2^32. -/
  obufSize : Fin (2 ^ 32 + 1)
  /-- `IAAD_MAX`, the capacity of the retained initial-AAD copy. -/
  iaadMax : Fin (2 ^ 32 + 1)
  /-- Straps of the port `HP`. -/
  hpBlk : Nat
  hpName : StrapName
  /-- Straps of the port `MP`. -/
  mpBlk : Nat
  mpName : StrapName
  /-- `KEYLEN_OK(n)` (70_reset_and_hazards.md R324). -/
  keyLenOk : Nat → Bool
  /-- `TAGFIELD`, from the tag length in bytes (41_nonce_expander.md R131, 90_conflicts.md C1). -/
  tagField : Nat → Byte
  /-- R10: `E(k, ·)` with its inverse `D(k, ·)`, one permutation of the blocks for each key. -/
  perm : Key → Equiv.Perm Block
  deriving Inhabited

/-- The platform of the machine of Host/Core.lean: every parameter of R7 left free. -/
opaque Config.platform : Platform

/-! U1: the lane set in phase ERROR. One draw number for each error entry (`State.draws`). -/

opaque Config.freeHashBuf : Nat → Block
opaque Config.freeHashPos : Nat → BitVec 5
opaque Config.freeHashCount : Nat → BitVec 64
opaque Config.freeOffsetHash : Nat → Block
opaque Config.freeSum : Nat → Block
opaque Config.freeMainBuf : Nat → Bytes 48
opaque Config.freeMainPos : Nat → BitVec 6
opaque Config.freeMainCount : Nat → BitVec 64
opaque Config.freeOffsetMain : Nat → Block
opaque Config.freeChecksum : Nat → Block

/-- U7: byte `i` of the OBUF window after the AuthenticationFailed of draw `n`. -/
opaque Config.freeWindowByte : Nat → Nat → Byte

/-- U12: what IBUF holds at an address since power-on, until something is written there. -/
opaque Config.powerOnIbuf : Nat → Byte

/-- U12: what OBUF holds at an address since power-on, until something is written there. -/
opaque Config.powerOnObuf : Nat → Byte

/-- What a permutation instance without a key would answer: "cannot happen"
(70_reset_and_hazards.md R324); free, log entry 7. -/
opaque Config.unkeyedAnswer : Block → Block

end Sys2Proof
end

