-- ==== Sys2Proof/Syntax.lean ====
section
/-! DEFINITION. The commands of OCB-CMD version 1 (spec/30_encoding.md R82, R85): one constructor for each row of
spec/opcode_table.json, with the operands in the order of R82. -/

namespace Sys2Proof

/-- One command with its operands. -/
inductive Instr where
  /-- `0x01`, format Z. -/
  | newsession
  /-- `0x02`, format I: the header's `K`, `E`, `IMM`, then six operand words. -/
  | init (k e : Bool) (tagLenBits : BitVec 16)
      (keyOff keyLen nonceOff nonceLen aadOff aadLen : Word)
  /-- `0x03`, format A. -/
  | feedaad (inOff len : Word)
  /-- `0x04`, format M. -/
  | feedmsg (inOff len outOff outLen : Word)
  /-- `0x05`, format L. -/
  | updsize (len : Word)
  /-- `0x06`, format L. -/
  | finsize (len : Word)
  /-- `0x07`, format O. -/
  | finalize (outOff outLen : Word)
  /-- `0x08`, format Z. -/
  | reset
  /-- `0x09`, format Z. -/
  | mac
  /-- `0x0A`, format Z. -/
  | algid
  deriving DecidableEq, Repr

end Sys2Proof
end

