-- ==== Sys2Proof/Machine/State.lean ====
section
/-! DEFINITION. The state of the OCB engine (spec/10_state.md): every register of R20, the two buffer spaces of
spec/20_memory.md R60, the keys inside the permutation instances (R40), the port to the host (R71, R300) and the
model's own fields (the request trace of R320 and the draw counter of U1); the faults and refusals; the state after
hardware reset (R48, R300). Assumption log: 1, 3, 4, 5, 8, 10 to 15. -/

namespace Sys2Proof.Machine

/-- R21: `mode`, 1 bit. -/
inductive Mode where
  | encrypt | decrypt
  deriving DecidableEq, Repr

/-- R21: `Encrypt` is encoded 1, `Decrypt` 0. -/
def Mode.code : Mode → BitVec 1
  | .encrypt => 1
  | .decrypt => 0

/-- R23: `phase`. The values 5..7 are never written (U10 of 93_implementation_defined.md). -/
inductive Phase where
  | noSession | uninit | ready | final | error
  deriving DecidableEq, Repr

/-- R23: the 3-bit value of a phase. -/
def Phase.code : Phase → BitVec 3
  | .noSession => 0
  | .uninit => 1
  | .ready => 2
  | .final => 3
  | .error => 4

/-- R260: the status codes. Codes 13..255 are never produced. -/
inductive Status where
  | ok
  | configurationError | invalidTagLength | invalidNonce | bufferTooSmall | dataTooShort
  | authenticationFailed
  | illegalCommand | illegalState | badDescriptor | macNotReady | unsupportedTagLength | keyRejected
  deriving DecidableEq, Repr

/-- R260: the number of a status, as `RSTAT` (8 bits) holds it. -/
def Status.code : Status → BitVec 8
  | .ok => 0
  | .configurationError => 1
  | .invalidTagLength => 2
  | .invalidNonce => 3
  | .bufferTooSmall => 4
  | .dataTooShort => 5
  | .authenticationFailed => 6
  | .illegalCommand => 7
  | .illegalState => 8
  | .badDescriptor => 9
  | .macNotReady => 10
  | .unsupportedTagLength => 11
  | .keyRejected => 12

/-- R39, R88: the response registers. -/
structure Response where
  /-- `RSTAT`, 8 bits as `Status.code` gives them. -/
  rstat : Status
  /-- `RVAL`. -/
  rval : BitVec 64
  /-- `RLEN`, 0..32. -/
  rlen : BitVec 6
  /-- `RDATA`. -/
  rdata : Bytes 32
  deriving DecidableEq, Repr

/-- The hash lane's part of the lane set (R44): R32, R34, R35. -/
structure HashLane where
  hashBuf : Block
  hashPos : BitVec 5
  hashCount : BitVec 64
  offsetHash : Block
  sum : Block
  deriving DecidableEq, Repr

/-- The crypt lane's part of the lane set (R44): R31, R33, R36. -/
structure MainLane where
  mainBuf : Bytes 48
  mainPos : BitVec 6
  mainCount : BitVec 64
  offsetMain : Block
  checksum : Block
  deriving DecidableEq, Repr

/-- R2, R10: the two permutation instances. -/
inductive Instance where
  | hp | mp
  deriving DecidableEq, Repr

/-- R324: one operation on a permutation port. -/
inductive PermRequest where
  | setKey (inst : Instance) (key : Key)
  | enc (inst : Instance) (block : Block)
  | dec (inst : Instance) (block : Block)
  deriving DecidableEq, Repr

/-- What the host does to the engine (R8, R60, R71, R300, R323), one event a step. -/
inductive HostEvent where
  /-- A command: its header word and operand words, presented at once (R71, R80). -/
  | command (words : List Word)
  /-- A byte written into IBUF (R60). -/
  | writeIbuf (addr : Word) (byte : Byte)
  /-- A byte written into OBUF, "which has no effect on the engine" (R60). -/
  | writeObuf (addr : Word) (byte : Byte)
  /-- The reset input of the block between commands (R300). -/
  | hardwareReset
  /-- A command, and the reset input while it is in progress, once it has made `made` requests on the permutation ports
  and written `written` bytes into OBUF (R300; log entry 20). -/
  | resetDuring (words : List Word) (made written : Nat)
  deriving DecidableEq, Repr

/-- A buffer space (R60): the bytes written since power-on, addresses strictly rising. An address that is not
listed has no written byte; what it reads as is `Config.powerOnIbuf` or `Config.powerOnObuf` (log entry 10). -/
abbrev Memory := List Host.Cell

/-- The state of one engine with its ports. -/
structure State where
  /-- R23. -/
  phase : Phase
  /-- R24. -/
  inited : Bool
  /-- R24. -/
  keyed : Bool
  /-- R21. -/
  mode : Mode
  /-- R22: the tag length in bytes. -/
  tagLen : BitVec 6
  /-- R25: `L_star`. -/
  lStar : Block
  /-- R26: `L_dollar`. -/
  lDollar : Block
  /-- R27: the entries `L[0 .. ladderLen)` that exist, in order; `ladderLen` is its length (`State.ladderLen`). -/
  ladder : List Block
  /-- R28. -/
  ktopValid : Bool
  /-- R28. -/
  ktopInput : Block
  /-- R29. -/
  stretch : Bytes 24
  /-- R30: `offsetMain_0`. -/
  offsetMain0 : Block
  /-- R32, R34, R35. -/
  hashLane : HashLane
  /-- R31, R33, R36. -/
  mainLane : MainLane
  /-- R37. -/
  macBlock : Bytes 32
  /-- R37: 0 is "no tag computed". -/
  macLen : BitVec 6
  /-- R38: the register of `IAAD_MAX` bytes, without the zero bytes behind its last byte ever written. -/
  initAAD : List Byte
  /-- R38. -/
  initAADLen : BitVec 32
  /-- R39. -/
  response : Response
  /-- R40: `HP.key`; `none` is `unkeyed`. -/
  hpKey : Option Key
  /-- R40: `MP.key`. -/
  mpKey : Option Key
  /-- R60: the input buffer space. -/
  ibuf : Memory
  /-- R60: the output buffer space. -/
  obuf : Memory
  /-- The operations on the permutation ports the last command made, in order (R72, R320), none after a hardware reset
  between commands: the model's own field. -/
  requests : List PermRequest
  /-- What the host will do next, first event first (R8, R71): the model's own field. -/
  hostQueue : List HostEvent
  /-- How many times free values were drawn (U1, U7): the model's own field. -/
  draws : Nat
  deriving DecidableEq, Repr

/-- Why the machine stops. -/
inductive Fault where
  /-- Raised by FEEDAAD and FEEDMSG when the blocks they would complete carry `hashCount` or `mainCount` past
  `2^64 - 1`: "a wrap to 0 is outside the spec" (R151, R171; U5 of 93_implementation_defined.md: `stuck`). Safe. -/
  | counterWrap
  /-- Raised by a host write at an address the buffer space does not have (R60). Safe. -/
  | noSuchAddress
  deriving DecidableEq, Repr

/-- Why a step has no meaning. -/
inductive Refusal where
  /-- Raised by exec for an instruction that has no meaning yet. Safe. -/
  | notModelled (mnemonic : String)
  /-- Raised by step when a transaction of the command port holds no header or not the number of operand words R82
  gives its command: the spec says only that "the host and engine agree on command boundaries by the port
  transaction" (R87). Safe. -/
  | commandLength
  deriving DecidableEq, Repr

/-- What a command answers. -/
abbrev Result := Host.Outcome State Fault Refusal

/-- R11: the byte string of `n` zero bytes; `0^128` for `n = 16`. -/
abbrev zeroBytes (n : Nat) : Bytes n := Vector.replicate n 0

/-- R48: the response registers after hardware reset. -/
def Response.zero : Response :=
  { rstat := .ok, rval := 0, rlen := 0, rdata := zeroBytes 32 }

/-- R48: the hash lane's registers, all zero. -/
def HashLane.zero : HashLane :=
  { hashBuf := zeroBytes 16, hashPos := 0, hashCount := 0, offsetHash := zeroBytes 16, sum := zeroBytes 16 }

/-- R48: the crypt lane's registers, all zero. -/
def MainLane.zero : MainLane :=
  { mainBuf := zeroBytes 48, mainPos := 0, mainCount := 0, offsetMain := zeroBytes 16, checksum := zeroBytes 16 }

/-- R48, R300: the state after power-on. The buffer spaces list nothing: their contents are unspecified (U12). -/
def State.reset : State :=
  { phase := .noSession
    inited := false
    keyed := false
    mode := .decrypt
    tagLen := 0
    lStar := zeroBytes 16
    lDollar := zeroBytes 16
    ladder := []
    ktopValid := false
    ktopInput := zeroBytes 16
    stretch := zeroBytes 24
    offsetMain0 := zeroBytes 16
    hashLane := HashLane.zero
    mainLane := MainLane.zero
    macBlock := zeroBytes 32
    macLen := 0
    initAAD := []
    initAADLen := 0
    response := Response.zero
    hpKey := none
    mpKey := none
    ibuf := []
    obuf := []
    requests := []
    hostQueue := []
    draws := 0 }

/-- R27: `ladderLen`, 7 bits, computed from the entries that exist (log entry 13). -/
def State.ladderLen (s : State) : BitVec 7 := BitVec.ofNat 7 s.ladder.length

end Sys2Proof.Machine
end

