-- ==== Sys2Proof/Machine/Ops.lean ====
section
/-! DEFINITION. The named operations over byte strings, the buffer spaces, the permutation ports, the response and
the session's registers: xor, indexing and slices (spec/00_scope.md R11), the sparse memory (20_memory.md R60, R61),
one request to a permutation instance (R10, R72, R324), the response (30_encoding.md R88), a refusal
(60_exceptions.md R273), TAKING AN ERROR (R274) and the reset of all registers (R48, R300).
Assumption log: 7, 8, 10, 11, 12, 18. -/

namespace Sys2Proof.Machine

/-! Byte strings (R11). -/

/-- `B[i]`; an index the string does not have reads 0 (no run makes one, log entry 18). -/
def byteAt {n : Nat} (b : Bytes n) (i : Nat) : Byte :=
  if h : i < n then b[i] else 0

/-- `B[i] <- v`; an index the string does not have writes nothing (no run makes one, log entry 18). -/
def setByte {n : Nat} (b : Bytes n) (i : Nat) (v : Byte) : Bytes n :=
  b.setIfInBounds i v

/-- R11: `X ⊕ Y`, bytewise. -/
def xorBytes {n : Nat} (a b : Bytes n) : Bytes n :=
  Vector.ofFn fun i => a[i] ^^^ b[i]

/-- R11: `B[a .. a + len)`. -/
def slice {n : Nat} (b : Bytes n) (a len : Nat) : List Byte :=
  (List.range len).map fun i => byteAt b (a + i)

/-- The string `l` in a register of `n` bytes, zero behind its end. -/
def ofList (n : Nat) (l : List Byte) : Bytes n :=
  Vector.ofFn fun i => l.getD i.val 0

/-- `mainBuf[0..16)` as a block. -/
def firstBlock (b : Bytes 48) : Block :=
  Vector.ofFn fun i => b[i.val]

/-- `mainBuf[0..16) <- x`. -/
def setFirstBlock (b : Bytes 48) (x : Block) : Bytes 48 :=
  Vector.ofFn fun i => if h : i.val < 16 then x[i.val] else b[i]

/-- 44_finalizer.md R194 (and 42_hash_lane.md R152): `B[p] <- 0x80`, then zeros through byte 15. -/
def extend {n : Nat} (b : Bytes n) (p : Nat) : Bytes n :=
  Vector.ofFn fun i => if i.val = p then 0x80 else if p < i.val ∧ i.val < 16 then 0 else b[i]

/-! The buffer spaces (20_memory.md R60, R61, R65): one byte wide, addresses strictly rising. -/

/-- The byte written at an address, if any. -/
def Memory.get? : Memory → Nat → Option Byte
  | [], _ => none
  | (a, b) :: m, x => if x = a then some b else if x < a then none else Memory.get? m x

/-- The space with byte `v` written at address `x`. -/
def Memory.set : Memory → Nat → Byte → Memory
  | [], x, v => [(x, v)]
  | (a, b) :: m, x, v =>
    if x = a then (x, v) :: m
    else if x < a then (x, v) :: (a, b) :: m
    else (a, b) :: Memory.set m x v

/-- R61: `MemWrite(_, a, n, v)`: `v[0]` at `a` up to `v[n-1]` at `a + n - 1`, ascending (R66). -/
def Memory.write : Memory → Nat → List Byte → Memory
  | m, _, [] => m
  | m, a, v :: vs => Memory.write (Memory.set m a v) (a + 1) vs

/-- R66: the space `before` with the first `n` bytes from address `a` on as they are in `after`: how far the output of
a command got, output being written in ascending address order. -/
def Memory.upTo (before after : Memory) (a : Nat) : Nat → Memory
  | 0 => before
  | n + 1 =>
    match after.get? (a + n) with
    | some b => Memory.set (Memory.upTo before after a n) (a + n) b
    | none => Memory.upTo before after a n

/-- Every listed address is above `lo` and the addresses rise strictly. -/
def Memory.rises (lo : Nat) : Memory → Bool
  | [] => true
  | (a, _) :: m => decide (lo ≤ a) && Memory.rises (a + 1) m

/-- The canonical form: addresses strictly rising. An unlisted address has no written byte, so no entry can equal
what it holds. -/
def Memory.wf (m : Memory) : Bool := Memory.rises 0 m

/-- Every listed address is one the space of `size` bytes has (R60). -/
def Memory.below (size : Nat) (m : Memory) : Bool := m.all fun c => decide (c.1 < size)

/-- One byte of IBUF: the last one written, or what it held at power-on (U12). -/
def readIbuf (s : State) (a : Nat) : Byte := (s.ibuf.get? a).getD (Config.powerOnIbuf a)

/-- One byte of OBUF: the last one written, or what it held at power-on (U12). -/
def readObuf (s : State) (a : Nat) : Byte := (s.obuf.get? a).getD (Config.powerOnObuf a)

/-- R61: `MemRead(IBUF, a, n)`, lowest address first. -/
def memReadIbuf (s : State) (a n : Nat) : List Byte :=
  (List.range n).map fun i => readIbuf s (a + i)

/-- R61: `MemWrite(OBUF, a, n, v)`. -/
def memWriteObuf (a : Nat) (v : List Byte) (s : State) : State :=
  { s with obuf := s.obuf.write a v }

/-! The permutation ports (R10, R72, R324). -/

/-- `E(key, b)`; an instance without a key gives a free answer (log entry 7). -/
def permEnc (P : Platform) (key : Option Key) (b : Block) : Block :=
  match key with
  | some k => P.perm k b
  | none => Config.unkeyedAnswer b

/-- `D(key, b)`, the inverse of `E(key, ·)` (R10). -/
def permDec (P : Platform) (key : Option Key) (b : Block) : Block :=
  match key with
  | some k => (P.perm k).symm b
  | none => Config.unkeyedAnswer b

/-- One more operation on a permutation port. -/
def logRequest (r : PermRequest) (s : State) : State :=
  { s with requests := s.requests ++ [r] }

/-- R10: `HashPerm(b)`, always forward: the answer and the state with the request in the trace. -/
def hashPerm (P : Platform) (b : Block) (s : State) : Block × State :=
  (permEnc P s.hpKey b, logRequest (.enc .hp b) s)

/-- R10: `MainPerm(b)`, forward in Encrypt mode and inverse in Decrypt mode. -/
def mainPerm (P : Platform) (b : Block) (s : State) : Block × State :=
  match s.mode with
  | .encrypt => (permEnc P s.mpKey b, logRequest (.enc .mp b) s)
  | .decrypt => (permDec P s.mpKey b, logRequest (.dec .mp b) s)

/-- R324: `SETKEY` on both instances with the same key (R223). -/
def loadKeys (key : Key) (s : State) : State :=
  { logRequest (.setKey .mp key) (logRequest (.setKey .hp key) s) with hpKey := some key, mpKey := some key }

/-! The response (R88) and how a command ends. -/

/-- A command begins: it has made no request yet. -/
def begin (s : State) : State := { s with requests := [] }

/-- R88: the response of a command that ends OK. -/
def okResponse (val : Nat) (data : List Byte) : Response :=
  { rstat := .ok, rval := BitVec.ofNat 64 val, rlen := BitVec.ofNat 6 data.length, rdata := ofList 32 data }

/-- R88, R273, R274: the response of a command that ends with another status. -/
def bareResponse (st : Status) : Response :=
  { rstat := st, rval := 0, rlen := 0, rdata := zeroBytes 32 }

/-- R13: `respond(OK, val, data)`. -/
def respond (val : Nat) (data : List Byte) (s : State) : State :=
  { s with response := okResponse val data }

/-- R273: a refusal writes the response registers and nothing else. -/
def refuse (st : Status) (s : State) : State :=
  { s with response := bareResponse st }

/-- U1: the hash lane's registers drawn freely. -/
def HashLane.free (n : Nat) : HashLane :=
  { hashBuf := Config.freeHashBuf n, hashPos := Config.freeHashPos n, hashCount := Config.freeHashCount n
    offsetHash := Config.freeOffsetHash n, sum := Config.freeSum n }

/-- U1: the crypt lane's registers drawn freely. -/
def MainLane.free (n : Nat) : MainLane :=
  { mainBuf := Config.freeMainBuf n, mainPos := Config.freeMainPos n, mainCount := Config.freeMainCount n
    offsetMain := Config.freeOffsetMain n, checksum := Config.freeChecksum n }

/-- R274: error entry, for the codes 2..6: the response, `macBlock` zeroed, the lane set unspecified (U1), phase
`ERROR`. There is no handler and nothing is saved; the way back is RESET, INIT or NEWSESSION (R275). -/
def raiseError (st : Status) (s : State) : State :=
  { s with
    response := bareResponse st
    macBlock := zeroBytes 32
    macLen := 0
    hashLane := HashLane.free s.draws
    mainLane := MainLane.free s.draws
    draws := s.draws + 1
    phase := .error }

/-- R274, last line: an INIT that ends with an error also clears `inited` and, with `K = 1`, `keyed`. -/
def raiseInitError (st : Status) (k : Bool) (s : State) : State :=
  { raiseError st s with inited := false, keyed := if k then false else s.keyed }

/-- R48, R300, R221: every register at its value after hardware reset, the instances unkeyed; the buffer spaces
unchanged. The host's pending events and the draw counter are no registers of the engine. -/
def zeroize (s : State) : State :=
  { State.reset with ibuf := s.ibuf, obuf := s.obuf, hostQueue := s.hostQueue, draws := s.draws }

/-! The retained initial AAD (R38, R224). -/

/-- `initAAD[0 .. initAADLen)`. -/
def initAADBytes (s : State) : List Byte := s.initAAD.takeD s.initAADLen.toNat 0

/-- `initAAD[0 .. n) <- bytes ; initAADLen <- n`; the bytes behind keep their values. -/
def setInitAAD (bytes : List Byte) (s : State) : State :=
  { s with initAAD := bytes ++ s.initAAD.drop bytes.length, initAADLen := BitVec.ofNat 32 bytes.length }

end Sys2Proof.Machine
end

