-- ==== Sys2Proof/Machine/Operands.lean ====
section
/-! DEFINITION. The operand forms: input descriptors into IBUF and output descriptors into OBUF (spec/20_memory.md R60,
R61, R68), the promised sizes of the crypt lane (43_crypt_lane.md R174, R175) and the block counts that decide
whether a counter would pass `2^64 - 1` (U5). Sums are over the naturals (R13, R68). -/

namespace Sys2Proof.Machine

/-- R68: an input descriptor `(off, len)` passes when `off + len ≤ IBUF_SIZE`. -/
def inputFits (P : Platform) (off len : Word) : Bool :=
  decide (off.toNat + len.toNat ≤ P.ibufSize.val)

/-- R68: an output descriptor `(outOff, outLen)` passes when `outLen ≤ OBUF_SIZE`. -/
def outputFits (P : Platform) (outLen : Word) : Bool :=
  decide (outLen.toNat ≤ P.obufSize.val)

/-- R68: INIT's initial AAD passes when it also has `aadLen ≤ IAAD_MAX`. -/
def aadFits (P : Platform) (off len : Word) : Bool :=
  inputFits P off len && decide (len.toNat ≤ P.iaadMax.val)

/-- R264: the window has room for `need` bytes behind `outOff`. -/
def roomFor (outOff outLen : Word) (need : Nat) : Bool :=
  decide (outOff.toNat + need ≤ outLen.toNat)

/-- The bytes an input descriptor names (R60). -/
def inputBytes (s : State) (off len : Word) : List Byte :=
  memReadIbuf s off.toNat len.toNat

/-- R60: the write position of a command in OBUF, 0 for a command that writes none. -/
def outputOffset (i : Instr) : Nat :=
  match i with
  | .feedmsg _ _ outOff _ => outOff.toNat
  | .finalize outOff _ => outOff.toNat
  | .newsession => 0
  | .init _ _ _ _ _ _ _ _ _ => 0
  | .feedaad _ _ => 0
  | .updsize _ => 0
  | .finsize _ => 0
  | .reset => 0
  | .mac => 0
  | .algid => 0

/-- R36: the logical length of `mainBuf`. -/
def mainBufLen (s : State) : Nat :=
  match s.mode with
  | .encrypt => 16
  | .decrypt => 16 + s.tagLen.toNat

/-- R174: `updsize(LEN)`. -/
def updsize (s : State) (len : Nat) : Nat :=
  let t := match s.mode with
    | .encrypt => s.mainLane.mainPos.toNat + len
    | .decrypt => s.mainLane.mainPos.toNat + len - s.tagLen.toNat
  t - t % 16

/-- R175: `finsize(LEN)`. -/
def finsize (s : State) (len : Nat) : Nat :=
  match s.mode with
  | .encrypt => s.mainLane.mainPos.toNat + len + s.tagLen.toNat
  | .decrypt => s.mainLane.mainPos.toNat + len - s.tagLen.toNat

/-- U5: the AAD blocks that `len` more bytes complete would carry `hashCount` past `2^64 - 1` (R320 counts them). -/
def hashCountWraps (s : State) (len : Nat) : Bool :=
  decide (2 ^ 64 ≤ s.hashLane.hashCount.toNat + (s.hashLane.hashPos.toNat + len) / 16)

/-- U5: the message blocks that `len` more bytes complete would carry `mainCount` past `2^64 - 1` (R176 counts
them). -/
def mainCountWraps (s : State) (len : Nat) : Bool :=
  decide (2 ^ 64 ≤ s.mainLane.mainCount.toNat + updsize s len / 16)

/-- U5: how many more AAD bytes `hashCount` can count: one more completes the block that would carry it past
`2^64 - 1`. -/
def hashRoom (s : State) : Nat :=
  16 * (2 ^ 64 - s.hashLane.hashCount.toNat) - 1 - s.hashLane.hashPos.toNat

/-- U5: how many more message bytes `mainCount` can count. -/
def mainRoom (s : State) : Nat :=
  16 * (2 ^ 64 - s.mainLane.mainCount.toNat) - 1 + (mainBufLen s - 16) - s.mainLane.mainPos.toNat

/-- U5, R308: a command without the bytes from the block on that would carry its block counter past `2^64 - 1`: as far
as the spec follows it. -/
def beforeWrap (i : Instr) (s : State) : Instr :=
  match i with
  | .feedaad inOff len => .feedaad inOff (BitVec.ofNat 32 (min len.toNat (hashRoom s)))
  | .feedmsg inOff len outOff outLen =>
    .feedmsg inOff (BitVec.ofNat 32 (min len.toNat (mainRoom s))) outOff outLen
  | .newsession => .newsession
  | .init k e tagLenBits keyOff keyLen nonceOff nonceLen aadOff aadLen =>
    .init k e tagLenBits keyOff keyLen nonceOff nonceLen aadOff aadLen
  | .updsize len => .updsize len
  | .finsize len => .finsize len
  | .finalize outOff outLen => .finalize outOff outLen
  | .reset => .reset
  | .mac => .mac
  | .algid => .algid

end Sys2Proof.Machine
end

