-- ==== Sys2Proof/Machine/Flags.lean ====
section
/-! DEFINITION. The status bits and tests of spec/10_state.md R46: the Ktop cache test (41_nonce_expander.md R133),
`double`'s carry (40_gf_double_ladder.md R110), the tag comparison (44_finalizer.md R198), the phase tests of
45_session_control.md R220 and the legality tests of INIT (R222) and of the ports' straps (R221). The engine has no
arithmetic condition codes. -/

namespace Sys2Proof.Machine

/-- R110: the bit `double` shifts out, bit 7 of byte 0. -/
def doubleCarry (x : Block) : Bool := (x[0] >>> 7) &&& 1 == 1

/-- R133: `ktopValid = 1 and ktopInput = N'`. -/
def ktopHit (s : State) (formatted : Block) : Bool :=
  s.ktopValid && s.ktopInput == formatted

/-- R198: the differences of the first `n` bytes, ORed into an accumulator over all `n` pairs. -/
def tagDifference {m : Nat} (computed : Bytes m) (received : List Byte) (n : Nat) : Byte :=
  (List.range n).foldl (fun acc i => acc ||| (byteAt computed i ^^^ received.getD i 0)) 0

/-- R261: both ports present block size 16 and the same name. -/
def strapsAgree (P : Platform) : Bool :=
  P.hpBlk == 16 && P.mpBlk == 16 && P.hpName.string == P.mpName.string

/-- R262: 32..256 and a multiple of 8. -/
def tagLenBitsOk (bits : BitVec 16) : Bool :=
  decide (32 ≤ bits.toNat ∧ bits.toNat ≤ 256 ∧ bits.toNat % 8 = 0)

/-- R263: 1..15 bytes. -/
def nonceLenOk (len : Word) : Bool :=
  decide (1 ≤ len.toNat ∧ len.toNat ≤ 15)

/-- R220: the INIT row: refused in `NOSESSION`, and with `K = 0` while `keyed = 0`. -/
def initAllowed (s : State) (k : Bool) : Bool :=
  s.phase != .noSession && (k || s.keyed)

/-- R220: the FEEDAAD, FEEDMSG and FINALIZE rows. -/
def feedAllowed (s : State) : Bool := s.phase == .ready

/-- R220: the UPDSIZE and FINSIZE row. -/
def queryAllowed (s : State) : Bool := s.phase == .ready || s.phase == .final

/-- R220: the RESET row. -/
def resetAllowed (s : State) : Bool :=
  match s.phase with
  | .noSession => false
  | .uninit => false
  | .ready => true
  | .final => true
  | .error => s.inited

/-- R220: the MAC and ALGID rows: there is a session. -/
def sessionOpen (s : State) : Bool := s.phase != .noSession

end Sys2Proof.Machine
end

