-- ==== Sys2Proof/Machine/GfLadder.lean ====
section
/-! DEFINITION. spec/40_gf_double_ladder.md: GF(2^128) doubling, `ntz`, and the `L` ladder. -/

namespace Sys2Proof.Machine

/-- R110: multiplication by x in GF(2^128), the byte loop as the rule spells it out. -/
def double (x : Block) : Block :=
  Vector.ofFn fun i =>
    if h : i.val < 15 then (x[i.val] <<< 1) ||| (x[i.val + 1] >>> 7)
    else if doubleCarry x then (x[15] <<< 1) ^^^ 0x87 else x[15] <<< 1

/-- `double` applied `k` times (R115). -/
def doubleIter : Nat → Block → Block
  | 0, x => x
  | k + 1, x => double (doubleIter k x)

/-- The loop of R112, at most `fuel` times. -/
def ntzLoop : Nat → Nat → Nat
  | 0, _ => 0
  | fuel + 1, n => if n % 2 = 0 then ntzLoop fuel (n / 2) + 1 else 0

/-- R112: the number of trailing zero bits, 64 for 0. -/
def ntz (n : BitVec 64) : Nat := if n = 0 then 64 else ntzLoop 64 n.toNat

/-- The body of the loop of R114, `fuel` times. -/
def growLadder (lDollar : Block) : Nat → List Block → List Block
  | 0, l => l
  | fuel + 1, l => growLadder lDollar fuel (l ++ [double (l.getLastD lDollar)])

/-- R114: the ladder once entry `n` exists: "while ladderLen ≤ n". -/
def ladderUpTo (lDollar : Block) (n : Nat) (l : List Block) : List Block :=
  growLadder lDollar (n + 1 - l.length) l

/-- R114: `Lsub(n)`: the entry, and the state with the ladder grown. -/
def lsub (n : Nat) (s : State) : Block × State :=
  let ladder := ladderUpTo s.lDollar n s.ladder
  (ladder.getD n (zeroBytes 16), { s with ladder := ladder })

end Sys2Proof.Machine
end

