-- ==== Sys2Proof/Machine/NonceExpander.lean ====
section
/-! DEFINITION. spec/41_nonce_expander.md: the formatted nonce, bottom, the Ktop cache, stretch, the initial offset. -/

namespace Sys2Proof.Machine

/-- R131, steps 1 and 2: the nonce right-justified in 16 zero bytes. -/
def justifyNonce (nonce : List Byte) : Block :=
  Vector.ofFn fun i => if i.val < 16 - nonce.length then 0 else nonce.getD (i.val - (16 - nonce.length)) 0

/-- R131, steps 1 to 4: the formatted nonce. -/
def formatNonce (P : Platform) (tagLen : Nat) (nonce : List Byte) : Block :=
  let n := setByte (justifyNonce nonce) 0 (P.tagField tagLen)
  setByte n (15 - nonce.length) (byteAt n (15 - nonce.length) ||| 0x01)

/-- R132, step 5: `bottom`, the low 6 bits of the last byte. -/
def nonceBottom (formatted : Block) : Nat := (formatted[15] &&& 0x3F).toNat

/-- R132, step 6: the last byte masked with `0xC0`. -/
def maskBottom (formatted : Block) : Block := setByte formatted 15 (formatted[15] &&& 0xC0)

/-- R134: `Ktop ‖ (Ktop[0..8) ⊕ Ktop[1..9))`. -/
def stretchOf (ktop : Block) : Bytes 24 :=
  Vector.ofFn fun i => if i.val < 16 then byteAt ktop i.val else byteAt ktop (i.val - 16) ^^^ byteAt ktop (i.val - 15)

/-- R133, R134: on a hit nothing; on a miss one `HashPerm` request and the cache refilled. -/
def fillKtop (P : Platform) (formatted : Block) (s : State) : State :=
  if ktopHit s formatted then s
  else
    let (ktop, s) := hashPerm P formatted s
    { s with stretch := stretchOf ktop, ktopInput := formatted, ktopValid := true }

/-- R135: `stretch` shifted left by `bottom` bits, the top 128 bits. -/
def shiftStretch (stretch : Bytes 24) (bottom : Nat) : Block :=
  let byteShift := bottom / 8
  let bitShift := bottom % 8
  Vector.ofFn fun i =>
    if bitShift = 0 then byteAt stretch (byteShift + i.val)
    else (byteAt stretch (byteShift + i.val) <<< bitShift) |||
      (byteAt stretch (byteShift + i.val + 1) >>> (8 - bitShift))

/-- R130 to R135: writes `stretch`, `ktopInput`, `ktopValid` (on a miss) and `offsetMain_0` (R138). -/
def nonceExpander (P : Platform) (nonce : List Byte) (s : State) : State :=
  let n := formatNonce P s.tagLen.toNat nonce
  let s := fillKtop P (maskBottom n) s
  { s with offsetMain0 := shiftStretch s.stretch (nonceBottom n) }

end Sys2Proof.Machine
end

