-- ==== Sys2Proof/Machine/HashLane.lean ====
section
/-! DEFINITION. spec/42_hash_lane.md: `processFullHashBlock`, `finalizeHash`, `absorb`, and the FEEDAAD command. -/

namespace Sys2Proof.Machine

/-- R151: the six steps that run when `hashPos = 16`. -/
def processFullHashBlock (P : Platform) (s : State) : State :=
  let count := s.hashLane.hashCount + 1
  let (entry, s) := lsub (ntz count) s
  let offset := xorBytes s.hashLane.offsetHash entry
  let (block, s) := hashPerm P (xorBytes s.hashLane.hashBuf offset) s
  { s with hashLane :=
    { hashBuf := block, hashPos := 0, hashCount := count, offsetHash := offset
      sum := xorBytes s.hashLane.sum block } }

/-- R152: acts only if `hashPos > 0`. -/
def finalizeHash (P : Platform) (s : State) : State :=
  if s.hashLane.hashPos = 0 then s
  else
    let padded := extend s.hashLane.hashBuf s.hashLane.hashPos.toNat
    let offset := xorBytes s.hashLane.offsetHash s.lStar
    let (block, s) := hashPerm P (xorBytes padded offset) s
    { s with hashLane :=
      { s.hashLane with hashBuf := block, offsetHash := offset, sum := xorBytes s.hashLane.sum block } }

/-- R153: `hashBuf[hashPos] <- b ; hashPos <- hashPos + 1`. -/
def bufferHashByte (b : Byte) (s : State) : State :=
  { s with hashLane :=
    { s.hashLane with
      hashBuf := setByte s.hashLane.hashBuf s.hashLane.hashPos.toNat b
      hashPos := s.hashLane.hashPos + 1 } }

/-- R153: one turn of the byte loop. -/
def absorbByte (P : Platform) (s : State) (b : Byte) : State :=
  let s := bufferHashByte b s
  if s.hashLane.hashPos = 16 then processFullHashBlock P s else s

/-- R153: the byte loop shared by FEEDAAD, INIT and the reset procedure. -/
def absorb (P : Platform) (bytes : List Byte) (s : State) : State :=
  bytes.foldl (absorbByte P) s

/-- R150: FEEDAAD. -/
def feedAadOn (P : Platform) (inOff len : Word) (s : State) : Result :=
  let s := begin s
  if !feedAllowed s then .next (refuse .illegalState s)
  else if !inputFits P inOff len then .next (refuse .badDescriptor s)
  else if hashCountWraps s len.toNat then .fault .counterWrap
  else .next (respond 0 [] (absorb P (inputBytes s inOff len) s))

/-- R150, on the machine's platform. -/
def execFeedaad (inOff len : Word) (s : State) : Result :=
  feedAadOn Config.platform inOff len s

end Sys2Proof.Machine
end

