-- ==== Sys2Proof/Machine/CryptLane.lean ====
section
/-! DEFINITION. spec/43_crypt_lane.md: `processFullMainBlock` and the FEEDMSG, UPDSIZE and FINSIZE commands. -/

namespace Sys2Proof.Machine

/-- R171, step 8: `mainBuf[0..tagLen) <- mainBuf[16..16+tagLen)`, all source bytes read first. -/
def shiftTail (tagLen : Nat) (b : Bytes 48) : Bytes 48 :=
  Vector.ofFn fun i => if i.val < tagLen then byteAt b (16 + i.val) else b[i]

/-- R171: the eight steps that run when `mainPos = mainBufLen`: the block to emit, and the state after. -/
def processFullMainBlock (P : Platform) (s : State) : Block × State :=
  let count := s.mainLane.mainCount + 1
  let input := firstBlock s.mainLane.mainBuf
  let (entry, s) := lsub (ntz count) s
  let offset := xorBytes s.mainLane.offsetMain entry
  let (answer, s) := mainPerm P (xorBytes input offset) s
  let blk := xorBytes answer offset
  let buf := setFirstBlock s.mainLane.mainBuf blk
  match s.mode with
  | .encrypt =>
    (blk, { s with mainLane :=
      { mainBuf := buf, mainPos := 0, mainCount := count, offsetMain := offset
        checksum := xorBytes s.mainLane.checksum input } })
  | .decrypt =>
    (blk, { s with mainLane :=
      { mainBuf := shiftTail s.tagLen.toNat buf, mainPos := s.tagLen, mainCount := count, offsetMain := offset
        checksum := xorBytes s.mainLane.checksum blk } })

/-- R170: `mainBuf[mainPos] <- b ; mainPos <- mainPos + 1`. -/
def bufferMainByte (b : Byte) (s : State) : State :=
  { s with mainLane :=
    { s.mainLane with
      mainBuf := setByte s.mainLane.mainBuf s.mainLane.mainPos.toNat b
      mainPos := s.mainLane.mainPos + 1 } }

/-- R170: the byte loop, with `w` bytes written so far behind `outOff`. -/
def feedMain (P : Platform) (outOff : Nat) : List Byte → Nat → State → Nat × State
  | [], w, s => (w, s)
  | b :: bytes, w, s =>
    let s := bufferMainByte b s
    if s.mainLane.mainPos.toNat = mainBufLen s then
      let (blk, s) := processFullMainBlock P s
      feedMain P outOff bytes (w + 16) (memWriteObuf (outOff + w) blk.toList s)
    else feedMain P outOff bytes w s

/-- R170: FEEDMSG. -/
def feedMsgOn (P : Platform) (inOff len outOff outLen : Word) (s : State) : Result :=
  let s := begin s
  if !feedAllowed s then .next (refuse .illegalState s)
  else if !(inputFits P inOff len && outputFits P outLen) then .next (refuse .badDescriptor s)
  else if !roomFor outOff outLen (updsize s len.toNat) then .next (raiseError .bufferTooSmall s)
  else if mainCountWraps s len.toNat then .fault .counterWrap
  else
    let (w, s) := feedMain P outOff.toNat (inputBytes s inOff len) 0 s
    .next (respond w [] s)

/-- R170, on the machine's platform. -/
def execFeedmsg (inOff len outOff outLen : Word) (s : State) : Result :=
  feedMsgOn Config.platform inOff len outOff outLen s

/-- R174: UPDSIZE. -/
def execUpdsize (len : Word) (s : State) : Result :=
  let s := begin s
  if !queryAllowed s then .next (refuse .illegalState s)
  else .next (respond (updsize s len.toNat) [] s)

/-- R175: FINSIZE. -/
def execFinsize (len : Word) (s : State) : Result :=
  let s := begin s
  if !queryAllowed s then .next (refuse .illegalState s)
  else .next (respond (finsize s len.toNat) [] s)

end Sys2Proof.Machine
end

