-- ==== Sys2Proof/WellFormed.lean ====
section
/-! DEFINITION. Which commands are well formed. Operand words have no reserved bits (spec/30_encoding.md R87), so the
one condition is INIT's: with `K = 0` the words `KEYOFF` and `KEYLEN` must both be 0 (R83, R87). -/

namespace Sys2Proof

/-- R83, R87: when `K = 0`, INIT's `KEYOFF` and `KEYLEN` words must both be 0. -/
def keyDescriptorOk (k : Bool) (keyOff keyLen : Word) : Bool :=
  k || (keyOff == 0 && keyLen == 0)

/-- A command that some word sequence of R85 stands for. -/
def Instr.wellFormed : Instr → Bool
  | .newsession => true
  | .init k _ _ keyOff keyLen _ _ _ _ => keyDescriptorOk k keyOff keyLen
  | .feedaad _ _ => true
  | .feedmsg _ _ _ _ => true
  | .updsize _ => true
  | .finsize _ => true
  | .finalize _ _ => true
  | .reset => true
  | .mac => true
  | .algid => true

end Sys2Proof
end

