-- ==== Sys2Proof/Machine/Session.lean ====
section
/-! DEFINITION. spec/45_session_control.md: the reset procedure and the NEWSESSION, INIT, RESET and ALGID commands;
IllegalCommand (60_exceptions.md R267). -/

namespace Sys2Proof.Machine

/-- R225, what the reset procedure writes before it replays the initial AAD. -/
def clearLanes (preserveMac : Bool) (s : State) : State :=
  { s with
    hashLane := HashLane.zero
    mainLane := { MainLane.zero with offsetMain := s.offsetMain0 }
    macBlock := if preserveMac then s.macBlock else zeroBytes 32
    macLen := if preserveMac then s.macLen else 0 }

/-- R225: `resetProcedure(preserveMac)`. -/
def resetProcedure (P : Platform) (preserveMac : Bool) (s : State) : State :=
  absorb P (initAADBytes s) (clearLanes preserveMac s)

/-- R267, R273: a command the decoder refuses. -/
def illegalCommand (s : State) : State := refuse .illegalCommand (begin s)

/-- R221: NEWSESSION. -/
def newSessionOn (P : Platform) (s : State) : Result :=
  let s := zeroize s
  .next (if strapsAgree P then respond 0 [] { s with phase := .uninit }
    else refuse .configurationError s)

/-- R221, on the machine's platform. -/
def execNewsession (s : State) : Result := newSessionOn Config.platform s

/-- R223: the key handling of an INIT with `K = 1`. -/
def rekey (P : Platform) (key : Key) (s : State) : State :=
  let s := loadKeys key s
  let (lStar, s) := hashPerm P (zeroBytes 16) s
  { s with lStar := lStar, lDollar := double lStar, ladder := [], ktopValid := false, keyed := true }

/-- R222: what an INIT whose checks all pass does. `key` is the key string when `K = 1`. -/
def startSession (P : Platform) (e : Bool) (tagLenBits : BitVec 16) (key : Option Key)
    (nonce aad : List Byte) (s : State) : State :=
  let s := { s with mode := if e then .encrypt else .decrypt, tagLen := BitVec.ofNat 6 (tagLenBits.toNat / 8) }
  let s := match key with
    | some k => rekey P k s
    | none => s
  let s := nonceExpander P nonce s
  let s := setInitAAD aad s
  let s := resetProcedure P false s
  { s with inited := true, phase := .ready }

/-- R222: INIT, its checks in the order of 60_exceptions.md R276. -/
def initOn (P : Platform) (k e : Bool) (tagLenBits : BitVec 16)
    (keyOff keyLen nonceOff nonceLen aadOff aadLen : Word) (s : State) : Result :=
  let s := begin s
  if !keyDescriptorOk k keyOff keyLen then .next (refuse .illegalCommand s)
  else if !initAllowed s k then .next (refuse .illegalState s)
  else if !tagLenBitsOk tagLenBits then .next (raiseInitError .invalidTagLength k s)
  else if !nonceLenOk nonceLen then .next (raiseInitError .invalidNonce k s)
  else if !(inputFits P keyOff keyLen && inputFits P nonceOff nonceLen && aadFits P aadOff aadLen) then
    .next (refuse .badDescriptor s)
  else if k && !P.keyLenOk keyLen.toNat then .next (refuse .keyRejected s)
  else
    let key := if k then some (inputBytes s keyOff keyLen) else none
    .next (respond 0 []
      (startSession P e tagLenBits key (inputBytes s nonceOff nonceLen) (inputBytes s aadOff aadLen) s))

/-- R222, on the machine's platform. -/
def execInit (k e : Bool) (tagLenBits : BitVec 16)
    (keyOff keyLen nonceOff nonceLen aadOff aadLen : Word) (s : State) : Result :=
  initOn Config.platform k e tagLenBits keyOff keyLen nonceOff nonceLen aadOff aadLen s

/-- R226: RESET. -/
def resetOn (P : Platform) (s : State) : Result :=
  let s := begin s
  if !resetAllowed s then .next (refuse .illegalState s)
  else .next (respond 0 [] { resetProcedure P false s with phase := .ready })

/-- R226, on the machine's platform. -/
def execReset (s : State) : Result := resetOn Config.platform s

/-- R227: the four ASCII bytes of "/OCB". -/
def ocbSuffix : List Byte := [0x2F, 0x4F, 0x43, 0x42]

/-- R227: ALGID. -/
def algIdOn (P : Platform) (s : State) : Result :=
  let s := begin s
  if !sessionOpen s then .next (refuse .illegalState s)
  else .next (respond 0 (P.hpName.string ++ ocbSuffix) s)

/-- R227, on the machine's platform. -/
def execAlgid (s : State) : Result := algIdOn Config.platform s

end Sys2Proof.Machine
end

