-- ==== Sys2Proof/Machine/Finalizer.lean ====
section
/-! DEFINITION. spec/44_finalizer.md: the steps of FINALIZE (R191 to R199, R201, R202) and the FINALIZE and MAC
commands. -/

namespace Sys2Proof.Machine

/-- R191: the tag split off in Decrypt mode, a copy held outside `mainBuf`; empty in Encrypt mode. -/
def receivedTag (s : State) : List Byte :=
  match s.mode with
  | .encrypt => []
  | .decrypt => slice s.mainLane.mainBuf (s.mainLane.mainPos.toNat - s.tagLen.toNat) s.tagLen.toNat

/-- R191: `mainPos <- mainPos - tagLen` in Decrypt mode. -/
def dropTag (s : State) : State :=
  match s.mode with
  | .encrypt => s
  | .decrypt => { s with mainLane := { s.mainLane with mainPos := s.mainLane.mainPos - s.tagLen } }

/-- R193: the partial-block crypt: `part` and the state after. The pad is made with the forward permutation in both
modes; the checksum takes the padded plaintext. -/
def partialCrypt (P : Platform) (s : State) : List Byte × State :=
  if s.mainLane.mainPos = 0 then ([], s)
  else
    let p := s.mainLane.mainPos.toNat
    let offset := xorBytes s.mainLane.offsetMain s.lStar
    let (pad, s) := hashPerm P offset s
    match s.mode with
    | .encrypt =>
      let plain := extend s.mainLane.mainBuf p
      let buf := setFirstBlock plain (xorBytes (firstBlock plain) pad)
      (slice buf 0 p,
        { s with mainLane :=
          { s.mainLane with mainBuf := buf, offsetMain := offset
                            checksum := xorBytes s.mainLane.checksum (firstBlock plain) } })
    | .decrypt =>
      let buf := setFirstBlock s.mainLane.mainBuf (xorBytes (firstBlock s.mainLane.mainBuf) pad)
      let plain := extend buf p
      (slice buf 0 p,
        { s with mainLane :=
          { s.mainLane with mainBuf := plain, offsetMain := offset
                            checksum := xorBytes s.mainLane.checksum (firstBlock plain) } })

/-- R195: the raw tag into `checksum`. -/
def rawTag (P : Platform) (s : State) : State :=
  let input := xorBytes (xorBytes s.mainLane.checksum s.mainLane.offsetMain) s.lDollar
  let (answer, s) := hashPerm P input s
  { s with mainLane := { s.mainLane with checksum := xorBytes answer s.hashLane.sum } }

/-- R196: `macBlock[0..tagLen) <- checksum[0..tagLen) ; macLen <- tagLen`. -/
def storeMac (s : State) : State :=
  { s with
    macBlock := Vector.ofFn fun i =>
      if i.val < s.tagLen.toNat then byteAt s.mainLane.checksum i.val else s.macBlock[i]
    macLen := s.tagLen }

/-- R37: `macBlock[0 .. macLen)`. -/
def macBytes (s : State) : List Byte := slice s.macBlock 0 s.macLen.toNat

/-- R190, steps 1 to 5: `part` and the state with the computed tag in `macBlock`. -/
def computeTag (P : Platform) (s : State) : List Byte × State :=
  let s := dropTag s
  let s := finalizeHash P s
  let (part, s) := partialCrypt P s
  (part, storeMac (rawTag P s))

/-- R199 and the response: the reset that ends FINALIZE, phase `FINAL`, `RVAL = w`. -/
def completeFinalize (P : Platform) (w : Nat) (s : State) : State :=
  respond w [] { resetProcedure P true s with phase := .final }

/-- U7: `p` free bytes, the OBUF window after the AuthenticationFailed of draw `n`. -/
def freeWindow (n p : Nat) : List Byte := (List.range p).map fun i => Config.freeWindowByte n i

/-- R198, R201: AuthenticationFailed: error entry (R274), the OBUF window of the partial block unspecified. -/
def authenticationFailed (outOff : Nat) (part : List Byte) (s : State) : State :=
  raiseError .authenticationFailed (memWriteObuf outOff (freeWindow s.draws part.length) s)

/-- R190, steps 1 to 8: FINALIZE once its checks have passed. -/
def closeMessage (P : Platform) (outOff : Nat) (s : State) : State :=
  let tag := receivedTag s
  let (part, s) := computeTag P s
  match s.mode with
  | .encrypt =>
    completeFinalize P (part.length + s.tagLen.toNat)
      (memWriteObuf (outOff + part.length) (macBytes s) (memWriteObuf outOff part s))
  | .decrypt =>
    if tagDifference s.macBlock tag s.tagLen.toNat ≠ 0 then authenticationFailed outOff part s
    else completeFinalize P part.length (memWriteObuf outOff part s)

/-- R191: in Decrypt mode fewer than `tagLen` bytes are buffered. -/
def dataTooShort (s : State) : Bool :=
  match s.mode with
  | .encrypt => false
  | .decrypt => decide (s.mainLane.mainPos.toNat < s.tagLen.toNat)

/-- R190: FINALIZE, its checks in the order of 60_exceptions.md R276. -/
def finalizeOn (P : Platform) (outOff outLen : Word) (s : State) : Result :=
  let s := begin s
  if !feedAllowed s then .next (refuse .illegalState s)
  else if !outputFits P outLen then .next (refuse .badDescriptor s)
  else if 16 < s.tagLen.toNat then .next (refuse .unsupportedTagLength s)
  else if dataTooShort s then .next (raiseError .dataTooShort s)
  else if !roomFor outOff outLen (finsize s 0) then .next (raiseError .bufferTooSmall s)
  else .next (closeMessage P outOff.toNat s)

/-- R190, on the machine's platform. -/
def execFinalize (outOff outLen : Word) (s : State) : Result :=
  finalizeOn Config.platform outOff outLen s

/-- R204: MAC. -/
def execMac (s : State) : Result :=
  let s := begin s
  if !sessionOpen s then .next (refuse .illegalState s)
  else if s.phase != .final then .next (refuse .macNotReady s)
  else .next (respond 0 (macBytes s) s)

end Sys2Proof.Machine
end

