-- ==== Sys2Proof/Machine/Dispatch.lean ====
section
/-! DEFINITION. One arm per command, each one direct call of its meaning. -/

namespace Sys2Proof.Machine

def exec (i : Instr) (s : State) : Host.Outcome State Fault Refusal :=
  match i with
  -- 45_session_control.md
  | .newsession => Sys2Proof.Machine.execNewsession s
  | .init k e tagLenBits keyOff keyLen nonceOff nonceLen aadOff aadLen => Sys2Proof.Machine.execInit k e tagLenBits keyOff keyLen nonceOff nonceLen aadOff aadLen s
  -- 42_hash_lane.md
  | .feedaad inOff len => Sys2Proof.Machine.execFeedaad inOff len s
  -- 43_crypt_lane.md
  | .feedmsg inOff len outOff outLen => Sys2Proof.Machine.execFeedmsg inOff len outOff outLen s
  | .updsize len => Sys2Proof.Machine.execUpdsize len s
  | .finsize len => Sys2Proof.Machine.execFinsize len s
  -- 44_finalizer.md, 45_session_control.md
  | .finalize outOff outLen => Sys2Proof.Machine.execFinalize outOff outLen s
  | .reset => Sys2Proof.Machine.execReset s
  | .mac => Sys2Proof.Machine.execMac s
  | .algid => Sys2Proof.Machine.execAlgid s

end Sys2Proof.Machine
end

