-- ==== Sys2Proof/Decode.lean ====
section
/-! DEFINITION. The decoder and the encoder of spec/30_encoding.md: the opcode map (R85) as a table of rows, the
decoder over a command as the port delivers it (R71, R80: a header word, then its operand words, each a whole
word with no byte order, R63), and the encoder written from the same map. Assumption log: 3, 16, 17, 26. -/

namespace Sys2Proof

/-- The ten commands of R85 by name. -/
inductive Opcode where
  | newsession | init | feedaad | feedmsg | updsize | finsize | finalize | reset | mac | algid
  deriving DecidableEq, Repr

/-- One row of the opcode map: a header `w` selects it when `w & mask = matchBits`. -/
structure OpcodeRow where
  op : Opcode
  matchBits : Word
  mask : Word
  /-- R82: the number of operand words. -/
  operands : Nat
  deriving DecidableEq, Repr

/-- R85. -/
def opcodeTable : List OpcodeRow := [
  ⟨.newsession, 0x01000000, 0xFFFFFFFF, 0⟩,
  ⟨.init, 0x02000000, 0xFFFC0000, 6⟩,
  ⟨.feedaad, 0x03000000, 0xFFFFFFFF, 2⟩,
  ⟨.feedmsg, 0x04000000, 0xFFFFFFFF, 4⟩,
  ⟨.updsize, 0x05000000, 0xFFFFFFFF, 1⟩,
  ⟨.finsize, 0x06000000, 0xFFFFFFFF, 1⟩,
  ⟨.finalize, 0x07000000, 0xFFFFFFFF, 2⟩,
  ⟨.reset, 0x08000000, 0xFFFFFFFF, 0⟩,
  ⟨.mac, 0x09000000, 0xFFFFFFFF, 0⟩,
  ⟨.algid, 0x0A000000, 0xFFFFFFFF, 0⟩]

/-- The row a header word selects, if any. -/
def selectRow (header : Word) : Option OpcodeRow :=
  opcodeTable.find? fun r => header &&& r.mask == r.matchBits

/-! The header's fields (R81). -/

/-- `OPC`, bits 31:24. -/
def opcField (header : Word) : BitVec 8 := header.extractLsb' 24 8
/-- `K`, bit 17. -/
def kField (header : Word) : Bool := header.getLsbD 17
/-- `E`, bit 16. -/
def eField (header : Word) : Bool := header.getLsbD 16
/-- `IMM`, bits 15:0. -/
def immField (header : Word) : BitVec 16 := header.extractLsb' 0 16

/-- Why a command is not decoded. -/
inductive Reject where
  /-- R86: `OPC = 0x00` or `OPC = 0x0B .. 0xFF`. IllegalCommand. -/
  | reservedOpcode
  /-- R87: non-zero `RSV`, or `K`, `E`, `IMM` non-zero outside INIT. IllegalCommand. -/
  | mustBeZero
  /-- R87: INIT with `K = 0` and a non-zero key descriptor. IllegalCommand. -/
  | keyDescriptorWithoutKey
  /-- The transaction holds no header, or not the number of operand words R82 gives the command: no rule says
  what the port does then (log entry 3). -/
  | commandLength
  deriving DecidableEq, Repr

/-- What the decoder answers. -/
inductive Decoded where
  | instr (i : Instr)
  | reject (why : Reject)
  deriving DecidableEq, Repr

/-- R86, R87: why a header that matches no row is refused. -/
def rejectHeader (header : Word) : Reject :=
  if 1 ≤ (opcField header).toNat ∧ (opcField header).toNat ≤ 10 then .mustBeZero else .reservedOpcode

/-- R82: the operands of a command whose header selected `op`. -/
def decodeOperands (op : Opcode) (header : Word) (operands : List Word) : Decoded :=
  match op, operands with
  | .newsession, [] => .instr .newsession
  | .init, [keyOff, keyLen, nonceOff, nonceLen, aadOff, aadLen] =>
    if keyDescriptorOk (kField header) keyOff keyLen then
      .instr (.init (kField header) (eField header) (immField header)
        keyOff keyLen nonceOff nonceLen aadOff aadLen)
    else .reject .keyDescriptorWithoutKey
  | .feedaad, [inOff, len] => .instr (.feedaad inOff len)
  | .feedmsg, [inOff, len, outOff, outLen] => .instr (.feedmsg inOff len outOff outLen)
  | .updsize, [len] => .instr (.updsize len)
  | .finsize, [len] => .instr (.finsize len)
  | .finalize, [outOff, outLen] => .instr (.finalize outOff outLen)
  | .reset, [] => .instr .reset
  | .mac, [] => .instr .mac
  | .algid, [] => .instr .algid
  | _, _ => .reject .commandLength

/-- The decoder: total on every transaction of the command port. A header that matches no row is refused by the
header alone, whatever words follow it (R87, R267). -/
def decode : List Word → Decoded
  | [] => .reject .commandLength
  | header :: operands =>
    match selectRow header with
    | none => .reject (rejectHeader header)
    | some r => decodeOperands r.op header operands

/-! The encoder, from the same rules. -/

/-- R81: a header word from its fields, `RSV` zero. -/
def headerWord (opc : BitVec 8) (k e : Bool) (imm : BitVec 16) : Word :=
  opc ++ (0 : BitVec 6) ++ BitVec.ofBool k ++ BitVec.ofBool e ++ imm

/-- R82, R85: the words of a command, header first. -/
def encode : Instr → List Word
  | .newsession => [headerWord 0x01 false false 0]
  | .init k e tagLenBits keyOff keyLen nonceOff nonceLen aadOff aadLen =>
    [headerWord 0x02 k e tagLenBits, keyOff, keyLen, nonceOff, nonceLen, aadOff, aadLen]
  | .feedaad inOff len => [headerWord 0x03 false false 0, inOff, len]
  | .feedmsg inOff len outOff outLen => [headerWord 0x04 false false 0, inOff, len, outOff, outLen]
  | .updsize len => [headerWord 0x05 false false 0, len]
  | .finsize len => [headerWord 0x06 false false 0, len]
  | .finalize outOff outLen => [headerWord 0x07 false false 0, outOff, outLen]
  | .reset => [headerWord 0x08 false false 0]
  | .mac => [headerWord 0x09 false false 0]
  | .algid => [headerWord 0x0A false false 0]

/-! The opcode table's numbering: bit 0 is the least significant bit of the header, operand word `k` starts at bit
`32 k`. -/

/-- How many operand words the header alone asks for (R80, R87: 0 for a refused header). -/
def operandCount (header : Word) : Nat :=
  match selectRow header with
  | none => 0
  | some r => r.operands

/-- The command transaction whose bits are `w`, every bit from `nbits` on being 0. -/
def tableWords (nbits w : Nat) : List Word :=
  let bits := w % 2 ^ nbits
  let header := BitVec.ofNat 32 bits
  header :: (List.range (operandCount header)).map fun k => BitVec.ofNat 32 (bits >>> (32 * (k + 1)))

/-- The instruction the decoder reads from the bits `w` of an opcode-table row. -/
def decodeTableWord (nbits w : Nat) : Option Instr :=
  match decode (tableWords nbits w) with
  | .instr i => some i
  | .reject _ => none

end Sys2Proof
end

