-- ==== Sys2Proof/Machine/Port.lean ====
section
/-! DEFINITION. The platform around the engine (spec/70_reset_and_hazards.md R300, R323; 20_memory.md R60, R71): taking
the host's next event, the host's writes into the buffer spaces, and hardware reset between commands and during one.
Assumption log: 1, 2, 4, 20. -/

namespace Sys2Proof.Machine

/-- The host's next event and the state without it; none when the host does nothing (R301, R323). -/
def takeEvent (s : State) : Option (HostEvent × State) :=
  match s.hostQueue with
  | [] => none
  | e :: rest => some (e, { s with hostQueue := rest })

/-- R60: the host writes a byte of IBUF. -/
def hostWriteIbuf (P : Platform) (addr : Word) (byte : Byte) (s : State) : Result :=
  if addr.toNat < P.ibufSize.val then .next { s with ibuf := s.ibuf.set addr.toNat byte }
  else .fault .noSuchAddress

/-- R60: the host writes a byte of OBUF, "which has no effect on the engine". -/
def hostWriteObuf (P : Platform) (addr : Word) (byte : Byte) (s : State) : Result :=
  if addr.toNat < P.obufSize.val then .next { s with obuf := s.obuf.set addr.toNat byte }
  else .fault .noSuchAddress

/-- R267, R86, R87: what a command the decoder refuses does: the refusal IllegalCommand, or, for a transaction that
is no command at all, no meaning (log entry 3). -/
def answerReject (why : Reject) (s : State) : Result :=
  match why with
  | .reservedOpcode => .next (illegalCommand s)
  | .mustBeZero => .next (illegalCommand s)
  | .keyDescriptorWithoutKey => .next (illegalCommand s)
  | .commandLength => .refused .commandLength

/-- R300: the effect of hardware reset. -/
def hardwareReset (s : State) : State := zeroize s

/-- R300, R66: hardware reset when the engine, begun in `s`, had made `made` requests and written `written` bytes of
output, from `outOff` on, of a command that ends in `t`: every register is reset, and OBUF holds those bytes. -/
def resetPartWay (outOff made written : Nat) (t s : State) : State :=
  { hardwareReset s with
    obuf := Memory.upTo s.obuf t.obuf outOff written, requests := t.requests.take made, draws := t.draws }

/-- R300: hardware reset during the command `words`, `run` being the meaning of commands: "a command in progress is
abandoned without a response". A feed whose counter would wrap is in progress up to the block that wraps (U5); a
transaction that is no command (log entry 3) has done nothing. -/
def abandonCommand (run : Instr → State → Result) (words : List Word) (made written : Nat) (s : State) : State :=
  match decode words with
  | .reject _ => hardwareReset s
  | .instr i =>
    match run i s with
    | .next t => resetPartWay (outputOffset i) made written t s
    | .refused _ => hardwareReset s
    | .fault _ =>
      match run (beforeWrap i s) s with
      | .next t => resetPartWay (outputOffset i) made written t s
      | .refused _ => hardwareReset s
      | .fault _ => hardwareReset s

end Sys2Proof.Machine
end

