-- ==== Sys2Proof/Machine/Step.lean ====
section
/-! DEFINITION. One step of the machine (spec/00_scope.md R8, R9): the host's next event, done whole. A command is
decoded (R80, R267) and executed; there is no program counter and no fetch from memory (10_state.md R45,
20_memory.md R71). Assumption log: 1, 2, 3, 20. -/

namespace Sys2Proof.Machine

/-- The transaction `words` on the command port. -/
def runCommand (words : List Word) (s : State) : Host.Outcome State Fault Refusal :=
  match decode words with
  | .instr i => exec i s
  | .reject why => answerReject why s

/-- One step: the host's next event; without one the engine is idle and keeps its state (R323). -/
def step (s : State) : Host.Outcome State Fault Refusal :=
  match takeEvent s with
  | none => .next s
  | some (.command words, s) => runCommand words s
  | some (.writeIbuf addr byte, s) => hostWriteIbuf Config.platform addr byte s
  | some (.writeObuf addr byte, s) => hostWriteObuf Config.platform addr byte s
  | some (.hardwareReset, s) => .next (hardwareReset s)
  | some (.resetDuring words made written, s) => .next (abandonCommand exec words made written s)

/-- The state in which the host's next event is the command whose bits the opcode table numbers `w`. -/
def State.withFetchWord (s : State) (nbits w : Nat) : State :=
  { s with hostQueue := .command (tableWords nbits w) :: s.hostQueue }

end Sys2Proof.Machine
end

