-- ==== Sys2Proof/Safety.lean ====
section
/-! DEFINITION. What a safe state of the engine is, and the closed forms of the spec's derived rules, in the terms the
statements use: the invariants of spec/10_state.md R41 to R44 with what 70_reset_and_hazards.md R324 and
44_finalizer.md R202 imply (`Inv`), the phase table of 45_session_control.md R220, the check orders of
60_exceptions.md R276, and the closed forms of 42_hash_lane.md R155 and 44_finalizer.md R203. -/

namespace Sys2Proof.Safety

open Sys2Proof.Machine

/-- R115: the ladder holds `double^(n+1)(L_dollar)` at `n`. -/
def LadderOk (lDollar : Block) (ladder : List Block) : Prop :=
  ∀ n (h : n < ladder.length), ladder[n] = doubleIter (n + 1) lDollar

/-- R24: what `keyed = 1` means: the instances hold a key, and `L_star`, `L_dollar` belong to it (R25, R26). -/
def KeyedOk (P : Platform) (s : State) : Prop :=
  ∃ k, s.hpKey = some k ∧ s.lStar = P.perm k (zeroBytes 16) ∧ s.lDollar = double s.lStar

/-- R40: a key an instance holds is "a byte string accepted by `KEYLEN_OK`". -/
def KeyAccepted (P : Platform) (s : State) : Prop :=
  ∀ k, s.hpKey = some k ∨ s.mpKey = some k → P.keyLenOk k.length = true

/-- R43: what `ktopValid = 1` means. -/
def KtopOk (P : Platform) (s : State) : Prop :=
  ∃ k, s.hpKey = some k ∧ s.stretch = stretchOf (P.perm k s.ktopInput)

/-- R41, R42: what holds of the lanes between commands in `READY` and `FINAL`. -/
structure LanesOk (s : State) : Prop where
  hashPos : s.hashLane.hashPos.toNat < 16
  mainPos : s.mainLane.mainPos.toNat < mainBufLen s
  hashLadder : s.hashLane.hashCount.toNat < 2 ^ s.ladder.length
  mainLadder : s.mainLane.mainCount.toNat < 2 ^ s.ladder.length

/-- The invariants of the session between commands. -/
structure SessionOk (P : Platform) (s : State) : Prop where
  /-- R10, R40, R223: one key string in both instances. -/
  sameKey : s.hpKey = s.mpKey
  keyed : s.keyed = true → KeyedOk P s
  ktop : s.ktopValid = true → KtopOk P s
  /-- R27, R115. -/
  ladder : LadderOk s.lDollar s.ladder
  /-- R27, R116. -/
  ladderLen : s.ladder.length ≤ 64
  /-- R22, R24, R38: what `inited = 1` means. -/
  inited : s.inited = true →
    s.keyed = true ∧ 4 ≤ s.tagLen.toNat ∧ s.tagLen.toNat ≤ 32 ∧ s.initAADLen.toNat ≤ s.initAAD.length
  /-- R220, R324: before NEWSESSION nothing is keyed; before INIT nothing is initialised. -/
  noSession : s.phase = .noSession → s.hpKey = none ∧ s.inited = false ∧ s.keyed = false
  uninit : s.phase = .uninit → s.inited = false ∧ s.keyed = false
  ready : s.phase = .ready → s.inited = true ∧ LanesOk s
  /-- R37, R202. -/
  final : s.phase = .final → s.inited = true ∧ LanesOk s ∧ s.macLen = s.tagLen ∧ s.tagLen.toNat ≤ 16
  /-- R37, R270: a tag is kept in `FINAL` only. -/
  noMac : s.phase ≠ .final → s.macLen = 0

/-- The buffer spaces: canonical form, no address outside the space (R60). -/
structure BuffersOk (P : Platform) (s : State) : Prop where
  ibufWf : Memory.wf s.ibuf = true
  obufWf : Memory.wf s.obuf = true
  ibufBelow : Memory.below P.ibufSize.val s.ibuf = true
  obufBelow : Memory.below P.obufSize.val s.obuf = true

/-- The invariant every step keeps. -/
structure Inv (P : Platform) (s : State) : Prop where
  session : SessionOk P s
  buffers : BuffersOk P s

/-- R88: the shape of every response. -/
def ResponseOk (r : Response) : Prop :=
  r.rlen.toNat ≤ 32 ∧
  (∀ i (h : i < 32), r.rlen.toNat ≤ i → r.rdata[i] = 0) ∧
  (r.rstat ≠ .ok → r.rval = 0 ∧ r.rlen = 0 ∧ r.rdata = zeroBytes 32)

/-- R260: the class of a status. -/
def isRefusal : Status → Bool
  | .illegalCommand | .illegalState | .badDescriptor | .macNotReady | .unsupportedTagLength | .keyRejected => true
  | _ => false

/-- R260: the errors that end in phase `ERROR` (codes 2..6). -/
def isSessionError : Status → Bool
  | .invalidTagLength | .invalidNonce | .bufferTooSmall | .dataTooShort | .authenticationFailed => true
  | _ => false

/-- R220: the phase after a command that ends OK, `none` where the table refuses it with IllegalState. MAC's cells
that say MacNotReady are `none` here too. -/
def phaseAfter (i : Instr) (phase : Phase) (inited keyed : Bool) : Option Phase :=
  match i with
  | .newsession => some .uninit
  | .init k _ _ _ _ _ _ _ _ => if phase = .noSession ∨ (k = false ∧ keyed = false) then none else some .ready
  | .feedaad _ _ => if phase = .ready then some .ready else none
  | .feedmsg _ _ _ _ => if phase = .ready then some .ready else none
  | .updsize _ => if phase = .ready ∨ phase = .final then some phase else none
  | .finsize _ => if phase = .ready ∨ phase = .final then some phase else none
  | .finalize _ _ => if phase = .ready then some .final else none
  | .reset =>
    if phase = .ready ∨ phase = .final ∨ (phase = .error ∧ inited = true) then some .ready else none
  | .mac => if phase = .final then some .final else none
  | .algid => if phase = .noSession then none else some phase

/-! Closed forms. -/

/-- A byte string of any length read as a big-endian number (R136). -/
def bytesNumber (l : List Byte) : Nat := l.foldl (fun n b => n * 256 + b.toNat) 0

/-- A block read as a big-endian number, `B[0]` holding bits 127..120 (R12). -/
def blockNumber (x : Block) : Nat := bytesNumber x.toList

/-- R276: the first check that fires, `ok` when none does; FINALIZE's comparison of the tags is not among them. -/
def firstCheck (P : Platform) (i : Instr) (s : State) : Status :=
  match i with
  | .newsession =>
    if P.hpBlk ≠ 16 ∨ P.mpBlk ≠ 16 ∨ P.hpName.string ≠ P.mpName.string then .configurationError else .ok
  | .init k _ tagLenBits keyOff keyLen nonceOff nonceLen aadOff aadLen =>
    if k = false ∧ (keyOff ≠ 0 ∨ keyLen ≠ 0) then .illegalCommand
    else if s.phase = .noSession ∨ (k = false ∧ s.keyed = false) then .illegalState
    else if tagLenBits.toNat < 32 ∨ 256 < tagLenBits.toNat ∨ tagLenBits.toNat % 8 ≠ 0 then .invalidTagLength
    else if nonceLen.toNat < 1 ∨ 15 < nonceLen.toNat then .invalidNonce
    else if P.ibufSize.val < keyOff.toNat + keyLen.toNat ∨ P.ibufSize.val < nonceOff.toNat + nonceLen.toNat ∨
      P.ibufSize.val < aadOff.toNat + aadLen.toNat ∨ P.iaadMax.val < aadLen.toNat then .badDescriptor
    else if k = true ∧ P.keyLenOk keyLen.toNat = false then .keyRejected
    else .ok
  | .feedaad inOff len =>
    if s.phase ≠ .ready then .illegalState
    else if P.ibufSize.val < inOff.toNat + len.toNat then .badDescriptor
    else .ok
  | .feedmsg inOff len outOff outLen =>
    if s.phase ≠ .ready then .illegalState
    else if P.ibufSize.val < inOff.toNat + len.toNat ∨ P.obufSize.val < outLen.toNat then .badDescriptor
    else if outLen.toNat < outOff.toNat + updsize s len.toNat then .bufferTooSmall
    else .ok
  | .updsize _ => if s.phase ≠ .ready ∧ s.phase ≠ .final then .illegalState else .ok
  | .finsize _ => if s.phase ≠ .ready ∧ s.phase ≠ .final then .illegalState else .ok
  | .finalize outOff outLen =>
    if s.phase ≠ .ready then .illegalState
    else if P.obufSize.val < outLen.toNat then .badDescriptor
    else if 16 < s.tagLen.toNat then .unsupportedTagLength
    else if s.mode = .decrypt ∧ s.mainLane.mainPos.toNat < s.tagLen.toNat then .dataTooShort
    else if outLen.toNat < outOff.toNat + finsize s 0 then .bufferTooSmall
    else .ok
  | .reset =>
    if s.phase = .noSession ∨ s.phase = .uninit ∨ (s.phase = .error ∧ s.inited = false) then .illegalState
    else .ok
  | .mac =>
    if s.phase = .noSession then .illegalState else if s.phase ≠ .final then .macNotReady else .ok
  | .algid => if s.phase = .noSession then .illegalState else .ok

/-! R320: the requests of a command, counted. -/

/-- Key loads. -/
def keyLoads (r : List PermRequest) : Nat := r.countP fun | .setKey _ _ => true | _ => false

/-- Requests to `hashPerm`. -/
def hashRequests (r : List PermRequest) : Nat :=
  r.countP fun | .enc .hp _ => true | .dec .hp _ => true | _ => false

/-- Requests to `mainPerm`. -/
def mainRequests (r : List PermRequest) : Nat :=
  r.countP fun | .enc .mp _ => true | .dec .mp _ => true | _ => false

/-- R115: `L[n] = double^(n+1)(L_dollar)`. -/
def ladderEntry (lDollar : Block) (n : Nat) : Block := doubleIter (n + 1) lDollar

/-- R155, R203: the offset after `i` blocks from the offset `start`: `O_i = O_{i-1} ⊕ L[ntz(i)]`. -/
def offsetAfter (lDollar start : Block) : Nat → Block
  | 0 => start
  | i + 1 => xorBytes (offsetAfter lDollar start i) (ladderEntry lDollar (ntz (BitVec.ofNat 64 (i + 1))))

/-- Block `i` (from 0) of a byte string; bytes behind the string's end are 0. -/
def blockOf (bytes : List Byte) (i : Nat) : Block := Vector.ofFn fun j => bytes.getD (16 * i + j.val) 0

/-- The exclusive-or of `f 0 .. f (m - 1)`. -/
def xorUpTo (f : Nat → Block) : Nat → Block
  | 0 => zeroBytes 16
  | m + 1 => xorBytes (xorUpTo f m) (f m)

/-- A piece of at most 15 bytes with `0x80` and zeros behind it (R152, R194). -/
def padBlock (bytes : List Byte) : Block :=
  Vector.ofFn fun j => if j.val = bytes.length then 0x80 else bytes.getD j.val 0

/-- The bytes of a string behind its last full block, 0..15 of them. -/
def tailOf (bytes : List Byte) : List Byte := bytes.drop (16 * (bytes.length / 16))

/-- R155: the sum over the full blocks of the AAD, `E` being the forward permutation under the session's key. -/
def aadBlockSum (E : Block → Block) (lDollar : Block) (aad : List Byte) : Block :=
  xorUpTo (fun i => E (xorBytes (blockOf aad i) (offsetAfter lDollar (zeroBytes 16) (i + 1)))) (aad.length / 16)

/-- R155: the sum over the whole AAD. -/
def aadSum (E : Block → Block) (lStar lDollar : Block) (aad : List Byte) : Block :=
  if tailOf aad = [] then aadBlockSum E lDollar aad
  else xorBytes (aadBlockSum E lDollar aad)
    (E (xorBytes (padBlock (tailOf aad))
      (xorBytes (offsetAfter lDollar (zeroBytes 16) (aad.length / 16)) lStar)))

/-- R203: block `i` (from 0) of the message `x` under the payload permutation `A`: `C_i` of a plaintext when `A` is the
forward permutation, `P_i` of a ciphertext when it is the inverse. -/
def cryptBlock (A : Block → Block) (lDollar start : Block) (x : List Byte) (i : Nat) : Block :=
  let offset := offsetAfter lDollar start (i + 1)
  xorBytes (A (xorBytes (blockOf x i) offset)) offset

/-- The full blocks `a .. a + n - 1` of a message under `A`, one behind the other. -/
def cryptBlocks (A : Block → Block) (lDollar start : Block) (x : List Byte) (a n : Nat) : List Byte :=
  (List.range n).flatMap fun i => (cryptBlock A lDollar start x (a + i)).toList

/-- R203: the offset `Δ_*` at the raw tag of a message as long as `x`. -/
def lastOffset (lStar lDollar start : Block) (x : List Byte) : Block :=
  let last := offsetAfter lDollar start (x.length / 16)
  if tailOf x = [] then last else xorBytes last lStar

/-- R203: the checksum `Σ` of the plaintext. -/
def plainChecksum (p : List Byte) : Block :=
  let full := xorUpTo (blockOf p) (p.length / 16)
  if tailOf p = [] then full else xorBytes full (padBlock (tailOf p))

/-- R203: the last, partial piece of a message: `C_*` of a plaintext, `P_*` of a ciphertext. `E` is the forward
permutation in both directions (R193). -/
def cryptTail (E : Block → Block) (lStar lDollar start : Block) (x : List Byte) : List Byte :=
  (tailOf x).zipWith (· ^^^ ·) (E (lastOffset lStar lDollar start x)).toList

/-- R203: a whole message under `A`, as long as it was (R177): the ciphertext of a plaintext, or the plaintext of a
ciphertext. -/
def cryptText (A E : Block → Block) (lStar lDollar start : Block) (x : List Byte) : List Byte :=
  cryptBlocks A lDollar start x 0 (x.length / 16) ++ cryptTail E lStar lDollar start x

/-- R203: the raw tag of AAD and plaintext. -/
def rawTagOf (E : Block → Block) (lStar lDollar start : Block) (aad p : List Byte) : Block :=
  xorBytes (E (xorBytes (xorBytes (plainChecksum p) (lastOffset lStar lDollar start p)) lDollar))
    (aadSum E lStar lDollar aad)

/-- R203: the tag: the first `tagLen` bytes of the raw tag. -/
def tagOf (E : Block → Block) (lStar lDollar start : Block) (tagLen : Nat) (aad p : List Byte) : List Byte :=
  (rawTagOf E lStar lDollar start aad p).toList.take tagLen

/-- R131 to R135: the initial offset of a nonce under the key whose forward permutation is `E`, with no cache. -/
def initialOffset (P : Platform) (E : Block → Block) (tagLen : Nat) (nonce : List Byte) : Block :=
  let n := formatNonce P tagLen nonce
  shiftStretch (stretchOf (E (maskBottom n))) (nonceBottom n)

/-! What the lanes hold. -/

/-- The payload permutation of a mode under a key (R10). -/
def payloadPerm (P : Platform) (key : Option Key) : Mode → Block → Block
  | .encrypt => permEnc P key
  | .decrypt => permDec P key

/-- The hash lane once the AAD `aad` has been absorbed into it since the last reset (R35, R155). -/
structure HashLaneHolds (E : Block → Block) (lDollar : Block) (aad : List Byte) (h : HashLane) : Prop where
  pos : h.hashPos.toNat = aad.length % 16
  count : h.hashCount.toNat = aad.length / 16
  offset : h.offsetHash = offsetAfter lDollar (zeroBytes 16) (aad.length / 16)
  sum : h.sum = aadBlockSum E lDollar aad
  buffered : slice h.hashBuf 0 h.hashPos.toNat = tailOf aad

/-- R173: the blocks completed once `n` message bytes have been fed since the last reset. -/
def fedBlocks (mode : Mode) (tagLen n : Nat) : Nat :=
  match mode with
  | .encrypt => n / 16
  | .decrypt => (n - tagLen) / 16

/-- R33: the plaintext of block `i` of a message: the block fed when encrypting, the block emitted when decrypting. -/
def plainBlock (A : Block → Block) (lDollar start : Block) (mode : Mode) (msg : List Byte) : Nat → Block :=
  match mode with
  | .encrypt => blockOf msg
  | .decrypt => cryptBlock A lDollar start msg

/-- The crypt lane once the message bytes `msg` have been fed into it since the last reset (R36, R171, R173). -/
structure MainLaneHolds (A : Block → Block) (lDollar start : Block) (mode : Mode) (tagLen : Nat) (msg : List Byte)
    (m : MainLane) : Prop where
  pos : m.mainPos.toNat = msg.length - 16 * fedBlocks mode tagLen msg.length
  count : m.mainCount.toNat = fedBlocks mode tagLen msg.length
  offset : m.offsetMain = offsetAfter lDollar start (fedBlocks mode tagLen msg.length)
  checksum : m.checksum = xorUpTo (plainBlock A lDollar start mode msg) (fedBlocks mode tagLen msg.length)
  buffered : slice m.mainBuf 0 m.mainPos.toNat = msg.drop (16 * fedBlocks mode tagLen msg.length)

/-- The lanes of a session hold the AAD and the message fed so far. -/
structure SessionHolds (P : Platform) (aad msg : List Byte) (s : State) : Prop where
  hash : HashLaneHolds (permEnc P s.hpKey) s.lDollar aad s.hashLane
  main : MainLaneHolds (payloadPerm P s.mpKey s.mode) s.lDollar s.offsetMain0 s.mode s.tagLen.toNat msg s.mainLane

/-- The AAD and the message bytes fed since the last reset: what a reader of the run knows, no state of the engine. -/
structure Fed where
  aad : List Byte
  msg : List Byte
  deriving DecidableEq, Repr

/-- What has been fed once the command `i`, begun in `s`, has ended OK: INIT, RESET and FINALIZE begin a new message
behind the initial AAD (R224, R225, R199); FEEDAAD and FEEDMSG append (R150, R170). -/
def fedAfter (i : Instr) (s : State) (fed : Fed) : Fed :=
  match i with
  | .newsession => ⟨[], []⟩
  | .init _ _ _ _ _ _ _ aadOff aadLen => ⟨inputBytes s aadOff aadLen, []⟩
  | .feedaad inOff len => ⟨fed.aad ++ inputBytes s inOff len, fed.msg⟩
  | .feedmsg inOff len _ _ => ⟨fed.aad, fed.msg ++ inputBytes s inOff len⟩
  | .updsize _ => fed
  | .finsize _ => fed
  | .finalize _ _ => ⟨initAADBytes s, []⟩
  | .reset => ⟨initAADBytes s, []⟩
  | .mac => fed
  | .algid => fed

/-- What has been fed after the step from `s` to `t`: only a command that ends OK changes it. -/
def fedAfterStep (s t : State) (fed : Fed) : Fed :=
  match s.hostQueue with
  | [] => fed
  | .command words :: _ =>
    match decode words with
    | .instr i => if t.response.rstat = .ok then fedAfter i s fed else fed
    | .reject _ => fed
  | .writeIbuf _ _ :: _ => fed
  | .writeObuf _ _ :: _ => fed
  | .hardwareReset :: _ => fed
  | .resetDuring _ _ _ :: _ => fed

/-- The phases in which the lanes hold a message: `READY`, and `FINAL`, where it is empty (R41). -/
def InMessage (s : State) : Prop := s.phase = .ready ∨ s.phase = .final

/-! What FINALIZE computes from a state (R191 to R196). -/

/-- The bytes of the last, partial block: `mainPos` after step 1 (R191). -/
def partialLen (s : State) : Nat :=
  match s.mode with
  | .encrypt => s.mainLane.mainPos.toNat
  | .decrypt => s.mainLane.mainPos.toNat - s.tagLen.toNat

/-- R152: `sum` after `finalizeHash`. -/
def finalSum (P : Platform) (s : State) : Block :=
  if s.hashLane.hashPos = 0 then s.hashLane.sum
  else xorBytes s.hashLane.sum (permEnc P s.hpKey
    (xorBytes (padBlock (slice s.hashLane.hashBuf 0 s.hashLane.hashPos.toNat))
      (xorBytes s.hashLane.offsetHash s.lStar)))

/-- R193: the buffered bytes under the keystream block `hashPerm(offsetMain ⊕ L_star)`: ciphertext when encrypting,
plaintext when decrypting. -/
def partialOut (P : Platform) (s : State) : List Byte :=
  (slice s.mainLane.mainBuf 0 (partialLen s)).zipWith (· ^^^ ·)
    (permEnc P s.hpKey (xorBytes s.mainLane.offsetMain s.lStar)).toList

/-- R193: the plaintext of the partial block. -/
def partialPlain (P : Platform) (s : State) : List Byte :=
  match s.mode with
  | .encrypt => slice s.mainLane.mainBuf 0 (partialLen s)
  | .decrypt => partialOut P s

/-- R193, R195: the block whose permutation is the raw tag without `sum`: `checksum ⊕ offsetMain ⊕ L_dollar`, with the
padded partial plaintext and `L_star` when there is a partial block. -/
def tagInput (P : Platform) (s : State) : Block :=
  if partialLen s = 0 then xorBytes (xorBytes s.mainLane.checksum s.mainLane.offsetMain) s.lDollar
  else xorBytes
    (xorBytes (xorBytes s.mainLane.checksum (padBlock (partialPlain P s))) (xorBytes s.mainLane.offsetMain s.lStar))
    s.lDollar

/-- R195, R196: the tag of the message fed so far. -/
def expectedTag (P : Platform) (s : State) : List Byte :=
  (xorBytes (permEnc P s.hpKey (tagInput P s)) (finalSum P s)).toList.take s.tagLen.toNat

/-- R191: the last `tagLen` bytes fed, the candidate tag. -/
def candidateTag (s : State) : List Byte :=
  slice s.mainLane.mainBuf (s.mainLane.mainPos.toNat - s.tagLen.toNat) s.tagLen.toNat

/-! Commands on any platform, and runs of them. -/

/-- The bits of a word sequence, the first word lowest (the numbering of spec/opcode_table.json). -/
def packWords (words : List Word) : Nat := words.foldr (fun w n => w.toNat + 2 ^ 32 * n) 0

/-- The meaning of a command on the platform `P`; `exec` is the one on `Config.platform`. -/
def execOn (P : Platform) (i : Instr) (s : State) : Result :=
  match i with
  | .newsession => newSessionOn P s
  | .init k e tagLenBits keyOff keyLen nonceOff nonceLen aadOff aadLen =>
    initOn P k e tagLenBits keyOff keyLen nonceOff nonceLen aadOff aadLen s
  | .feedaad inOff len => feedAadOn P inOff len s
  | .feedmsg inOff len outOff outLen => feedMsgOn P inOff len outOff outLen s
  | .updsize len => execUpdsize len s
  | .finsize len => execFinsize len s
  | .finalize outOff outLen => finalizeOn P outOff outLen s
  | .reset => resetOn P s
  | .mac => execMac s
  | .algid => algIdOn P s

/-- Commands one after the other, each with a response. -/
def runOn (P : Platform) : List Instr → State → Option State
  | [], s => some s
  | i :: rest, s =>
    match execOn P i s with
    | .next t => runOn P rest t
    | .fault _ => none
    | .refused _ => none

/-- The commands that may replace the session's key, nonce or parameters (R44, R117). -/
def changesSession : Instr → Bool
  | .newsession => true
  | .init _ _ _ _ _ _ _ _ _ => true
  | _ => false

/-- R60: the length of a command's window in OBUF. -/
def outputLength : Instr → Nat
  | .feedmsg _ _ _ outLen => outLen.toNat
  | .finalize _ outLen => outLen.toNat
  | _ => 0

/-- R320: key loads, `HashPerm` requests and `MainPerm` requests of a command that ends OK. -/
def requestTable (P : Platform) (i : Instr) (s : State) : Nat × Nat × Nat :=
  match i with
  | .init k _ tagLenBits _ _ nonceOff nonceLen _ aadLen =>
    let formatted := maskBottom (formatNonce P (tagLenBits.toNat / 8) (inputBytes s nonceOff nonceLen))
    (if k then 2 else 0,
      (if k then 1 else 0)
        + (if k = false ∧ s.ktopValid = true ∧ s.ktopInput = formatted then 0 else 1)
        + aadLen.toNat / 16,
      0)
  | .feedaad _ len => (0, (s.hashLane.hashPos.toNat + len.toNat) / 16, 0)
  | .feedmsg _ len _ _ => (0, 0, updsize s len.toNat / 16)
  | .finalize _ _ =>
    (0, (if 0 < s.hashLane.hashPos.toNat then 1 else 0) + (if 0 < partialLen s then 1 else 0) + 1
      + s.initAADLen.toNat / 16, 0)
  | .reset => (0, s.initAADLen.toNat / 16, 0)
  | .newsession => (0, 0, 0)
  | .updsize _ => (0, 0, 0)
  | .finsize _ => (0, 0, 0)
  | .mac => (0, 0, 0)
  | .algid => (0, 0, 0)

end Sys2Proof.Safety
end

