-- ==== Sys2Proof/Certificates/Slice0/Obligations.lean ====
section
/-! DEFINITION. The statements of the OCB engine, from the numbered rules of spec/. A statement about a command is made
for every platform `P` of 00_scope.md R7 and, with `P = Config.platform`, about `exec` itself. -/

section

open Sys2Proof Sys2Proof.Machine Sys2Proof.Safety

/-! Encoding (spec/30_encoding.md). -/

/-- R80, R82, R85: the decoder reads back every well-formed command the encoder writes, every operand at every value. -/
def Obligations.EncodeThenDecode : Prop :=
  ∀ i : Instr, i.wellFormed = true → decode (encode i) = .instr i

/-- R85, R87: every word sequence the decoder accepts is the encoding of the command it reads, and that command is
well formed: no two sequences stand for one command. -/
def Obligations.DecodeThenEncode : Prop :=
  ∀ (words : List Word) (i : Instr), decode words = .instr i → i.wellFormed = true ∧ encode i = words

/-- R80, R85: the same through the numbering of spec/opcode_table.json: the bits of a command's words decode to the
command. That the header is the lowest word of the number and the operand words follow it is the model's reading of the
table (log entry 16); no rule says it. -/
def Obligations.TableBitsDecode : Prop :=
  ∀ i : Instr, i.wellFormed = true →
    decodeTableWord (32 * (encode i).length) (packWords (encode i)) = some i

/-- R84, R85: no header word selects two rows of the opcode map. -/
def Obligations.OpcodeRowsDisjoint : Prop :=
  ∀ (header : Word) (r r' : OpcodeRow), r ∈ opcodeTable → r' ∈ opcodeTable →
    header &&& r.mask = r.matchBits → header &&& r'.mask = r'.matchBits → r = r'

/-- R86: a header with `OPC = 0x00` or `0x0B .. 0xFF` is refused with IllegalCommand, whatever words follow it: the
response registers and the request trace apart, no state changes. -/
def Obligations.ReservedOpcodeIsIllegalCommand : Prop :=
  ∀ (header : Word) (operands : List Word) (s : State),
    ((opcField header).toNat = 0 ∨ 11 ≤ (opcField header).toNat) →
    runCommand (header :: operands) s =
      .next { s with response := bareResponse .illegalCommand, requests := [] }

/-- R87: non-zero `RSV` bits, or non-zero `K`, `E` or `IMM` outside INIT, are IllegalCommand and consume no operand
word; so is INIT with `K = 0` and a non-zero key descriptor; and operand words have no reserved bits. -/
def Obligations.MustBeZeroBits : Prop :=
  (∀ (header : Word) (operands : List Word) (s : State),
    (header.extractLsb' 18 6 ≠ 0 ∨ (opcField header ≠ 2 ∧ header.extractLsb' 0 18 ≠ 0)) →
    operandCount header = 0 ∧
    runCommand (header :: operands) s =
      .next { s with response := bareResponse .illegalCommand, requests := [] }) ∧
  (∀ (header keyOff keyLen nonceOff nonceLen aadOff aadLen : Word) (s : State),
    opcField header = 2 → kField header = false → (keyOff ≠ 0 ∨ keyLen ≠ 0) →
    runCommand [header, keyOff, keyLen, nonceOff, nonceLen, aadOff, aadLen] s =
      .next { s with response := bareResponse .illegalCommand, requests := [] }) ∧
  (∀ (r : OpcodeRow) (header : Word) (operands : List Word),
    r ∈ opcodeTable → header &&& r.mask = r.matchBits → operands.length = r.operands →
    (r.op = .init → kField header = true) → ∃ i, decode (header :: operands) = .instr i)

/-- R89: the examples of the assembler syntax and their words. -/
def Obligations.ExampleWordsDecode : Prop :=
  decode [0x01000000] = .instr .newsession ∧
  decode [0x02030080, 0, 0x10, 0x10, 0x0C, 0, 0] = .instr (.init true true 128 0 16 16 12 0 0) ∧
  decode [0x02000060, 0, 0, 0x10, 0x0C, 0x1C, 4] = .instr (.init false false 96 0 0 16 12 28 4) ∧
  decode [0x03000000, 0x1C, 8] = .instr (.feedaad 28 8) ∧
  decode [0x04000000, 0x24, 8, 0, 0x40] = .instr (.feedmsg 36 8 0 64) ∧
  decode [0x05000000, 8] = .instr (.updsize 8) ∧
  decode [0x06000000, 0] = .instr (.finsize 0) ∧
  decode [0x07000000, 0, 0x40] = .instr (.finalize 0 64) ∧
  decode [0x08000000] = .instr .reset ∧
  decode [0x09000000] = .instr .mac ∧
  decode [0x0A000000] = .instr .algid

/-! One step (spec/00_scope.md R9, 20_memory.md R71, 70_reset_and_hazards.md R300, R323). -/

/-- R9, R71: when the host's next event is a command whose words decode to `i`, the step is `exec i` with that event
taken from the queue (the model's own, log entry 1); and `withFetchWord` presents exactly the table's command. -/
def Obligations.StepRunsTheDecodedCommand : Prop :=
  (∀ (s : State) (words : List Word) (rest : List HostEvent) (i : Instr),
    s.hostQueue = .command words :: rest → decode words = .instr i → step s = exec i { s with hostQueue := rest }) ∧
  (∀ (s : State) (nbits w : Nat) (i : Instr),
    decodeTableWord nbits w = some i → step (s.withFetchWord nbits w) = exec i s)

/-- R60, R300, R323: without an event the engine is idle and keeps its state; a host write stores its byte in the
space it names and changes nothing else, or faults outside the space (the model's choice, log entry 4); hardware reset
puts every register at its reset value and leaves both buffer spaces (the queue and the draw counter are the model's own
fields, log entry 20). -/
def Obligations.StepTakesTheHostsEvents : Prop :=
  (∀ s : State, s.hostQueue = [] → step s = .next s) ∧
  (∀ (s : State) (rest : List HostEvent) (a : Word) (b : Byte), s.hostQueue = .writeIbuf a b :: rest →
    step s = if a.toNat < Config.platform.ibufSize.val then
      .next { s with hostQueue := rest, ibuf := s.ibuf.set a.toNat b } else .fault .noSuchAddress) ∧
  (∀ (s : State) (rest : List HostEvent) (a : Word) (b : Byte), s.hostQueue = .writeObuf a b :: rest →
    step s = if a.toNat < Config.platform.obufSize.val then
      .next { s with hostQueue := rest, obuf := s.obuf.set a.toNat b } else .fault .noSuchAddress) ∧
  (∀ (s : State) (rest : List HostEvent), s.hostQueue = .hardwareReset :: rest →
    step s = .next { State.reset with ibuf := s.ibuf, obuf := s.obuf, hostQueue := rest, draws := s.draws })

/-- The model's choice, log entry 3: a transaction without a header, or whose header selects a row but whose operand
words are not as many as R82 says, has no meaning and stops by that name. -/
def Obligations.WrongLengthTransactionStops : Prop :=
  (∀ (s : State) (rest : List HostEvent), s.hostQueue = .command [] :: rest → step s = .refused .commandLength) ∧
  (∀ (s : State) (header : Word) (operands : List Word) (rest : List HostEvent) (r : OpcodeRow),
    s.hostQueue = .command (header :: operands) :: rest → r ∈ opcodeTable → header &&& r.mask = r.matchBits →
    operands.length ≠ r.operands → step s = .refused .commandLength)

/-- R48: the value of every register after hardware reset. -/
def Obligations.ResetStateValues : Prop :=
  let s := State.reset
  s.phase.code = 0 ∧ s.inited = false ∧ s.keyed = false ∧ s.ktopValid = false ∧ s.mode.code = 0 ∧
  s.tagLen = 0 ∧ s.ladderLen = 0 ∧ s.hashLane.hashPos = 0 ∧ s.mainLane.mainPos = 0 ∧ s.macLen = 0 ∧
  s.initAADLen = 0 ∧ s.hashLane.hashCount = 0 ∧ s.mainLane.mainCount = 0 ∧
  (∀ i (h : i < 16), s.lStar[i] = 0 ∧ s.lDollar[i] = 0 ∧ s.ktopInput[i] = 0 ∧ s.offsetMain0[i] = 0 ∧
    s.mainLane.offsetMain[i] = 0 ∧ s.hashLane.offsetHash[i] = 0 ∧ s.mainLane.checksum[i] = 0 ∧
    s.hashLane.sum[i] = 0 ∧ s.hashLane.hashBuf[i] = 0) ∧
  (∀ i (h : i < 24), s.stretch[i] = 0) ∧ (∀ i (h : i < 48), s.mainLane.mainBuf[i] = 0) ∧
  (∀ i (h : i < 32), s.macBlock[i] = 0 ∧ s.response.rdata[i] = 0) ∧
  (∀ b ∈ s.initAAD, b = 0) ∧ (∀ b ∈ s.ladder, b = zeroBytes 16) ∧
  s.response.rstat.code = 0 ∧ s.response.rval = 0 ∧ s.response.rlen = 0 ∧ s.hpKey = none ∧ s.mpKey = none

/-! Every command (spec/60_exceptions.md, 45_session_control.md R220). -/

/-- R278: every command, in every state, ends with a response; only a feed that would carry a block counter past
`2^64 - 1` stops (U5, log entry 5). -/
def Obligations.EveryCommandResponds : Prop :=
  ∀ (i : Instr) (s : State),
    (∃ t, exec i s = .next t) ∨
    (exec i s = .fault .counterWrap ∧
      ((∃ inOff len, i = .feedaad inOff len ∧
          2 ^ 64 ≤ s.hashLane.hashCount.toNat + (s.hashLane.hashPos.toNat + len.toNat) / 16) ∨
        (∃ inOff len outOff outLen, i = .feedmsg inOff len outOff outLen ∧
          2 ^ 64 ≤ s.mainLane.mainCount.toNat + updsize s len.toNat / 16)))

/-- R88: the shape of the response: `RLEN ≤ 32` and zeros behind it, everything but `RSTAT` zero when `RSTAT ≠ 0`,
`RVAL` zero outside FEEDMSG, FINALIZE, UPDSIZE and FINSIZE, `RLEN` zero outside MAC and ALGID. -/
def Obligations.ResponsesHaveTheirShape : Prop :=
  ∀ (i : Instr) (s t : State), SessionOk Config.platform s → exec i s = .next t →
    ResponseOk t.response ∧
    match i with
    | .feedmsg _ _ _ _ => t.response.rlen = 0
    | .updsize _ => t.response.rlen = 0
    | .finsize _ => t.response.rlen = 0
    | .finalize _ _ => t.response.rlen = 0
    | .mac => t.response.rval = 0
    | .algid => t.response.rval = 0
    | _ => t.response.rval = 0 ∧ t.response.rlen = 0

/-- R273: a refused command changes no register but the response registers, writes no OBUF byte, makes no request, and
reads no IBUF byte: whatever IBUF holds, it ends the same way. -/
def Obligations.RefusalsChangeNothing : Prop :=
  ∀ (i : Instr) (s t : State), exec i s = .next t → isRefusal t.response.rstat = true →
    t = { s with response := bareResponse t.response.rstat, requests := [] } ∧
    ∀ m : Memory, exec i { s with ibuf := m } = .next { t with ibuf := m }

/-- R274: error entry for the codes 2..6: the response, `macBlock` zeroed, the lane set unspecified, phase `ERROR`, an
INIT's `inited <- 0` and with `K = 1` `keyed <- 0`; every other register keeps its value, and no error but
AuthenticationFailed makes a request or writes OBUF. That the unspecified lane set is the free draw of that number and
that `draws` goes up by one is the model's choice (U1, log entry 8). -/
def Obligations.ErrorsEnterErrorPhase : Prop :=
  ∀ (i : Instr) (s t : State), exec i s = .next t → isSessionError t.response.rstat = true →
    t = { s with
      response := bareResponse t.response.rstat
      macBlock := zeroBytes 32, macLen := 0
      hashLane := HashLane.free s.draws, mainLane := MainLane.free s.draws, draws := s.draws + 1
      phase := .error
      inited := match i with
        | .init _ _ _ _ _ _ _ _ _ => false
        | _ => s.inited
      keyed := match i with
        | .init k _ _ _ _ _ _ _ _ => if k then false else s.keyed
        | _ => s.keyed
      requests := t.requests, obuf := t.obuf } ∧
    (t.response.rstat ≠ .authenticationFailed → t.requests = [] ∧ t.obuf = s.obuf)

/-- R220: the phase table: the phase after a command that ends OK, the cells that refuse (IllegalState, and MAC's
MacNotReady) with nothing changed, `ERROR` after an error of codes 2..6 and `NOSESSION` after ConfigurationError. -/
def Obligations.PhaseTable : Prop :=
  ∀ (i : Instr) (s t : State), i.wellFormed = true → exec i s = .next t →
    (isSessionError t.response.rstat = true → t.phase = .error) ∧
    (t.response.rstat = .configurationError → t.phase = .noSession) ∧
    match phaseAfter i s.phase s.inited s.keyed with
    | some p => t.response.rstat ≠ .illegalState ∧ t.response.rstat ≠ .macNotReady ∧
        (t.response.rstat = .ok → t.phase = p)
    | none => t = { s with
        response := bareResponse (if i = .mac ∧ s.phase ≠ .noSession then .macNotReady else .illegalState)
        requests := [] }

/-- R276: IllegalCommand comes before every other check; the status reported is the first check that fires, in the fixed
order; AuthenticationFailed comes after all of FINALIZE's checks, in Decrypt mode only. That a feed whose counter would
wrap stops behind all its checks is the model's choice (U5, log entry 5). -/
def Obligations.ChecksFireInOrder : Prop :=
  (∀ (words : List Word) (why : Reject) (s : State), decode words = .reject why → why ≠ .commandLength →
    ∃ t, runCommand words s = .next t ∧ t.response.rstat = .illegalCommand) ∧
  ∀ (i : Instr) (s : State),
    match exec i s with
    | .next t => t.response.rstat = firstCheck Config.platform i s ∨
        (firstCheck Config.platform i s = .ok ∧ t.response.rstat = .authenticationFailed ∧ s.mode = .decrypt ∧
          ∃ outOff outLen, i = .finalize outOff outLen)
    | .fault _ => firstCheck Config.platform i s = .ok
    | .refused _ => False

/-- R60, R66, R176: the engine never writes IBUF and never reads OBUF (a command writes the same bytes whatever OBUF
held, and everything else of its outcome is the same); its bytes start at `OUTOFF`, stay inside the window
`OBUF[0 .. OUTLEN)`, and every other OBUF byte reads as before. That an error's free lanes and window are the same whatever
OBUF held is the model's choice (log entries 8, 9). -/
def Obligations.OutputStaysInItsWindow : Prop :=
  ∀ (i : Instr) (s t : State), Inv Config.platform s → exec i s = .next t →
    t.ibuf = s.ibuf ∧
    (∃ out : List Byte, t.obuf = s.obuf.write (outputOffset i) out ∧
      (out = [] ∨ (outputOffset i + out.length ≤ outputLength i ∧ outputLength i ≤ Config.platform.obufSize.val)) ∧
      ∀ m : Memory, exec i { s with obuf := m } = .next { t with obuf := m.write (outputOffset i) out }) ∧
    ∀ a : Nat, (a < outputOffset i ∨ outputLength i ≤ a) → readObuf t a = readObuf s a

/-- R21, R22, R28 to R30, R38, R44: `mode`, `tagLen`, the Ktop cache, `offsetMain_0` and the retained initial AAD are
written only by an INIT that ends OK (or zeroized by NEWSESSION). -/
def Obligations.SessionParametersAreFixedAtInit : Prop :=
  ∀ (i : Instr) (s t : State), exec i s = .next t →
    (t.mode = s.mode ∧ t.tagLen = s.tagLen ∧ t.ktopValid = s.ktopValid ∧ t.ktopInput = s.ktopInput ∧
      t.stretch = s.stretch ∧ t.offsetMain0 = s.offsetMain0 ∧ t.initAAD = s.initAAD ∧
      t.initAADLen = s.initAADLen) ∨
    i = .newsession ∨ (changesSession i = true ∧ t.response.rstat = .ok)

/-- R27, R40, R117: the keys, `L_star` and `L_dollar` are written only by an INIT with `K = 1` that ends OK (or forgotten
by NEWSESSION); every other command keeps them, and keeps every ladder entry that exists. -/
def Obligations.KeyStateIsFixedAtInit : Prop :=
  ∀ (i : Instr) (s t : State), exec i s = .next t →
    (t.hpKey = s.hpKey ∧ t.mpKey = s.mpKey ∧ t.lStar = s.lStar ∧ t.lDollar = s.lDollar ∧ s.ladder <+: t.ladder) ∨
    i = .newsession ∨
    ((∃ e tagLenBits keyOff keyLen nonceOff nonceLen aadOff aadLen,
      i = .init true e tagLenBits keyOff keyLen nonceOff nonceLen aadOff aadLen) ∧ t.response.rstat = .ok)

/-- R324: `SETKEY` only in an INIT with `K = 1`, `ENC` on `HP` in every mode and never `DEC`, `ENC` on `MP` only in Encrypt
mode and `DEC` on `MP` only in Decrypt mode; no request reaches an unkeyed instance. -/
def Obligations.PortRequestsRespectTheMode : Prop :=
  ∀ (P : Platform) (i : Instr) (s t : State), SessionOk P s → execOn P i s = .next t →
    (∀ r ∈ t.requests,
      match r with
      | .setKey _ _ => ∃ e tagLenBits keyOff keyLen nonceOff nonceLen aadOff aadLen,
          i = .init true e tagLenBits keyOff keyLen nonceOff nonceLen aadOff aadLen
      | .enc .hp _ => True
      | .dec .hp _ => False
      | .enc .mp _ => t.mode = .encrypt
      | .dec .mp _ => t.mode = .decrypt) ∧
    (t.requests ≠ [] → t.hpKey ≠ none ∧ t.mpKey = t.hpKey)

/-- R320: how many requests each command that ends OK makes on the permutation ports. -/
def Obligations.RequestCounts : Prop :=
  ∀ (P : Platform) (i : Instr) (s t : State), SessionOk P s → execOn P i s = .next t → t.response.rstat = .ok →
    (keyLoads t.requests, hashRequests t.requests, mainRequests t.requests) = requestTable P i s

/-! GF(2^128), `ntz` and the ladder (spec/40_gf_double_ladder.md). -/

/-- R110: `double` on the big-endian number: shift left by one, and when bit 127 was set drop it and xor `0x87`. -/
def Obligations.DoubleMultipliesByX : Prop :=
  ∀ x : Block, blockNumber (double x) =
    if 2 ^ 127 ≤ blockNumber x then (2 * blockNumber x) % 2 ^ 128 ^^^ 0x87 else 2 * blockNumber x

/-- R112: `ntz(n)` is the number of trailing zero bits, 64 for 0. -/
def Obligations.NtzCountsTrailingZeros : Prop :=
  ntz 0 = 64 ∧ ∀ n : BitVec 64, n ≠ 0 → ntz n ≤ 63 ∧ 2 ^ ntz n ∣ n.toNat ∧ ¬ 2 ^ (ntz n + 1) ∣ n.toNat

/-- R114 to R116: `Lsub(n)` answers `double^(n+1)(L_dollar)` whatever the earlier calls were, changes nothing but the
ladder, keeps every entry that exists and appends no more than it needs. -/
def Obligations.LsubIsTheClosedForm : Prop :=
  ∀ (s : State) (n : Nat), LadderOk s.lDollar s.ladder →
    (lsub n s).1 = doubleIter (n + 1) s.lDollar ∧
    (lsub n s).2 = { s with ladder := (lsub n s).2.ladder } ∧
    s.ladder <+: (lsub n s).2.ladder ∧
    (lsub n s).2.ladder.length = max s.ladder.length (n + 1) ∧
    LadderOk s.lDollar (lsub n s).2.ladder

/-! The nonce expander (spec/41_nonce_expander.md). -/

/-- R131, R132: the bytes of the formatted nonce, `bottom`, and the masked block of the cache test and of Ktop. -/
def Obligations.FormattedNonceBytes : Prop :=
  ∀ (P : Platform) (tagLen : Nat) (nonce : List Byte), 1 ≤ nonce.length → nonce.length ≤ 15 →
    let n := formatNonce P tagLen nonce
    (n[0] = if nonce.length = 15 then P.tagField tagLen ||| 0x01 else P.tagField tagLen) ∧
    (∀ i (h : i < 16), 1 ≤ i → i < 15 - nonce.length → n[i] = 0) ∧
    (∀ i (h : i < 16), 1 ≤ i → i = 15 - nonce.length → n[i] = 0x01) ∧
    (∀ i (h : i < 16), 16 - nonce.length ≤ i → n[i] = nonce.getD (i - (16 - nonce.length)) 0) ∧
    nonceBottom n = n[15].toNat % 64 ∧
    (∀ i (h : i < 15), (maskBottom n)[i] = n[i]) ∧
    (maskBottom n)[15].toNat = n[15].toNat / 64 * 64

/-- R135, R136: the initial offset is the stretch, read as a 192-bit big-endian number, shifted so that its bits
`bottom .. bottom + 127` remain. -/
def Obligations.InitialOffsetIsTheShiftedStretch : Prop :=
  ∀ (stretch : Bytes 24) (bottom : Nat), bottom ≤ 63 →
    blockNumber (shiftStretch stretch bottom) = bytesNumber stretch.toList / 2 ^ (64 - bottom) % 2 ^ 128

/-- R133, R134, R137: hit or miss, the initial offset is a function of the key, the nonce and the tag length; a miss makes
exactly one `HashPerm` request, of the masked nonce, and refills the cache; a hit makes none and leaves it. -/
def Obligations.KtopCacheIsInvisible : Prop :=
  ∀ (P : Platform) (nonce : List Byte) (s : State), (s.ktopValid = true → KtopOk P s) →
    let n := maskBottom (formatNonce P s.tagLen.toNat nonce)
    let t := nonceExpander P nonce s
    t.offsetMain0 = initialOffset P (permEnc P s.hpKey) s.tagLen.toNat nonce ∧
    t.ktopValid = true ∧ t.ktopInput = n ∧ t.stretch = stretchOf (permEnc P s.hpKey n) ∧
    t.requests = s.requests ++ (if s.ktopValid = true ∧ s.ktopInput = n then [] else [.enc .hp n]) ∧
    t = { s with
      offsetMain0 := t.offsetMain0, stretch := t.stretch, ktopInput := t.ktopInput, ktopValid := t.ktopValid
      requests := t.requests }

/-! The session (spec/45_session_control.md). -/

/-- R221, R261: NEWSESSION zeroizes every register, forgets the keys, and opens a session when both ports have block size
16 and the same name; otherwise it ends with ConfigurationError in `NOSESSION`. The buffer spaces are unchanged. That
it keeps the host's queue and the draw counter, the model's own fields, is the model's choice (log entries 1, 8). -/
def Obligations.NewsessionZeroizes : Prop :=
  ∀ (P : Platform) (s : State),
    newSessionOn P s = .next
      { State.reset with
        ibuf := s.ibuf, obuf := s.obuf, hostQueue := s.hostQueue, draws := s.draws
        phase := if P.hpBlk = 16 ∧ P.mpBlk = 16 ∧ P.hpName.string = P.mpName.string then .uninit else .noSession
        response := if P.hpBlk = 16 ∧ P.mpBlk = 16 ∧ P.hpName.string = P.mpName.string then okResponse 0 []
          else bareResponse .configurationError } ∧
    (P = Config.platform → exec .newsession s = newSessionOn P s)

/-- R222, R223, R113, R130 to R138, R225: INIT, when all its checks pass, completes: the mode and tag length, with
`K = 1` the key in both instances and `L_star`, `L_dollar` made from it, the initial offset and the Ktop cache, the
retained AAD, the lanes holding the initial AAD and an empty message, no tag, phase `READY`, response OK; with `K = 0`
the key state stays. -/
def Obligations.InitStartsTheSession : Prop :=
  ∀ (P : Platform) (k e : Bool) (tagLenBits : BitVec 16)
    (keyOff keyLen nonceOff nonceLen aadOff aadLen : Word) (s : State),
    SessionOk P s → s.phase ≠ .noSession →
    (k = false → s.keyed = true ∧ keyOff = 0 ∧ keyLen = 0) →
    (k = true → P.keyLenOk keyLen.toNat = true) →
    32 ≤ tagLenBits.toNat → tagLenBits.toNat ≤ 256 → tagLenBits.toNat % 8 = 0 →
    1 ≤ nonceLen.toNat → nonceLen.toNat ≤ 15 →
    keyOff.toNat + keyLen.toNat ≤ P.ibufSize.val → nonceOff.toNat + nonceLen.toNat ≤ P.ibufSize.val →
    aadOff.toNat + aadLen.toNat ≤ P.ibufSize.val → aadLen.toNat ≤ P.iaadMax.val →
    ∃ (t : State) (key : Key),
      initOn P k e tagLenBits keyOff keyLen nonceOff nonceLen aadOff aadLen s = .next t ∧
      (P = Config.platform →
        exec (.init k e tagLenBits keyOff keyLen nonceOff nonceLen aadOff aadLen) s = .next t) ∧
      (k = true → key = inputBytes s keyOff keyLen) ∧
      (k = false → s.hpKey = some key ∧ t.lStar = s.lStar ∧ t.lDollar = s.lDollar ∧ s.ladder <+: t.ladder) ∧
      t.hpKey = some key ∧ t.mpKey = some key ∧
      t.lStar = P.perm key (zeroBytes 16) ∧ t.lDollar = double t.lStar ∧
      t.mode = (if e then .encrypt else .decrypt) ∧ t.tagLen.toNat = tagLenBits.toNat / 8 ∧
      t.ktopValid = true ∧
      t.ktopInput = maskBottom (formatNonce P (tagLenBits.toNat / 8) (inputBytes s nonceOff nonceLen)) ∧
      t.stretch = stretchOf (P.perm key t.ktopInput) ∧
      t.offsetMain0 = initialOffset P (P.perm key) (tagLenBits.toNat / 8) (inputBytes s nonceOff nonceLen) ∧
      t.initAADLen = aadLen ∧ initAADBytes t = inputBytes s aadOff aadLen ∧
      SessionHolds P (inputBytes s aadOff aadLen) [] t ∧
      t.mainLane = { MainLane.zero with offsetMain := t.offsetMain0 } ∧
      t.macBlock = zeroBytes 32 ∧ t.macLen = 0 ∧ t.inited = true ∧ t.keyed = true ∧ t.phase = .ready ∧
      t.response = okResponse 0 [] ∧
      t.ibuf = s.ibuf ∧ t.obuf = s.obuf ∧ t.hostQueue = s.hostQueue ∧ t.draws = s.draws

/-- R224: after INIT the hash lane is as INIT with `AADLEN = 0` followed by FEEDAAD of the same descriptor leaves it. -/
def Obligations.InitialAadIsFedAsByFeedaad : Prop :=
  ∀ (P : Platform) (k e : Bool) (tagLenBits : BitVec 16)
    (keyOff keyLen nonceOff nonceLen aadOff aadLen : Word) (s t u v : State), SessionOk P s →
    initOn P k e tagLenBits keyOff keyLen nonceOff nonceLen aadOff aadLen s = .next t → t.response.rstat = .ok →
    initOn P k e tagLenBits keyOff keyLen nonceOff nonceLen 0 0 s = .next u →
    feedAadOn P aadOff aadLen u = .next v →
    v.response.rstat = .ok ∧ v.hashLane = t.hashLane ∧ v.mainLane = t.mainLane ∧ v.phase = t.phase

/-- R225, R226: RESET in `READY`, `FINAL`, or `ERROR` with `inited = 1` clears the lanes and the tag, restores `offsetMain`,
replays the initial AAD and leaves everything else, the phase apart, as it was. -/
def Obligations.ResetRebuildsTheLanes : Prop :=
  ∀ s : State, LadderOk s.lDollar s.ladder →
    (s.phase = .ready ∨ s.phase = .final ∨ (s.phase = .error ∧ s.inited = true)) →
    ∃ t, exec .reset s = .next t ∧
      t = { s with
        phase := .ready, response := okResponse 0 []
        mainLane := { MainLane.zero with offsetMain := s.offsetMain0 }
        macBlock := zeroBytes 32, macLen := 0
        hashLane := t.hashLane, ladder := t.ladder, requests := t.requests } ∧
      HashLaneHolds (permEnc Config.platform s.hpKey) s.lDollar (initAADBytes s) t.hashLane ∧
      s.ladder <+: t.ladder

/-- R230, R275: whatever commands were run since an INIT that ended OK (no INIT, no NEWSESSION), RESET is accepted after
them and leaves every lane register as that INIT left it. -/
def Obligations.ResetRestoresInitsLanes : Prop :=
  ∀ (P : Platform) (k e : Bool) (tagLenBits : BitVec 16)
    (keyOff keyLen nonceOff nonceLen aadOff aadLen : Word) (s t u v : State) (commands : List Instr),
    SessionOk P s →
    initOn P k e tagLenBits keyOff keyLen nonceOff nonceLen aadOff aadLen s = .next t → t.response.rstat = .ok →
    (∀ c ∈ commands, changesSession c = false) → runOn P commands t = some u → resetOn P u = .next v →
    v.response.rstat = .ok ∧ v.hashLane = t.hashLane ∧ v.mainLane = t.mainLane ∧ v.phase = t.phase ∧
    v.mode = t.mode ∧ v.tagLen = t.tagLen ∧ v.macBlock = t.macBlock ∧ v.macLen = t.macLen

/-- R227: ALGID answers the permutation's name with "/OCB" behind it and changes the response only; without a session it
is IllegalState. -/
def Obligations.AlgidAnswersTheName : Prop :=
  (∀ s : State, s.phase = .noSession →
    exec .algid s = .next { s with response := bareResponse .illegalState, requests := [] }) ∧
  ∀ s : State, s.phase ≠ .noSession →
    ∃ t, exec .algid s = .next t ∧ t = { s with response := t.response, requests := [] } ∧
      t.response.rstat = .ok ∧ t.response.rval = 0 ∧
      t.response.rlen.toNat = Config.platform.hpName.string.length + 4 ∧
      ∀ i (h : i < 32), t.response.rdata[i] =
        (Config.platform.hpName.string ++ [0x2F, 0x4F, 0x43, 0x42]).getD i 0

/-! The hash lane (spec/42_hash_lane.md). -/

/-- R150, R153, R154: FEEDAAD appends its bytes to the AAD the hash lane holds, and changes the hash lane, the ladder and
the response only. -/
def Obligations.FeedaadAppendsToTheAad : Prop :=
  ∀ (P : Platform) (inOff len : Word) (s : State), SessionOk P s → s.phase = .ready →
    inOff.toNat + len.toNat ≤ P.ibufSize.val →
    s.hashLane.hashCount.toNat + (s.hashLane.hashPos.toNat + len.toNat) / 16 < 2 ^ 64 →
    ∃ t, feedAadOn P inOff len s = .next t ∧
      (P = Config.platform → exec (.feedaad inOff len) s = .next t) ∧
      t = { s with
        response := okResponse 0 [], hashLane := t.hashLane, ladder := t.ladder, requests := t.requests } ∧
      t.hashLane.hashPos.toNat = (s.hashLane.hashPos.toNat + len.toNat) % 16 ∧
      t.hashLane.hashCount.toNat =
        s.hashLane.hashCount.toNat + (s.hashLane.hashPos.toNat + len.toNat) / 16 ∧
      s.ladder <+: t.ladder ∧
      ∀ aad, HashLaneHolds (permEnc P s.hpKey) s.lDollar aad s.hashLane →
        HashLaneHolds (permEnc P s.hpKey) s.lDollar (aad ++ inputBytes s inOff len) t.hashLane

/-- R154: two FEEDAADs of adjoining descriptors leave the state that one FEEDAAD of both leaves, but for the request
trace, which is the two traces one behind the other (the model's own field, log entry 11). -/
def Obligations.FeedaadChunking : Prop :=
  ∀ (P : Platform) (a m n : Word) (s : State), SessionOk P s → s.phase = .ready →
    a.toNat + m.toNat + n.toNat ≤ P.ibufSize.val → m.toNat + n.toNat < 2 ^ 32 → a.toNat + m.toNat < 2 ^ 32 →
    s.hashLane.hashCount.toNat + (s.hashLane.hashPos.toNat + m.toNat + n.toNat) / 16 < 2 ^ 64 →
    ∃ t u v, feedAadOn P a m s = .next t ∧ feedAadOn P (a + m) n t = .next u ∧
      feedAadOn P a (m + n) s = .next v ∧
      u = { v with requests := u.requests } ∧ v.requests = t.requests ++ u.requests

/-! The crypt lane (spec/43_crypt_lane.md). -/

/-- R170, R171, R176: FEEDMSG appends its bytes to the message the crypt lane holds, writes exactly `updsize(LEN)` bytes at
`OUTOFF` and reports that number: the blocks the message completes, each under the payload permutation and its offset
(R203); it changes the crypt lane, the ladder, OBUF and the response only. -/
def Obligations.FeedmsgAppendsToTheMessage : Prop :=
  ∀ (P : Platform) (inOff len outOff outLen : Word) (s : State), SessionOk P s → s.phase = .ready →
    inOff.toNat + len.toNat ≤ P.ibufSize.val → outLen.toNat ≤ P.obufSize.val →
    outOff.toNat + updsize s len.toNat ≤ outLen.toNat →
    s.mainLane.mainCount.toNat + updsize s len.toNat / 16 < 2 ^ 64 →
    ∃ (t : State) (out : List Byte), feedMsgOn P inOff len outOff outLen s = .next t ∧
      (P = Config.platform → exec (.feedmsg inOff len outOff outLen) s = .next t) ∧
      out.length = updsize s len.toNat ∧
      t = { s with
        response := okResponse out.length [], mainLane := t.mainLane, ladder := t.ladder, requests := t.requests
        obuf := s.obuf.write outOff.toNat out } ∧
      t.mainLane.mainPos.toNat + out.length = s.mainLane.mainPos.toNat + len.toNat ∧
      t.mainLane.mainPos.toNat < mainBufLen s ∧
      s.ladder <+: t.ladder ∧
      ∀ msg,
        MainLaneHolds (payloadPerm P s.mpKey s.mode) s.lDollar s.offsetMain0 s.mode s.tagLen.toNat msg s.mainLane →
        MainLaneHolds (payloadPerm P s.mpKey s.mode) s.lDollar s.offsetMain0 s.mode s.tagLen.toNat
          (msg ++ inputBytes s inOff len) t.mainLane ∧
        out = cryptBlocks (payloadPerm P s.mpKey s.mode) s.lDollar s.offsetMain0 (msg ++ inputBytes s inOff len)
          (fedBlocks s.mode s.tagLen.toNat msg.length) (updsize s len.toNat / 16)

/-- R41, R173: the tail window after every FEEDMSG of Decrypt mode: from a lane that holds `msg`, a FEEDMSG that ends OK
leaves the lane, `n` bytes having been fed since the last reset, with `mainPos`, the number of blocks emitted and the
buffered bytes that R173 gives for `n`; and the last `tagLen` bytes fed stand in front of `mainPos`. -/
def Obligations.TailWindow : Prop :=
  ∀ (P : Platform) (inOff len outOff outLen : Word) (msg : List Byte) (s t : State),
    SessionOk P s → s.phase = .ready → s.mode = .decrypt →
    MainLaneHolds (payloadPerm P s.mpKey s.mode) s.lDollar s.offsetMain0 s.mode s.tagLen.toNat msg s.mainLane →
    feedMsgOn P inOff len outOff outLen s = .next t → t.response.rstat = .ok →
    let fed := msg ++ inputBytes s inOff len
    let n := msg.length + len.toNat
    let tagLen := s.tagLen.toNat
    (P = Config.platform → exec (.feedmsg inOff len outOff outLen) s = .next t) ∧ t.tagLen = s.tagLen ∧
    (n < 16 + tagLen →
      t.mainLane.mainPos.toNat = n ∧ t.mainLane.mainCount.toNat = 0 ∧ slice t.mainLane.mainBuf 0 n = fed) ∧
    (16 + tagLen ≤ n →
      t.mainLane.mainPos.toNat = tagLen + (n - tagLen) % 16 ∧ t.mainLane.mainCount.toNat = (n - tagLen) / 16 ∧
      slice t.mainLane.mainBuf 0 t.mainLane.mainPos.toNat = fed.drop (n - t.mainLane.mainPos.toNat)) ∧
    (tagLen ≤ n → tagLen ≤ t.mainLane.mainPos.toNat ∧
      slice t.mainLane.mainBuf (t.mainLane.mainPos.toNat - tagLen) tagLen = fed.drop (n - tagLen))

/-- R178: two FEEDMSGs of adjoining descriptors, the second writing behind the first, leave the state and the OBUF bytes
that one FEEDMSG of both leaves, but for the response and the request trace. -/
def Obligations.FeedmsgChunking : Prop :=
  ∀ (P : Platform) (a m n outOff outLen : Word) (s : State), SessionOk P s → s.phase = .ready →
    a.toNat + m.toNat + n.toNat ≤ P.ibufSize.val → m.toNat + n.toNat < 2 ^ 32 → a.toNat + m.toNat < 2 ^ 32 →
    outLen.toNat ≤ P.obufSize.val → outOff.toNat + updsize s (m.toNat + n.toNat) ≤ outLen.toNat →
    s.mainLane.mainCount.toNat + updsize s (m.toNat + n.toNat) / 16 < 2 ^ 64 →
    ∃ t u v, feedMsgOn P a m outOff outLen s = .next t ∧
      feedMsgOn P (a + m) n (outOff + BitVec.ofNat 32 t.response.rval.toNat) outLen t = .next u ∧
      feedMsgOn P a (m + n) outOff outLen s = .next v ∧
      u = { v with response := u.response, requests := u.requests } ∧
      v.requests = t.requests ++ u.requests ∧
      t.response.rstat = .ok ∧ u.response.rstat = .ok ∧ v.response.rstat = .ok ∧
      v.response.rval = t.response.rval + u.response.rval

/-- R178, R228: the two lanes do not interact: FEEDAAD then FEEDMSG and FEEDMSG then FEEDAAD leave the same lanes and the
same OBUF. -/
def Obligations.LanesDoNotInteract : Prop :=
  ∀ (P : Platform) (aadOff aadLen inOff len outOff outLen : Word) (s t u t' u' : State), SessionOk P s →
    feedAadOn P aadOff aadLen s = .next t → t.response.rstat = .ok →
    feedMsgOn P inOff len outOff outLen t = .next u → u.response.rstat = .ok →
    feedMsgOn P inOff len outOff outLen s = .next t' → feedAadOn P aadOff aadLen t' = .next u' →
    t.mainLane = s.mainLane ∧ t.obuf = s.obuf ∧ t'.hashLane = s.hashLane ∧
    u'.response.rstat = .ok ∧ u'.hashLane = u.hashLane ∧ u'.mainLane = u.mainLane ∧ u'.obuf = u.obuf

/-- R174: UPDSIZE in `READY` and `FINAL` answers the bytes FEEDMSG would write and changes the response only; in every other phase it is IllegalState. -/
def Obligations.UpdsizeAnswers : Prop :=
  (∀ (len : Word) (s : State), s.phase ≠ .ready → s.phase ≠ .final →
    exec (.updsize len) s = .next { s with response := bareResponse .illegalState, requests := [] }) ∧
  ∀ (len : Word) (s : State), (s.phase = .ready ∨ s.phase = .final) →
    ∃ t, exec (.updsize len) s = .next t ∧ t = { s with response := t.response, requests := [] } ∧
      t.response.rstat = .ok ∧ t.response.rlen = 0 ∧
      t.response.rval.toNat =
        (match s.mode with
          | .encrypt => (s.mainLane.mainPos.toNat + len.toNat) / 16 * 16
          | .decrypt => (s.mainLane.mainPos.toNat + len.toNat - s.tagLen.toNat) / 16 * 16)

/-- R175: FINSIZE in `READY` and `FINAL` answers `mainPos + LEN + tagLen` when encrypting and `max(0, mainPos + LEN - tagLen)`
when decrypting, and changes the response only; in every other phase it is IllegalState. -/
def Obligations.FinsizeAnswers : Prop :=
  (∀ (len : Word) (s : State), s.phase ≠ .ready → s.phase ≠ .final →
    exec (.finsize len) s = .next { s with response := bareResponse .illegalState, requests := [] }) ∧
  ∀ (len : Word) (s : State), (s.phase = .ready ∨ s.phase = .final) →
    ∃ t, exec (.finsize len) s = .next t ∧ t = { s with response := t.response, requests := [] } ∧
      t.response.rstat = .ok ∧ t.response.rlen = 0 ∧
      t.response.rval.toNat =
        (match s.mode with
          | .encrypt => s.mainLane.mainPos.toNat + len.toNat + s.tagLen.toNat
          | .decrypt => s.mainLane.mainPos.toNat + len.toNat - s.tagLen.toNat)

/-! The finalizer (spec/44_finalizer.md). -/

/-- R202, R271: FINALIZE with `tagLen > 16` is refused with UnsupportedTagLength and changes nothing. -/
def Obligations.LongTagsAreNotFinalized : Prop :=
  ∀ (outOff outLen : Word) (s : State), s.phase = .ready → outLen.toNat ≤ Config.platform.obufSize.val →
    16 < s.tagLen.toNat →
    exec (.finalize outOff outLen) s =
      .next { s with response := bareResponse .unsupportedTagLength, requests := [] }

/-- R190, R193 to R197, R199: FINALIZE in Encrypt mode writes the partial block and the tag at `OUTOFF`, keeps the tag
in `macBlock`, clears the lanes, replays the initial AAD and ends in `FINAL`; nothing else changes. -/
def Obligations.FinalizeEncrypts : Prop :=
  ∀ (P : Platform) (outOff outLen : Word) (s : State), SessionOk P s → s.phase = .ready → s.mode = .encrypt →
    s.tagLen.toNat ≤ 16 → outLen.toNat ≤ P.obufSize.val →
    outOff.toNat + (s.mainLane.mainPos.toNat + s.tagLen.toNat) ≤ outLen.toNat →
    ∃ t, finalizeOn P outOff outLen s = .next t ∧
      (P = Config.platform → exec (.finalize outOff outLen) s = .next t) ∧
      t = { s with
        phase := .final
        response := okResponse (s.mainLane.mainPos.toNat + s.tagLen.toNat) []
        mainLane := { MainLane.zero with offsetMain := s.offsetMain0 }
        hashLane := t.hashLane, ladder := t.ladder, requests := t.requests
        obuf := s.obuf.write outOff.toNat (partialOut P s ++ expectedTag P s)
        macBlock := t.macBlock, macLen := s.tagLen } ∧
      (partialOut P s).length = s.mainLane.mainPos.toNat ∧ (expectedTag P s).length = s.tagLen.toNat ∧
      slice t.macBlock 0 s.tagLen.toNat = expectedTag P s ∧
      HashLaneHolds (permEnc P s.hpKey) s.lDollar (initAADBytes s) t.hashLane ∧ s.ladder <+: t.ladder

/-- R190, R191, R198, R199, R201, R266: FINALIZE in Decrypt mode compares the candidate tag with the computed one: equal,
it writes the partial plaintext and ends in `FINAL`; different in any byte, it is AuthenticationFailed and no tag is kept.
That the window of the partial block then holds exactly as many free bytes as the partial block has (U7, log entry 9),
and the lanes the free draw of that number with `draws` one higher (U1, log entry 8), is the model's choice. -/
def Obligations.FinalizeDecrypts : Prop :=
  ∀ (P : Platform) (outOff outLen : Word) (s : State), SessionOk P s → s.phase = .ready → s.mode = .decrypt →
    s.tagLen.toNat ≤ 16 → s.tagLen.toNat ≤ s.mainLane.mainPos.toNat → outLen.toNat ≤ P.obufSize.val →
    outOff.toNat + (s.mainLane.mainPos.toNat - s.tagLen.toNat) ≤ outLen.toNat →
    ∃ t, finalizeOn P outOff outLen s = .next t ∧
      (P = Config.platform → exec (.finalize outOff outLen) s = .next t) ∧
      (expectedTag P s = candidateTag s →
        t = { s with
          phase := .final
          response := okResponse (s.mainLane.mainPos.toNat - s.tagLen.toNat) []
          mainLane := { MainLane.zero with offsetMain := s.offsetMain0 }
          hashLane := t.hashLane, ladder := t.ladder, requests := t.requests
          obuf := s.obuf.write outOff.toNat (partialOut P s)
          macBlock := t.macBlock, macLen := s.tagLen } ∧
        (partialOut P s).length = s.mainLane.mainPos.toNat - s.tagLen.toNat ∧
        slice t.macBlock 0 s.tagLen.toNat = candidateTag s ∧
        HashLaneHolds (permEnc P s.hpKey) s.lDollar (initAADBytes s) t.hashLane ∧ s.ladder <+: t.ladder) ∧
      (expectedTag P s ≠ candidateTag s →
        t = { s with
          phase := .error
          response := bareResponse .authenticationFailed
          macBlock := zeroBytes 32, macLen := 0
          hashLane := HashLane.free s.draws, mainLane := MainLane.free s.draws, draws := s.draws + 1
          requests := t.requests
          obuf := s.obuf.write outOff.toNat
            (freeWindow s.draws (s.mainLane.mainPos.toNat - s.tagLen.toNat)) })

/-- R155, R203: FINALIZE by the closed form of R203. From lanes that hold the AAD `aad` and the plaintext `x` it writes the
last piece of the ciphertext and the tag of both, and keeps the tag; from lanes that hold the ciphertext `x` with the
candidate tag `tag` behind it, it accepts when `tag` is the tag of the AAD and of the plaintext of `x`, writing the last
piece of that plaintext, and is AuthenticationFailed when it is not. -/
def Obligations.TagIsTheClosedForm : Prop :=
  ∀ (P : Platform) (outOff outLen : Word) (aad x tag : List Byte) (s : State),
    SessionOk P s → s.phase = .ready → s.tagLen.toNat ≤ 16 → outLen.toNat ≤ P.obufSize.val →
    let E := permEnc P s.hpKey
    let tagFor := tagOf E s.lStar s.lDollar s.offsetMain0 s.tagLen.toNat aad
    let last := cryptTail E s.lStar s.lDollar s.offsetMain0 x
    (s.mode = .encrypt → SessionHolds P aad x s → outOff.toNat + x.length % 16 + s.tagLen.toNat ≤ outLen.toNat →
      ∃ t, finalizeOn P outOff outLen s = .next t ∧
        (P = Config.platform → exec (.finalize outOff outLen) s = .next t) ∧
        t.phase = .final ∧ t.response = okResponse (x.length % 16 + s.tagLen.toNat) [] ∧
        t.obuf = s.obuf.write outOff.toNat (last ++ tagFor x) ∧ macBytes t = tagFor x) ∧
    (s.mode = .decrypt → tag.length = s.tagLen.toNat → SessionHolds P aad (x ++ tag) s →
      outOff.toNat + x.length % 16 ≤ outLen.toNat →
      let plain := cryptText (permDec P s.hpKey) E s.lStar s.lDollar s.offsetMain0 x
      ∃ t, finalizeOn P outOff outLen s = .next t ∧
        (P = Config.platform → exec (.finalize outOff outLen) s = .next t) ∧
        (tag = tagFor plain →
          t.phase = .final ∧ t.response = okResponse (x.length % 16) [] ∧
          t.obuf = s.obuf.write outOff.toNat last ∧ macBytes t = tag) ∧
        (tag ≠ tagFor plain →
          t.phase = .error ∧ t.response = bareResponse .authenticationFailed ∧ macBytes t = [] ∧
          (Memory.wf s.obuf = true →
            ∀ a, a < outOff.toNat ∨ outOff.toNat + x.length % 16 ≤ a → readObuf t a = readObuf s a)))

/-- R309: two states that differ only in the candidate tag, both refused with AuthenticationFailed, end in the same state:
response, OBUF, and the permutation requests in their order do not depend on where the tags differ. That the unspecified
lane set and the unspecified window of OBUF are equal too holds because the model numbers its free draws by `draws`, and
is the model's choice (U1, U7, log entries 8, 9); R309 does not speak of them. -/
def Obligations.AuthenticationFailureRevealsNothing : Prop :=
  ∀ (P : Platform) (outOff outLen : Word) (buf : Bytes 48) (s t t' : State), SessionOk P s →
    (∀ i (h : i < 48), i < s.mainLane.mainPos.toNat - s.tagLen.toNat → buf[i] = s.mainLane.mainBuf[i]) →
    finalizeOn P outOff outLen s = .next t → t.response.rstat = .authenticationFailed →
    finalizeOn P outOff outLen { s with mainLane := { s.mainLane with mainBuf := buf } } = .next t' →
    t'.response.rstat = .authenticationFailed → t' = t

/-- R204, R270: MAC answers the tag in `FINAL` and changes the response only; without a session it is IllegalState, in
every other phase MacNotReady. -/
def Obligations.MacAnswersTheTag : Prop :=
  ∀ s : State,
    (s.phase = .final →
      ∃ t, exec .mac s = .next t ∧ t = { s with response := t.response, requests := [] } ∧
        t.response.rstat = .ok ∧ t.response.rval = 0 ∧ t.response.rlen = s.macLen ∧
        ∀ i (h : i < 32), t.response.rdata[i] = if i < s.macLen.toNat then s.macBlock[i] else 0) ∧
    (s.phase = .noSession →
      exec .mac s = .next { s with response := bareResponse .illegalState, requests := [] }) ∧
    (s.phase = .uninit ∨ s.phase = .ready ∨ s.phase = .error →
      exec .mac s = .next { s with response := bareResponse .macNotReady, requests := [] })

/-- R280: no secret reaches a response: two states that differ in the keys, `L_star`, `L_dollar`, the ladder, the Ktop
cache, the offsets, the checksum, the sum, the buffered bytes and the tag give the same responses to every command but
MAC and a FINALIZE in Decrypt mode. -/
def Obligations.ResponsesKeepTheSecrets : Prop :=
  ∀ (P : Platform) (i : Instr) (s s' t t' : State), SessionOk P s → SessionOk P s' →
    i ≠ .mac → ((∃ outOff outLen, i = .finalize outOff outLen) → s.mode = .encrypt) →
    s' = { s with
      hpKey := s'.hpKey, mpKey := s'.mpKey, lStar := s'.lStar, lDollar := s'.lDollar, ladder := s'.ladder
      ktopValid := s'.ktopValid, ktopInput := s'.ktopInput, stretch := s'.stretch, offsetMain0 := s'.offsetMain0
      macBlock := s'.macBlock
      hashLane := { s'.hashLane with hashPos := s.hashLane.hashPos, hashCount := s.hashLane.hashCount }
      mainLane := { s'.mainLane with mainPos := s.mainLane.mainPos, mainCount := s.mainLane.mainCount } } →
    execOn P i s = .next t → execOn P i s' = .next t' → t'.response = t.response

/-! Whole messages (spec/30_encoding.md R90, 44_finalizer.md R203, 45_session_control.md R231). -/

/-- R90, R203: the expansion of ENCRYPT: INIT, FEEDAAD, FEEDMSG and FINALIZE all end OK and leave in OBUF the ciphertext
of the message, as long as it, and behind it the tag of the AAD and the message, in the closed form of R203. -/
def Obligations.EncryptWholeMessage : Prop :=
  ∀ (P : Platform) (tagLenBits : BitVec 16)
    (keyOff keyLen nonceOff nonceLen aadOff aadLen msgOff msgLen outOff outLen : Word) (s : State),
    Inv P s → s.phase ≠ .noSession → P.keyLenOk keyLen.toNat = true →
    32 ≤ tagLenBits.toNat → tagLenBits.toNat ≤ 128 → tagLenBits.toNat % 8 = 0 →
    1 ≤ nonceLen.toNat → nonceLen.toNat ≤ 15 →
    keyOff.toNat + keyLen.toNat ≤ P.ibufSize.val → nonceOff.toNat + nonceLen.toNat ≤ P.ibufSize.val →
    aadOff.toNat + aadLen.toNat ≤ P.ibufSize.val → msgOff.toNat + msgLen.toNat ≤ P.ibufSize.val →
    outOff.toNat + msgLen.toNat + tagLenBits.toNat / 8 ≤ outLen.toNat → outLen.toNat ≤ P.obufSize.val →
    ∃ s1 s2 s3 s4,
      initOn P true true tagLenBits keyOff keyLen nonceOff nonceLen 0 0 s = .next s1 ∧
      feedAadOn P aadOff aadLen s1 = .next s2 ∧
      feedMsgOn P msgOff msgLen outOff outLen s2 = .next s3 ∧
      finalizeOn P (outOff + BitVec.ofNat 32 s3.response.rval.toNat) outLen s3 = .next s4 ∧
      s1.response.rstat = .ok ∧ s2.response.rstat = .ok ∧ s3.response.rstat = .ok ∧ s4.response.rstat = .ok ∧
      s3.response.rval.toNat + s4.response.rval.toNat = msgLen.toNat + tagLenBits.toNat / 8 ∧
      let E := P.perm (inputBytes s keyOff keyLen)
      let lStar := E (zeroBytes 16)
      let lDollar := double lStar
      let start := initialOffset P E (tagLenBits.toNat / 8) (inputBytes s nonceOff nonceLen)
      let p := inputBytes s msgOff msgLen
      (List.range (msgLen.toNat + tagLenBits.toNat / 8)).map (fun i => readObuf s4 (outOff.toNat + i)) =
        cryptText E E lStar lDollar start p ++
          tagOf E lStar lDollar start (tagLenBits.toNat / 8) (inputBytes s aadOff aadLen) p

/-- R90, R203, R231 (a): the expansion of DECRYPT run on the ciphertext and tag that ENCRYPT makes of the plaintext `p`
under the same key, nonce, tag length and AAD: all four commands end OK and OBUF holds `p`. -/
def Obligations.DecryptInvertsEncrypt : Prop :=
  ∀ (P : Platform) (tagLenBits : BitVec 16)
    (keyOff keyLen nonceOff nonceLen aadOff aadLen msgOff msgLen outOff outLen : Word) (p : List Byte) (s : State),
    Inv P s → s.phase ≠ .noSession → P.keyLenOk keyLen.toNat = true →
    32 ≤ tagLenBits.toNat → tagLenBits.toNat ≤ 128 → tagLenBits.toNat % 8 = 0 →
    1 ≤ nonceLen.toNat → nonceLen.toNat ≤ 15 →
    keyOff.toNat + keyLen.toNat ≤ P.ibufSize.val → nonceOff.toNat + nonceLen.toNat ≤ P.ibufSize.val →
    aadOff.toNat + aadLen.toNat ≤ P.ibufSize.val → msgOff.toNat + msgLen.toNat ≤ P.ibufSize.val →
    outOff.toNat + p.length ≤ outLen.toNat → outLen.toNat ≤ P.obufSize.val →
    (let E := P.perm (inputBytes s keyOff keyLen)
     let lStar := E (zeroBytes 16)
     let lDollar := double lStar
     let start := initialOffset P E (tagLenBits.toNat / 8) (inputBytes s nonceOff nonceLen)
     inputBytes s msgOff msgLen =
      cryptText E E lStar lDollar start p ++
        tagOf E lStar lDollar start (tagLenBits.toNat / 8) (inputBytes s aadOff aadLen) p) →
    ∃ s1 s2 s3 s4,
      initOn P true false tagLenBits keyOff keyLen nonceOff nonceLen 0 0 s = .next s1 ∧
      feedAadOn P aadOff aadLen s1 = .next s2 ∧
      feedMsgOn P msgOff msgLen outOff outLen s2 = .next s3 ∧
      finalizeOn P (outOff + BitVec.ofNat 32 s3.response.rval.toNat) outLen s3 = .next s4 ∧
      s1.response.rstat = .ok ∧ s2.response.rstat = .ok ∧ s3.response.rstat = .ok ∧ s4.response.rstat = .ok ∧
      s3.response.rval.toNat + s4.response.rval.toNat = p.length ∧
      (List.range p.length).map (fun i => readObuf s4 (outOff.toNat + i)) = p

/-! Invariants (spec/10_state.md R40 to R43). -/

/-- R41 to R43, R60: the invariant holds after hardware reset, on every platform. -/
def Obligations.ResetMeetsTheInvariant : Prop := ∀ P : Platform, Inv P State.reset

/-- R22, R27, R37, R40 to R43, R60: every step keeps the invariant. -/
def Obligations.StepKeepsTheInvariant : Prop :=
  ∀ s t : State, Inv Config.platform s → step s = .next t → Inv Config.platform t

/-- R40, R272: a key an instance holds is one that `KEYLEN_OK` accepted, after every step. -/
def Obligations.StepKeepsKeysAccepted : Prop :=
  ∀ s t : State, KeyAccepted Config.platform s → step s = .next t → KeyAccepted Config.platform t

/-! The buffer spaces (spec/20_memory.md R61). -/

/-- R61: `MemWrite(OBUF, a, n, v)` puts `v[i]` at `a + i`, leaves every other address as it was and keeps the canonical
form; `MemRead(IBUF, a, n)` is the bytes at `a .. a + n - 1`, lowest address first. -/
def Obligations.BufferReadsAndWrites : Prop :=
  (∀ (s : State) (a : Nat) (v : List Byte), Memory.wf s.obuf = true →
    Memory.wf (memWriteObuf a v s).obuf = true ∧
    ∀ x, readObuf (memWriteObuf a v s) x =
      if a ≤ x ∧ x < a + v.length then v.getD (x - a) 0 else readObuf s x) ∧
  (∀ (s : State) (a n : Nat), (memReadIbuf s a n).length = n ∧
    ∀ i, i < n → (memReadIbuf s a n).getD i 0 = readIbuf s (a + i))

/-! The reset input, and the lanes over whole runs (spec/70_reset_and_hazards.md R300, 10_state.md R41). -/

/-- R66, R300: hardware reset while a command is in progress abandons it without a response, and always leaves a next
state: every register at its reset value, IBUF as it was, and in OBUF the first `written` of the bytes that the command,
left alone, writes from its write position on; the trace holds the first `made` of its requests. A feed whose counter
would wrap is cut before the block that wraps (statement BeforeWrapIsTheLongestPart says that this cut is right); a
transaction that is no command, or of the wrong length, has done nothing. That `written` and `made` are any numbers the
host's event names, and that the queue and the draw counter stay, are the model's choices (log entries 1, 8, 11, 20). -/
def Obligations.ResetAbandonsTheCommand : Prop :=
  (∀ (s : State) (rest : List HostEvent) (words : List Word) (made written : Nat),
    s.hostQueue = .resetDuring words made written :: rest →
    step s = .next (abandonCommand (execOn Config.platform) words made written { s with hostQueue := rest })) ∧
  ∀ (P : Platform) (s : State) (words : List Word) (made written : Nat), Memory.wf s.obuf = true →
    let idle := { State.reset with ibuf := s.ibuf, obuf := s.obuf, hostQueue := s.hostQueue, draws := s.draws }
    let partWay := fun (i : Instr) (u : State) =>
      ∃ out : List Byte, u.obuf = s.obuf.write (outputOffset i) out ∧
        abandonCommand (execOn P) words made written s = { idle with
          obuf := s.obuf.write (outputOffset i) (out.take written)
          requests := u.requests.take made, draws := u.draws }
    (∀ (i : Instr) (u : State), decode words = .instr i → execOn P i s = .next u → partWay i u) ∧
    (∀ (i : Instr) (f : Fault) (u : State), decode words = .instr i → execOn P i s = .fault f →
      execOn P (beforeWrap i s) s = .next u → partWay i u) ∧
    (∀ (i : Instr) (f f' : Fault), decode words = .instr i → execOn P i s = .fault f →
      execOn P (beforeWrap i s) s = .fault f' → abandonCommand (execOn P) words made written s = idle) ∧
    (∀ why : Reject, decode words = .reject why → abandonCommand (execOn P) words made written s = idle)

/-- R41, R154, R173, R224, R225: every step keeps this: in `READY` and `FINAL` the lanes hold the AAD and the message bytes
fed since the last reset (INIT, RESET and FINALIZE begin anew behind the initial AAD), and in Decrypt mode, once `tagLen`
message bytes have been fed, `mainPos ≥ tagLen` and the last `tagLen` bytes fed are those in front of `mainPos`. -/
def Obligations.StepKeepsWhatWasFed : Prop :=
  ∀ (s t : State) (fed : Fed), Inv Config.platform s →
    (InMessage s → SessionHolds Config.platform fed.aad fed.msg s) → step s = .next t → InMessage t →
    let fed' := fedAfterStep s t fed
    SessionHolds Config.platform fed'.aad fed'.msg t ∧
    (t.mode = .decrypt → t.tagLen.toNat ≤ fed'.msg.length →
      t.tagLen.toNat ≤ t.mainLane.mainPos.toNat ∧
      slice t.mainLane.mainBuf (t.mainLane.mainPos.toNat - t.tagLen.toNat) t.tagLen.toNat =
        fed'.msg.drop (fed'.msg.length - t.tagLen.toNat))

/-- R175, R177: what FINSIZE answers in `READY` is the total that feeding `LEN` bytes and then finalizing still produce:
when a FEEDMSG of `LEN` bytes and the FINALIZE behind it end OK, their two `RVAL` add up to it. -/
def Obligations.FinsizeIsWhatIsProduced : Prop :=
  ∀ (P : Platform) (inOff len outOff outLen finOff finLen : Word) (s q t u : State), SessionOk P s →
    exec (.finsize len) s = .next q → q.response.rstat = .ok →
    feedMsgOn P inOff len outOff outLen s = .next t → t.response.rstat = .ok →
    finalizeOn P finOff finLen t = .next u → u.response.rstat = .ok →
    q.response.rval.toNat = t.response.rval.toNat + u.response.rval.toNat

/-- R151, R171, R300, R308: what a feed that would carry its block counter past `2^64 - 1` (U5) can have done when a reset
abandons it: it is cut to a feed of `k` of its bytes that ends OK with the counter at `2^64 - 1`, and one byte more would
complete the block that wraps it. That it is cut as a whole command is the model's choice (log entries 5, 20). -/
def Obligations.BeforeWrapIsTheLongestPart : Prop :=
  (∀ (P : Platform) (inOff len : Word) (s : State), SessionOk P s →
    feedAadOn P inOff len s = .fault .counterWrap →
    ∃ (k : Word) (u : State), beforeWrap (.feedaad inOff len) s = .feedaad inOff k ∧ k.toNat < len.toNat ∧
      feedAadOn P inOff k s = .next u ∧ u.response.rstat = .ok ∧ u.hashLane.hashCount.toNat = 2 ^ 64 - 1 ∧
      s.hashLane.hashCount.toNat + (s.hashLane.hashPos.toNat + (k.toNat + 1)) / 16 = 2 ^ 64) ∧
  (∀ (P : Platform) (inOff len outOff outLen : Word) (s : State), SessionOk P s →
    feedMsgOn P inOff len outOff outLen s = .fault .counterWrap →
    ∃ (k : Word) (u : State), beforeWrap (.feedmsg inOff len outOff outLen) s = .feedmsg inOff k outOff outLen ∧
      k.toNat < len.toNat ∧ feedMsgOn P inOff k outOff outLen s = .next u ∧ u.response.rstat = .ok ∧
      u.mainLane.mainCount.toNat = 2 ^ 64 - 1 ∧
      s.mainLane.mainCount.toNat + updsize s (k.toNat + 1) / 16 = 2 ^ 64)

end
end

