-- ==== Sys2Proof/Laws/Bytes.lean ====
section
/-! SUPPORT. What the byte-string operations of Machine/Ops.lean do, byte by byte (spec/00_scope.md R11). -/

namespace Sys2Proof.Machine

variable {n : Nat}

@[simp] theorem byteAt_lt {b : Bytes n} {i : Nat} (h : i < n) : byteAt b i = b[i] := by
  simp [byteAt, h]

theorem byteAt_ge {b : Bytes n} {i : Nat} (h : n ≤ i) : byteAt b i = 0 := by
  simp [byteAt, Nat.not_lt.mpr h]

@[simp] theorem zeroBytes_getElem {i : Nat} (h : i < n) : (zeroBytes n)[i] = 0 := by
  simp [zeroBytes]

@[simp] theorem xorBytes_getElem (a b : Bytes n) {i : Nat} (h : i < n) :
    (xorBytes a b)[i] = a[i] ^^^ b[i] := by
  simp [xorBytes]

theorem xorBytes_comm (a b : Bytes n) : xorBytes a b = xorBytes b a := by
  ext i h : 1
  simp [BitVec.xor_comm]

theorem xorBytes_assoc (a b c : Bytes n) : xorBytes (xorBytes a b) c = xorBytes a (xorBytes b c) := by
  ext i h : 1
  simp [BitVec.xor_assoc]

@[simp] theorem xorBytes_self (a : Bytes n) : xorBytes a a = zeroBytes n := by
  ext i h : 1
  simp

@[simp] theorem xorBytes_zero (a : Bytes n) : xorBytes a (zeroBytes n) = a := by
  ext i h : 1
  simp

@[simp] theorem zero_xorBytes (a : Bytes n) : xorBytes (zeroBytes n) a = a := by
  ext i h : 1
  simp

/-- Xoring the same string twice undoes it: the offset before and after the permutation (R171). -/
@[simp] theorem xorBytes_cancel (a b : Bytes n) : xorBytes (xorBytes a b) b = a := by
  rw [xorBytes_assoc, xorBytes_self, xorBytes_zero]

theorem setByte_getElem (b : Bytes n) (i : Nat) (v : Byte) {j : Nat} (h : j < n) :
    (setByte b i v)[j] = if i = j then v else b[j] := by
  simp [setByte, Vector.getElem_setIfInBounds]

@[simp] theorem slice_length (b : Bytes n) (a len : Nat) : (slice b a len).length = len := by
  simp [slice]

@[simp] theorem slice_getElem (b : Bytes n) (a len : Nat) {i : Nat} (h : i < (slice b a len).length) :
    (slice b a len)[i] = byteAt b (a + i) := by
  simp [slice]

@[simp] theorem slice_zero_len (b : Bytes n) (a : Nat) : slice b a 0 = [] := by simp [slice]

/-- One byte more at the end of a slice. -/
theorem slice_succ (b : Bytes n) (a len : Nat) : slice b a (len + 1) = slice b a len ++ [byteAt b (a + len)] := by
  simp [slice, List.range_succ]

/-- Two slices are equal when their bytes are. -/
theorem slice_congr {b c : Bytes n} {a d len : Nat} (h : ∀ i < len, byteAt b (a + i) = byteAt c (d + i)) :
    slice b a len = slice c d len := by
  refine List.ext_getElem (by simp) fun i hi _ => ?_
  simpa using h i (by simpa using hi)

@[simp] theorem ofList_getElem (l : List Byte) {i : Nat} (h : i < n) : (ofList n l)[i] = l.getD i 0 := by
  simp [ofList]

@[simp] theorem firstBlock_getElem (b : Bytes 48) {i : Nat} (h : i < 16) : (firstBlock b)[i] = b[i] := by
  simp [firstBlock]

theorem setFirstBlock_getElem (b : Bytes 48) (x : Block) {i : Nat} (h : i < 48) :
    (setFirstBlock b x)[i] = if h' : i < 16 then x[i] else b[i] := by
  simp [setFirstBlock]

@[simp] theorem firstBlock_setFirstBlock (b : Bytes 48) (x : Block) : firstBlock (setFirstBlock b x) = x := by
  ext i h : 1
  simp [setFirstBlock_getElem, h]

theorem extend_getElem (b : Bytes n) (p : Nat) {i : Nat} (h : i < n) :
    (extend b p)[i] = if i = p then 0x80 else if p < i ∧ i < 16 then 0 else b[i] := by
  simp [extend]

theorem shiftTail_getElem (t : Nat) (b : Bytes 48) {i : Nat} (h : i < 48) :
    (shiftTail t b)[i] = if i < t then byteAt b (16 + i) else b[i] := by
  simp [shiftTail]

theorem memReadIbuf_length (s : State) (a len : Nat) : (memReadIbuf s a len).length = len := by
  simp [memReadIbuf]

@[simp] theorem inputBytes_length (s : State) (off len : Word) : (inputBytes s off len).length = len.toNat := by
  simp [inputBytes, memReadIbuf]

/-- The bytes of two adjoining descriptors, one behind the other. -/
theorem memReadIbuf_append (s : State) (a m n : Nat) :
    memReadIbuf s a (m + n) = memReadIbuf s a m ++ memReadIbuf s (a + m) n := by
  simp [memReadIbuf, List.range_add, Nat.add_assoc]

end Sys2Proof.Machine
end

