-- ==== Sys2Proof/Laws/State.lean ====
section
/-! SUPPORT. The small lemmas of the state's updates: one for each field of each named update, true by rfl. -/

namespace Sys2Proof.Machine

section Begin
variable (s : State)

@[simp] theorem begin_phase : (begin s).phase = s.phase := rfl
@[simp] theorem begin_inited : (begin s).inited = s.inited := rfl
@[simp] theorem begin_keyed : (begin s).keyed = s.keyed := rfl
@[simp] theorem begin_mode : (begin s).mode = s.mode := rfl
@[simp] theorem begin_tagLen : (begin s).tagLen = s.tagLen := rfl
@[simp] theorem begin_lStar : (begin s).lStar = s.lStar := rfl
@[simp] theorem begin_lDollar : (begin s).lDollar = s.lDollar := rfl
@[simp] theorem begin_ladder : (begin s).ladder = s.ladder := rfl
@[simp] theorem begin_ktopValid : (begin s).ktopValid = s.ktopValid := rfl
@[simp] theorem begin_ktopInput : (begin s).ktopInput = s.ktopInput := rfl
@[simp] theorem begin_stretch : (begin s).stretch = s.stretch := rfl
@[simp] theorem begin_offsetMain0 : (begin s).offsetMain0 = s.offsetMain0 := rfl
@[simp] theorem begin_hashLane : (begin s).hashLane = s.hashLane := rfl
@[simp] theorem begin_mainLane : (begin s).mainLane = s.mainLane := rfl
@[simp] theorem begin_macBlock : (begin s).macBlock = s.macBlock := rfl
@[simp] theorem begin_macLen : (begin s).macLen = s.macLen := rfl
@[simp] theorem begin_initAAD : (begin s).initAAD = s.initAAD := rfl
@[simp] theorem begin_initAADLen : (begin s).initAADLen = s.initAADLen := rfl
@[simp] theorem begin_response : (begin s).response = s.response := rfl
@[simp] theorem begin_hpKey : (begin s).hpKey = s.hpKey := rfl
@[simp] theorem begin_mpKey : (begin s).mpKey = s.mpKey := rfl
@[simp] theorem begin_ibuf : (begin s).ibuf = s.ibuf := rfl
@[simp] theorem begin_obuf : (begin s).obuf = s.obuf := rfl
@[simp] theorem begin_requests : (begin s).requests = [] := rfl
@[simp] theorem begin_hostQueue : (begin s).hostQueue = s.hostQueue := rfl
@[simp] theorem begin_draws : (begin s).draws = s.draws := rfl

end Begin

section Respond
variable (val : Nat) (data : List Byte) (s : State)

@[simp] theorem respond_phase : (respond val data s).phase = s.phase := rfl
@[simp] theorem respond_inited : (respond val data s).inited = s.inited := rfl
@[simp] theorem respond_keyed : (respond val data s).keyed = s.keyed := rfl
@[simp] theorem respond_mode : (respond val data s).mode = s.mode := rfl
@[simp] theorem respond_tagLen : (respond val data s).tagLen = s.tagLen := rfl
@[simp] theorem respond_lStar : (respond val data s).lStar = s.lStar := rfl
@[simp] theorem respond_lDollar : (respond val data s).lDollar = s.lDollar := rfl
@[simp] theorem respond_ladder : (respond val data s).ladder = s.ladder := rfl
@[simp] theorem respond_ktopValid : (respond val data s).ktopValid = s.ktopValid := rfl
@[simp] theorem respond_ktopInput : (respond val data s).ktopInput = s.ktopInput := rfl
@[simp] theorem respond_stretch : (respond val data s).stretch = s.stretch := rfl
@[simp] theorem respond_offsetMain0 : (respond val data s).offsetMain0 = s.offsetMain0 := rfl
@[simp] theorem respond_hashLane : (respond val data s).hashLane = s.hashLane := rfl
@[simp] theorem respond_mainLane : (respond val data s).mainLane = s.mainLane := rfl
@[simp] theorem respond_macBlock : (respond val data s).macBlock = s.macBlock := rfl
@[simp] theorem respond_macLen : (respond val data s).macLen = s.macLen := rfl
@[simp] theorem respond_initAAD : (respond val data s).initAAD = s.initAAD := rfl
@[simp] theorem respond_initAADLen : (respond val data s).initAADLen = s.initAADLen := rfl
@[simp] theorem respond_response : (respond val data s).response = okResponse val data := rfl
@[simp] theorem respond_hpKey : (respond val data s).hpKey = s.hpKey := rfl
@[simp] theorem respond_mpKey : (respond val data s).mpKey = s.mpKey := rfl
@[simp] theorem respond_ibuf : (respond val data s).ibuf = s.ibuf := rfl
@[simp] theorem respond_obuf : (respond val data s).obuf = s.obuf := rfl
@[simp] theorem respond_requests : (respond val data s).requests = s.requests := rfl
@[simp] theorem respond_hostQueue : (respond val data s).hostQueue = s.hostQueue := rfl
@[simp] theorem respond_draws : (respond val data s).draws = s.draws := rfl

end Respond

section Refuse
variable (st : Status) (s : State)

@[simp] theorem refuse_phase : (refuse st s).phase = s.phase := rfl
@[simp] theorem refuse_inited : (refuse st s).inited = s.inited := rfl
@[simp] theorem refuse_keyed : (refuse st s).keyed = s.keyed := rfl
@[simp] theorem refuse_mode : (refuse st s).mode = s.mode := rfl
@[simp] theorem refuse_tagLen : (refuse st s).tagLen = s.tagLen := rfl
@[simp] theorem refuse_lStar : (refuse st s).lStar = s.lStar := rfl
@[simp] theorem refuse_lDollar : (refuse st s).lDollar = s.lDollar := rfl
@[simp] theorem refuse_ladder : (refuse st s).ladder = s.ladder := rfl
@[simp] theorem refuse_ktopValid : (refuse st s).ktopValid = s.ktopValid := rfl
@[simp] theorem refuse_ktopInput : (refuse st s).ktopInput = s.ktopInput := rfl
@[simp] theorem refuse_stretch : (refuse st s).stretch = s.stretch := rfl
@[simp] theorem refuse_offsetMain0 : (refuse st s).offsetMain0 = s.offsetMain0 := rfl
@[simp] theorem refuse_hashLane : (refuse st s).hashLane = s.hashLane := rfl
@[simp] theorem refuse_mainLane : (refuse st s).mainLane = s.mainLane := rfl
@[simp] theorem refuse_macBlock : (refuse st s).macBlock = s.macBlock := rfl
@[simp] theorem refuse_macLen : (refuse st s).macLen = s.macLen := rfl
@[simp] theorem refuse_initAAD : (refuse st s).initAAD = s.initAAD := rfl
@[simp] theorem refuse_initAADLen : (refuse st s).initAADLen = s.initAADLen := rfl
@[simp] theorem refuse_response : (refuse st s).response = bareResponse st := rfl
@[simp] theorem refuse_hpKey : (refuse st s).hpKey = s.hpKey := rfl
@[simp] theorem refuse_mpKey : (refuse st s).mpKey = s.mpKey := rfl
@[simp] theorem refuse_ibuf : (refuse st s).ibuf = s.ibuf := rfl
@[simp] theorem refuse_obuf : (refuse st s).obuf = s.obuf := rfl
@[simp] theorem refuse_requests : (refuse st s).requests = s.requests := rfl
@[simp] theorem refuse_hostQueue : (refuse st s).hostQueue = s.hostQueue := rfl
@[simp] theorem refuse_draws : (refuse st s).draws = s.draws := rfl

end Refuse

section RaiseError
variable (st : Status) (s : State)

@[simp] theorem raiseError_phase : (raiseError st s).phase = .error := rfl
@[simp] theorem raiseError_inited : (raiseError st s).inited = s.inited := rfl
@[simp] theorem raiseError_keyed : (raiseError st s).keyed = s.keyed := rfl
@[simp] theorem raiseError_mode : (raiseError st s).mode = s.mode := rfl
@[simp] theorem raiseError_tagLen : (raiseError st s).tagLen = s.tagLen := rfl
@[simp] theorem raiseError_lStar : (raiseError st s).lStar = s.lStar := rfl
@[simp] theorem raiseError_lDollar : (raiseError st s).lDollar = s.lDollar := rfl
@[simp] theorem raiseError_ladder : (raiseError st s).ladder = s.ladder := rfl
@[simp] theorem raiseError_ktopValid : (raiseError st s).ktopValid = s.ktopValid := rfl
@[simp] theorem raiseError_ktopInput : (raiseError st s).ktopInput = s.ktopInput := rfl
@[simp] theorem raiseError_stretch : (raiseError st s).stretch = s.stretch := rfl
@[simp] theorem raiseError_offsetMain0 : (raiseError st s).offsetMain0 = s.offsetMain0 := rfl
@[simp] theorem raiseError_hashLane : (raiseError st s).hashLane = HashLane.free s.draws := rfl
@[simp] theorem raiseError_mainLane : (raiseError st s).mainLane = MainLane.free s.draws := rfl
@[simp] theorem raiseError_macBlock : (raiseError st s).macBlock = zeroBytes 32 := rfl
@[simp] theorem raiseError_macLen : (raiseError st s).macLen = 0 := rfl
@[simp] theorem raiseError_initAAD : (raiseError st s).initAAD = s.initAAD := rfl
@[simp] theorem raiseError_initAADLen : (raiseError st s).initAADLen = s.initAADLen := rfl
@[simp] theorem raiseError_response : (raiseError st s).response = bareResponse st := rfl
@[simp] theorem raiseError_hpKey : (raiseError st s).hpKey = s.hpKey := rfl
@[simp] theorem raiseError_mpKey : (raiseError st s).mpKey = s.mpKey := rfl
@[simp] theorem raiseError_ibuf : (raiseError st s).ibuf = s.ibuf := rfl
@[simp] theorem raiseError_obuf : (raiseError st s).obuf = s.obuf := rfl
@[simp] theorem raiseError_requests : (raiseError st s).requests = s.requests := rfl
@[simp] theorem raiseError_hostQueue : (raiseError st s).hostQueue = s.hostQueue := rfl
@[simp] theorem raiseError_draws : (raiseError st s).draws = s.draws + 1 := rfl

end RaiseError

section RaiseInitError
variable (st : Status) (k : Bool) (s : State)

@[simp] theorem raiseInitError_phase : (raiseInitError st k s).phase = .error := rfl
@[simp] theorem raiseInitError_inited : (raiseInitError st k s).inited = false := rfl
@[simp] theorem raiseInitError_keyed : (raiseInitError st k s).keyed = (if k then false else s.keyed) := rfl
@[simp] theorem raiseInitError_mode : (raiseInitError st k s).mode = s.mode := rfl
@[simp] theorem raiseInitError_tagLen : (raiseInitError st k s).tagLen = s.tagLen := rfl
@[simp] theorem raiseInitError_lStar : (raiseInitError st k s).lStar = s.lStar := rfl
@[simp] theorem raiseInitError_lDollar : (raiseInitError st k s).lDollar = s.lDollar := rfl
@[simp] theorem raiseInitError_ladder : (raiseInitError st k s).ladder = s.ladder := rfl
@[simp] theorem raiseInitError_ktopValid : (raiseInitError st k s).ktopValid = s.ktopValid := rfl
@[simp] theorem raiseInitError_ktopInput : (raiseInitError st k s).ktopInput = s.ktopInput := rfl
@[simp] theorem raiseInitError_stretch : (raiseInitError st k s).stretch = s.stretch := rfl
@[simp] theorem raiseInitError_offsetMain0 : (raiseInitError st k s).offsetMain0 = s.offsetMain0 := rfl
@[simp] theorem raiseInitError_hashLane : (raiseInitError st k s).hashLane = HashLane.free s.draws := rfl
@[simp] theorem raiseInitError_mainLane : (raiseInitError st k s).mainLane = MainLane.free s.draws := rfl
@[simp] theorem raiseInitError_macBlock : (raiseInitError st k s).macBlock = zeroBytes 32 := rfl
@[simp] theorem raiseInitError_macLen : (raiseInitError st k s).macLen = 0 := rfl
@[simp] theorem raiseInitError_initAAD : (raiseInitError st k s).initAAD = s.initAAD := rfl
@[simp] theorem raiseInitError_initAADLen : (raiseInitError st k s).initAADLen = s.initAADLen := rfl
@[simp] theorem raiseInitError_response : (raiseInitError st k s).response = bareResponse st := rfl
@[simp] theorem raiseInitError_hpKey : (raiseInitError st k s).hpKey = s.hpKey := rfl
@[simp] theorem raiseInitError_mpKey : (raiseInitError st k s).mpKey = s.mpKey := rfl
@[simp] theorem raiseInitError_ibuf : (raiseInitError st k s).ibuf = s.ibuf := rfl
@[simp] theorem raiseInitError_obuf : (raiseInitError st k s).obuf = s.obuf := rfl
@[simp] theorem raiseInitError_requests : (raiseInitError st k s).requests = s.requests := rfl
@[simp] theorem raiseInitError_hostQueue : (raiseInitError st k s).hostQueue = s.hostQueue := rfl
@[simp] theorem raiseInitError_draws : (raiseInitError st k s).draws = s.draws + 1 := rfl

end RaiseInitError

section LogRequest
variable (r : PermRequest) (s : State)

@[simp] theorem logRequest_phase : (logRequest r s).phase = s.phase := rfl
@[simp] theorem logRequest_inited : (logRequest r s).inited = s.inited := rfl
@[simp] theorem logRequest_keyed : (logRequest r s).keyed = s.keyed := rfl
@[simp] theorem logRequest_mode : (logRequest r s).mode = s.mode := rfl
@[simp] theorem logRequest_tagLen : (logRequest r s).tagLen = s.tagLen := rfl
@[simp] theorem logRequest_lStar : (logRequest r s).lStar = s.lStar := rfl
@[simp] theorem logRequest_lDollar : (logRequest r s).lDollar = s.lDollar := rfl
@[simp] theorem logRequest_ladder : (logRequest r s).ladder = s.ladder := rfl
@[simp] theorem logRequest_ktopValid : (logRequest r s).ktopValid = s.ktopValid := rfl
@[simp] theorem logRequest_ktopInput : (logRequest r s).ktopInput = s.ktopInput := rfl
@[simp] theorem logRequest_stretch : (logRequest r s).stretch = s.stretch := rfl
@[simp] theorem logRequest_offsetMain0 : (logRequest r s).offsetMain0 = s.offsetMain0 := rfl
@[simp] theorem logRequest_hashLane : (logRequest r s).hashLane = s.hashLane := rfl
@[simp] theorem logRequest_mainLane : (logRequest r s).mainLane = s.mainLane := rfl
@[simp] theorem logRequest_macBlock : (logRequest r s).macBlock = s.macBlock := rfl
@[simp] theorem logRequest_macLen : (logRequest r s).macLen = s.macLen := rfl
@[simp] theorem logRequest_initAAD : (logRequest r s).initAAD = s.initAAD := rfl
@[simp] theorem logRequest_initAADLen : (logRequest r s).initAADLen = s.initAADLen := rfl
@[simp] theorem logRequest_response : (logRequest r s).response = s.response := rfl
@[simp] theorem logRequest_hpKey : (logRequest r s).hpKey = s.hpKey := rfl
@[simp] theorem logRequest_mpKey : (logRequest r s).mpKey = s.mpKey := rfl
@[simp] theorem logRequest_ibuf : (logRequest r s).ibuf = s.ibuf := rfl
@[simp] theorem logRequest_obuf : (logRequest r s).obuf = s.obuf := rfl
@[simp] theorem logRequest_requests : (logRequest r s).requests = s.requests ++ [r] := rfl
@[simp] theorem logRequest_hostQueue : (logRequest r s).hostQueue = s.hostQueue := rfl
@[simp] theorem logRequest_draws : (logRequest r s).draws = s.draws := rfl

end LogRequest

section LoadKeys
variable (key : Key) (s : State)

@[simp] theorem loadKeys_phase : (loadKeys key s).phase = s.phase := rfl
@[simp] theorem loadKeys_inited : (loadKeys key s).inited = s.inited := rfl
@[simp] theorem loadKeys_keyed : (loadKeys key s).keyed = s.keyed := rfl
@[simp] theorem loadKeys_mode : (loadKeys key s).mode = s.mode := rfl
@[simp] theorem loadKeys_tagLen : (loadKeys key s).tagLen = s.tagLen := rfl
@[simp] theorem loadKeys_lStar : (loadKeys key s).lStar = s.lStar := rfl
@[simp] theorem loadKeys_lDollar : (loadKeys key s).lDollar = s.lDollar := rfl
@[simp] theorem loadKeys_ladder : (loadKeys key s).ladder = s.ladder := rfl
@[simp] theorem loadKeys_ktopValid : (loadKeys key s).ktopValid = s.ktopValid := rfl
@[simp] theorem loadKeys_ktopInput : (loadKeys key s).ktopInput = s.ktopInput := rfl
@[simp] theorem loadKeys_stretch : (loadKeys key s).stretch = s.stretch := rfl
@[simp] theorem loadKeys_offsetMain0 : (loadKeys key s).offsetMain0 = s.offsetMain0 := rfl
@[simp] theorem loadKeys_hashLane : (loadKeys key s).hashLane = s.hashLane := rfl
@[simp] theorem loadKeys_mainLane : (loadKeys key s).mainLane = s.mainLane := rfl
@[simp] theorem loadKeys_macBlock : (loadKeys key s).macBlock = s.macBlock := rfl
@[simp] theorem loadKeys_macLen : (loadKeys key s).macLen = s.macLen := rfl
@[simp] theorem loadKeys_initAAD : (loadKeys key s).initAAD = s.initAAD := rfl
@[simp] theorem loadKeys_initAADLen : (loadKeys key s).initAADLen = s.initAADLen := rfl
@[simp] theorem loadKeys_response : (loadKeys key s).response = s.response := rfl
@[simp] theorem loadKeys_hpKey : (loadKeys key s).hpKey = some key := rfl
@[simp] theorem loadKeys_mpKey : (loadKeys key s).mpKey = some key := rfl
@[simp] theorem loadKeys_ibuf : (loadKeys key s).ibuf = s.ibuf := rfl
@[simp] theorem loadKeys_obuf : (loadKeys key s).obuf = s.obuf := rfl
@[simp] theorem loadKeys_requests : (loadKeys key s).requests = s.requests ++ [.setKey .hp key] ++ [.setKey .mp key] := rfl
@[simp] theorem loadKeys_hostQueue : (loadKeys key s).hostQueue = s.hostQueue := rfl
@[simp] theorem loadKeys_draws : (loadKeys key s).draws = s.draws := rfl

end LoadKeys

section MemWriteObuf
variable (a : Nat) (v : List Byte) (s : State)

@[simp] theorem memWriteObuf_phase : (memWriteObuf a v s).phase = s.phase := rfl
@[simp] theorem memWriteObuf_inited : (memWriteObuf a v s).inited = s.inited := rfl
@[simp] theorem memWriteObuf_keyed : (memWriteObuf a v s).keyed = s.keyed := rfl
@[simp] theorem memWriteObuf_mode : (memWriteObuf a v s).mode = s.mode := rfl
@[simp] theorem memWriteObuf_tagLen : (memWriteObuf a v s).tagLen = s.tagLen := rfl
@[simp] theorem memWriteObuf_lStar : (memWriteObuf a v s).lStar = s.lStar := rfl
@[simp] theorem memWriteObuf_lDollar : (memWriteObuf a v s).lDollar = s.lDollar := rfl
@[simp] theorem memWriteObuf_ladder : (memWriteObuf a v s).ladder = s.ladder := rfl
@[simp] theorem memWriteObuf_ktopValid : (memWriteObuf a v s).ktopValid = s.ktopValid := rfl
@[simp] theorem memWriteObuf_ktopInput : (memWriteObuf a v s).ktopInput = s.ktopInput := rfl
@[simp] theorem memWriteObuf_stretch : (memWriteObuf a v s).stretch = s.stretch := rfl
@[simp] theorem memWriteObuf_offsetMain0 : (memWriteObuf a v s).offsetMain0 = s.offsetMain0 := rfl
@[simp] theorem memWriteObuf_hashLane : (memWriteObuf a v s).hashLane = s.hashLane := rfl
@[simp] theorem memWriteObuf_mainLane : (memWriteObuf a v s).mainLane = s.mainLane := rfl
@[simp] theorem memWriteObuf_macBlock : (memWriteObuf a v s).macBlock = s.macBlock := rfl
@[simp] theorem memWriteObuf_macLen : (memWriteObuf a v s).macLen = s.macLen := rfl
@[simp] theorem memWriteObuf_initAAD : (memWriteObuf a v s).initAAD = s.initAAD := rfl
@[simp] theorem memWriteObuf_initAADLen : (memWriteObuf a v s).initAADLen = s.initAADLen := rfl
@[simp] theorem memWriteObuf_response : (memWriteObuf a v s).response = s.response := rfl
@[simp] theorem memWriteObuf_hpKey : (memWriteObuf a v s).hpKey = s.hpKey := rfl
@[simp] theorem memWriteObuf_mpKey : (memWriteObuf a v s).mpKey = s.mpKey := rfl
@[simp] theorem memWriteObuf_ibuf : (memWriteObuf a v s).ibuf = s.ibuf := rfl
@[simp] theorem memWriteObuf_obuf : (memWriteObuf a v s).obuf = s.obuf.write a v := rfl
@[simp] theorem memWriteObuf_requests : (memWriteObuf a v s).requests = s.requests := rfl
@[simp] theorem memWriteObuf_hostQueue : (memWriteObuf a v s).hostQueue = s.hostQueue := rfl
@[simp] theorem memWriteObuf_draws : (memWriteObuf a v s).draws = s.draws := rfl

end MemWriteObuf

section BufferHashByte
variable (b : Byte) (s : State)

@[simp] theorem bufferHashByte_phase : (bufferHashByte b s).phase = s.phase := rfl
@[simp] theorem bufferHashByte_inited : (bufferHashByte b s).inited = s.inited := rfl
@[simp] theorem bufferHashByte_keyed : (bufferHashByte b s).keyed = s.keyed := rfl
@[simp] theorem bufferHashByte_mode : (bufferHashByte b s).mode = s.mode := rfl
@[simp] theorem bufferHashByte_tagLen : (bufferHashByte b s).tagLen = s.tagLen := rfl
@[simp] theorem bufferHashByte_lStar : (bufferHashByte b s).lStar = s.lStar := rfl
@[simp] theorem bufferHashByte_lDollar : (bufferHashByte b s).lDollar = s.lDollar := rfl
@[simp] theorem bufferHashByte_ladder : (bufferHashByte b s).ladder = s.ladder := rfl
@[simp] theorem bufferHashByte_ktopValid : (bufferHashByte b s).ktopValid = s.ktopValid := rfl
@[simp] theorem bufferHashByte_ktopInput : (bufferHashByte b s).ktopInput = s.ktopInput := rfl
@[simp] theorem bufferHashByte_stretch : (bufferHashByte b s).stretch = s.stretch := rfl
@[simp] theorem bufferHashByte_offsetMain0 : (bufferHashByte b s).offsetMain0 = s.offsetMain0 := rfl
@[simp] theorem bufferHashByte_hashLane : (bufferHashByte b s).hashLane = 
    { s.hashLane with
      hashBuf := setByte s.hashLane.hashBuf s.hashLane.hashPos.toNat b
      hashPos := s.hashLane.hashPos + 1 } := rfl
@[simp] theorem bufferHashByte_mainLane : (bufferHashByte b s).mainLane = s.mainLane := rfl
@[simp] theorem bufferHashByte_macBlock : (bufferHashByte b s).macBlock = s.macBlock := rfl
@[simp] theorem bufferHashByte_macLen : (bufferHashByte b s).macLen = s.macLen := rfl
@[simp] theorem bufferHashByte_initAAD : (bufferHashByte b s).initAAD = s.initAAD := rfl
@[simp] theorem bufferHashByte_initAADLen : (bufferHashByte b s).initAADLen = s.initAADLen := rfl
@[simp] theorem bufferHashByte_response : (bufferHashByte b s).response = s.response := rfl
@[simp] theorem bufferHashByte_hpKey : (bufferHashByte b s).hpKey = s.hpKey := rfl
@[simp] theorem bufferHashByte_mpKey : (bufferHashByte b s).mpKey = s.mpKey := rfl
@[simp] theorem bufferHashByte_ibuf : (bufferHashByte b s).ibuf = s.ibuf := rfl
@[simp] theorem bufferHashByte_obuf : (bufferHashByte b s).obuf = s.obuf := rfl
@[simp] theorem bufferHashByte_requests : (bufferHashByte b s).requests = s.requests := rfl
@[simp] theorem bufferHashByte_hostQueue : (bufferHashByte b s).hostQueue = s.hostQueue := rfl
@[simp] theorem bufferHashByte_draws : (bufferHashByte b s).draws = s.draws := rfl

end BufferHashByte

section BufferMainByte
variable (b : Byte) (s : State)

@[simp] theorem bufferMainByte_phase : (bufferMainByte b s).phase = s.phase := rfl
@[simp] theorem bufferMainByte_inited : (bufferMainByte b s).inited = s.inited := rfl
@[simp] theorem bufferMainByte_keyed : (bufferMainByte b s).keyed = s.keyed := rfl
@[simp] theorem bufferMainByte_mode : (bufferMainByte b s).mode = s.mode := rfl
@[simp] theorem bufferMainByte_tagLen : (bufferMainByte b s).tagLen = s.tagLen := rfl
@[simp] theorem bufferMainByte_lStar : (bufferMainByte b s).lStar = s.lStar := rfl
@[simp] theorem bufferMainByte_lDollar : (bufferMainByte b s).lDollar = s.lDollar := rfl
@[simp] theorem bufferMainByte_ladder : (bufferMainByte b s).ladder = s.ladder := rfl
@[simp] theorem bufferMainByte_ktopValid : (bufferMainByte b s).ktopValid = s.ktopValid := rfl
@[simp] theorem bufferMainByte_ktopInput : (bufferMainByte b s).ktopInput = s.ktopInput := rfl
@[simp] theorem bufferMainByte_stretch : (bufferMainByte b s).stretch = s.stretch := rfl
@[simp] theorem bufferMainByte_offsetMain0 : (bufferMainByte b s).offsetMain0 = s.offsetMain0 := rfl
@[simp] theorem bufferMainByte_hashLane : (bufferMainByte b s).hashLane = s.hashLane := rfl
@[simp] theorem bufferMainByte_mainLane : (bufferMainByte b s).mainLane = 
    { s.mainLane with
      mainBuf := setByte s.mainLane.mainBuf s.mainLane.mainPos.toNat b
      mainPos := s.mainLane.mainPos + 1 } := rfl
@[simp] theorem bufferMainByte_macBlock : (bufferMainByte b s).macBlock = s.macBlock := rfl
@[simp] theorem bufferMainByte_macLen : (bufferMainByte b s).macLen = s.macLen := rfl
@[simp] theorem bufferMainByte_initAAD : (bufferMainByte b s).initAAD = s.initAAD := rfl
@[simp] theorem bufferMainByte_initAADLen : (bufferMainByte b s).initAADLen = s.initAADLen := rfl
@[simp] theorem bufferMainByte_response : (bufferMainByte b s).response = s.response := rfl
@[simp] theorem bufferMainByte_hpKey : (bufferMainByte b s).hpKey = s.hpKey := rfl
@[simp] theorem bufferMainByte_mpKey : (bufferMainByte b s).mpKey = s.mpKey := rfl
@[simp] theorem bufferMainByte_ibuf : (bufferMainByte b s).ibuf = s.ibuf := rfl
@[simp] theorem bufferMainByte_obuf : (bufferMainByte b s).obuf = s.obuf := rfl
@[simp] theorem bufferMainByte_requests : (bufferMainByte b s).requests = s.requests := rfl
@[simp] theorem bufferMainByte_hostQueue : (bufferMainByte b s).hostQueue = s.hostQueue := rfl
@[simp] theorem bufferMainByte_draws : (bufferMainByte b s).draws = s.draws := rfl

end BufferMainByte

section SetInitAAD
variable (bytes : List Byte) (s : State)

@[simp] theorem setInitAAD_phase : (setInitAAD bytes s).phase = s.phase := rfl
@[simp] theorem setInitAAD_inited : (setInitAAD bytes s).inited = s.inited := rfl
@[simp] theorem setInitAAD_keyed : (setInitAAD bytes s).keyed = s.keyed := rfl
@[simp] theorem setInitAAD_mode : (setInitAAD bytes s).mode = s.mode := rfl
@[simp] theorem setInitAAD_tagLen : (setInitAAD bytes s).tagLen = s.tagLen := rfl
@[simp] theorem setInitAAD_lStar : (setInitAAD bytes s).lStar = s.lStar := rfl
@[simp] theorem setInitAAD_lDollar : (setInitAAD bytes s).lDollar = s.lDollar := rfl
@[simp] theorem setInitAAD_ladder : (setInitAAD bytes s).ladder = s.ladder := rfl
@[simp] theorem setInitAAD_ktopValid : (setInitAAD bytes s).ktopValid = s.ktopValid := rfl
@[simp] theorem setInitAAD_ktopInput : (setInitAAD bytes s).ktopInput = s.ktopInput := rfl
@[simp] theorem setInitAAD_stretch : (setInitAAD bytes s).stretch = s.stretch := rfl
@[simp] theorem setInitAAD_offsetMain0 : (setInitAAD bytes s).offsetMain0 = s.offsetMain0 := rfl
@[simp] theorem setInitAAD_hashLane : (setInitAAD bytes s).hashLane = s.hashLane := rfl
@[simp] theorem setInitAAD_mainLane : (setInitAAD bytes s).mainLane = s.mainLane := rfl
@[simp] theorem setInitAAD_macBlock : (setInitAAD bytes s).macBlock = s.macBlock := rfl
@[simp] theorem setInitAAD_macLen : (setInitAAD bytes s).macLen = s.macLen := rfl
@[simp] theorem setInitAAD_initAAD : (setInitAAD bytes s).initAAD = bytes ++ s.initAAD.drop bytes.length := rfl
@[simp] theorem setInitAAD_initAADLen : (setInitAAD bytes s).initAADLen = BitVec.ofNat 32 bytes.length := rfl
@[simp] theorem setInitAAD_response : (setInitAAD bytes s).response = s.response := rfl
@[simp] theorem setInitAAD_hpKey : (setInitAAD bytes s).hpKey = s.hpKey := rfl
@[simp] theorem setInitAAD_mpKey : (setInitAAD bytes s).mpKey = s.mpKey := rfl
@[simp] theorem setInitAAD_ibuf : (setInitAAD bytes s).ibuf = s.ibuf := rfl
@[simp] theorem setInitAAD_obuf : (setInitAAD bytes s).obuf = s.obuf := rfl
@[simp] theorem setInitAAD_requests : (setInitAAD bytes s).requests = s.requests := rfl
@[simp] theorem setInitAAD_hostQueue : (setInitAAD bytes s).hostQueue = s.hostQueue := rfl
@[simp] theorem setInitAAD_draws : (setInitAAD bytes s).draws = s.draws := rfl

end SetInitAAD

section ClearLanes
variable (preserveMac : Bool) (s : State)

@[simp] theorem clearLanes_phase : (clearLanes preserveMac s).phase = s.phase := rfl
@[simp] theorem clearLanes_inited : (clearLanes preserveMac s).inited = s.inited := rfl
@[simp] theorem clearLanes_keyed : (clearLanes preserveMac s).keyed = s.keyed := rfl
@[simp] theorem clearLanes_mode : (clearLanes preserveMac s).mode = s.mode := rfl
@[simp] theorem clearLanes_tagLen : (clearLanes preserveMac s).tagLen = s.tagLen := rfl
@[simp] theorem clearLanes_lStar : (clearLanes preserveMac s).lStar = s.lStar := rfl
@[simp] theorem clearLanes_lDollar : (clearLanes preserveMac s).lDollar = s.lDollar := rfl
@[simp] theorem clearLanes_ladder : (clearLanes preserveMac s).ladder = s.ladder := rfl
@[simp] theorem clearLanes_ktopValid : (clearLanes preserveMac s).ktopValid = s.ktopValid := rfl
@[simp] theorem clearLanes_ktopInput : (clearLanes preserveMac s).ktopInput = s.ktopInput := rfl
@[simp] theorem clearLanes_stretch : (clearLanes preserveMac s).stretch = s.stretch := rfl
@[simp] theorem clearLanes_offsetMain0 : (clearLanes preserveMac s).offsetMain0 = s.offsetMain0 := rfl
@[simp] theorem clearLanes_hashLane : (clearLanes preserveMac s).hashLane = HashLane.zero := rfl
@[simp] theorem clearLanes_mainLane : (clearLanes preserveMac s).mainLane = { MainLane.zero with offsetMain := s.offsetMain0 } := rfl
@[simp] theorem clearLanes_macBlock : (clearLanes preserveMac s).macBlock = (if preserveMac then s.macBlock else zeroBytes 32) := rfl
@[simp] theorem clearLanes_macLen : (clearLanes preserveMac s).macLen = (if preserveMac then s.macLen else 0) := rfl
@[simp] theorem clearLanes_initAAD : (clearLanes preserveMac s).initAAD = s.initAAD := rfl
@[simp] theorem clearLanes_initAADLen : (clearLanes preserveMac s).initAADLen = s.initAADLen := rfl
@[simp] theorem clearLanes_response : (clearLanes preserveMac s).response = s.response := rfl
@[simp] theorem clearLanes_hpKey : (clearLanes preserveMac s).hpKey = s.hpKey := rfl
@[simp] theorem clearLanes_mpKey : (clearLanes preserveMac s).mpKey = s.mpKey := rfl
@[simp] theorem clearLanes_ibuf : (clearLanes preserveMac s).ibuf = s.ibuf := rfl
@[simp] theorem clearLanes_obuf : (clearLanes preserveMac s).obuf = s.obuf := rfl
@[simp] theorem clearLanes_requests : (clearLanes preserveMac s).requests = s.requests := rfl
@[simp] theorem clearLanes_hostQueue : (clearLanes preserveMac s).hostQueue = s.hostQueue := rfl
@[simp] theorem clearLanes_draws : (clearLanes preserveMac s).draws = s.draws := rfl

end ClearLanes

section StoreMac
variable (s : State)

@[simp] theorem storeMac_phase : (storeMac s).phase = s.phase := by unfold storeMac; rfl
@[simp] theorem storeMac_inited : (storeMac s).inited = s.inited := by unfold storeMac; rfl
@[simp] theorem storeMac_keyed : (storeMac s).keyed = s.keyed := by unfold storeMac; rfl
@[simp] theorem storeMac_mode : (storeMac s).mode = s.mode := by unfold storeMac; rfl
@[simp] theorem storeMac_tagLen : (storeMac s).tagLen = s.tagLen := by unfold storeMac; rfl
@[simp] theorem storeMac_lStar : (storeMac s).lStar = s.lStar := by unfold storeMac; rfl
@[simp] theorem storeMac_lDollar : (storeMac s).lDollar = s.lDollar := by unfold storeMac; rfl
@[simp] theorem storeMac_ladder : (storeMac s).ladder = s.ladder := by unfold storeMac; rfl
@[simp] theorem storeMac_ktopValid : (storeMac s).ktopValid = s.ktopValid := by unfold storeMac; rfl
@[simp] theorem storeMac_ktopInput : (storeMac s).ktopInput = s.ktopInput := by unfold storeMac; rfl
@[simp] theorem storeMac_stretch : (storeMac s).stretch = s.stretch := by unfold storeMac; rfl
@[simp] theorem storeMac_offsetMain0 : (storeMac s).offsetMain0 = s.offsetMain0 := by unfold storeMac; rfl
@[simp] theorem storeMac_hashLane : (storeMac s).hashLane = s.hashLane := by unfold storeMac; rfl
@[simp] theorem storeMac_mainLane : (storeMac s).mainLane = s.mainLane := by unfold storeMac; rfl
@[simp] theorem storeMac_macBlock : (storeMac s).macBlock = Vector.ofFn fun i =>
      if i.val < s.tagLen.toNat then byteAt s.mainLane.checksum i.val else s.macBlock[i] := by unfold storeMac; rfl
@[simp] theorem storeMac_macLen : (storeMac s).macLen = s.tagLen := by unfold storeMac; rfl
@[simp] theorem storeMac_initAAD : (storeMac s).initAAD = s.initAAD := by unfold storeMac; rfl
@[simp] theorem storeMac_initAADLen : (storeMac s).initAADLen = s.initAADLen := by unfold storeMac; rfl
@[simp] theorem storeMac_response : (storeMac s).response = s.response := by unfold storeMac; rfl
@[simp] theorem storeMac_hpKey : (storeMac s).hpKey = s.hpKey := by unfold storeMac; rfl
@[simp] theorem storeMac_mpKey : (storeMac s).mpKey = s.mpKey := by unfold storeMac; rfl
@[simp] theorem storeMac_ibuf : (storeMac s).ibuf = s.ibuf := by unfold storeMac; rfl
@[simp] theorem storeMac_obuf : (storeMac s).obuf = s.obuf := by unfold storeMac; rfl
@[simp] theorem storeMac_requests : (storeMac s).requests = s.requests := by unfold storeMac; rfl
@[simp] theorem storeMac_hostQueue : (storeMac s).hostQueue = s.hostQueue := by unfold storeMac; rfl
@[simp] theorem storeMac_draws : (storeMac s).draws = s.draws := by unfold storeMac; rfl

end StoreMac

section Zeroize
variable (s : State)

@[simp] theorem zeroize_phase : (zeroize s).phase = State.reset.phase := rfl
@[simp] theorem zeroize_inited : (zeroize s).inited = State.reset.inited := rfl
@[simp] theorem zeroize_keyed : (zeroize s).keyed = State.reset.keyed := rfl
@[simp] theorem zeroize_mode : (zeroize s).mode = State.reset.mode := rfl
@[simp] theorem zeroize_tagLen : (zeroize s).tagLen = State.reset.tagLen := rfl
@[simp] theorem zeroize_lStar : (zeroize s).lStar = State.reset.lStar := rfl
@[simp] theorem zeroize_lDollar : (zeroize s).lDollar = State.reset.lDollar := rfl
@[simp] theorem zeroize_ladder : (zeroize s).ladder = State.reset.ladder := rfl
@[simp] theorem zeroize_ktopValid : (zeroize s).ktopValid = State.reset.ktopValid := rfl
@[simp] theorem zeroize_ktopInput : (zeroize s).ktopInput = State.reset.ktopInput := rfl
@[simp] theorem zeroize_stretch : (zeroize s).stretch = State.reset.stretch := rfl
@[simp] theorem zeroize_offsetMain0 : (zeroize s).offsetMain0 = State.reset.offsetMain0 := rfl
@[simp] theorem zeroize_hashLane : (zeroize s).hashLane = State.reset.hashLane := rfl
@[simp] theorem zeroize_mainLane : (zeroize s).mainLane = State.reset.mainLane := rfl
@[simp] theorem zeroize_macBlock : (zeroize s).macBlock = State.reset.macBlock := rfl
@[simp] theorem zeroize_macLen : (zeroize s).macLen = State.reset.macLen := rfl
@[simp] theorem zeroize_initAAD : (zeroize s).initAAD = State.reset.initAAD := rfl
@[simp] theorem zeroize_initAADLen : (zeroize s).initAADLen = State.reset.initAADLen := rfl
@[simp] theorem zeroize_response : (zeroize s).response = State.reset.response := rfl
@[simp] theorem zeroize_hpKey : (zeroize s).hpKey = State.reset.hpKey := rfl
@[simp] theorem zeroize_mpKey : (zeroize s).mpKey = State.reset.mpKey := rfl
@[simp] theorem zeroize_ibuf : (zeroize s).ibuf = s.ibuf := rfl
@[simp] theorem zeroize_obuf : (zeroize s).obuf = s.obuf := rfl
@[simp] theorem zeroize_requests : (zeroize s).requests = State.reset.requests := rfl
@[simp] theorem zeroize_hostQueue : (zeroize s).hostQueue = s.hostQueue := rfl
@[simp] theorem zeroize_draws : (zeroize s).draws = s.draws := rfl

end Zeroize

/-! One request to a permutation instance. -/

@[simp] theorem hashPerm_fst (P : Platform) (b : Block) (s : State) : (hashPerm P b s).1 = permEnc P s.hpKey b := rfl
@[simp] theorem hashPerm_snd (P : Platform) (b : Block) (s : State) :
    (hashPerm P b s).2 = logRequest (.enc .hp b) s := rfl

/-- `D(k, E(k, b)) = b` (00_scope.md R10). -/
@[simp] theorem permDec_permEnc (P : Platform) (k : Key) (b : Block) :
    permDec P (some k) (permEnc P (some k) b) = b := by simp [permDec, permEnc]

/-- `E(k, D(k, b)) = b` (00_scope.md R10). -/
@[simp] theorem permEnc_permDec (P : Platform) (k : Key) (b : Block) :
    permEnc P (some k) (permDec P (some k) b) = b := by simp [permDec, permEnc]

end Sys2Proof.Machine
end

