-- ==== Sys2Proof/Laws/Ladder.lean ====
section
/-! SUPPORT. `ntz` and the L ladder (spec/40_gf_double_ladder.md R112, R114 to R116): what `Lsub` answers and what it
does to the ladder. -/

namespace Sys2Proof.Machine

open Sys2Proof.Safety

theorem ntzLoop_dvd : ∀ (fuel n : Nat), 2 ^ ntzLoop fuel n ∣ n
  | 0, n => by simp [ntzLoop]
  | fuel + 1, n => by
    simp only [ntzLoop]
    split
    · have h := ntzLoop_dvd fuel (n / 2)
      rw [Nat.pow_succ, show n = n / 2 * 2 by omega]
      simpa using Nat.mul_dvd_mul_right h 2
    · simp

theorem ntzLoop_maximal : ∀ (fuel n : Nat), n ≠ 0 → n < 2 ^ fuel → ¬ 2 ^ (ntzLoop fuel n + 1) ∣ n
  | 0, n, h0, hn => by simp at hn; omega
  | fuel + 1, n, h0, hn => by
    simp only [ntzLoop]
    split
    · rename_i h
      have ih := ntzLoop_maximal fuel (n / 2) (by omega) (by rw [Nat.pow_succ] at hn; omega)
      intro hd
      apply ih
      have he : n = n / 2 * 2 := by omega
      rw [Nat.pow_succ] at hd
      exact Nat.dvd_of_mul_dvd_mul_right (k := 2) (by decide) (by rwa [← he])
    · rename_i h
      intro hd
      have := Nat.mod_eq_zero_of_dvd (by simpa using hd : 2 ∣ n)
      omega

/-- R112: `2^(ntz n)` divides a non-zero `n`. -/
theorem ntz_dvd {n : BitVec 64} (h : n ≠ 0) : 2 ^ ntz n ∣ n.toNat := by
  simp only [ntz, h, if_false]
  exact ntzLoop_dvd 64 n.toNat

/-- R112: and no higher power of two does. -/
theorem ntz_maximal {n : BitVec 64} (h : n ≠ 0) : ¬ 2 ^ (ntz n + 1) ∣ n.toNat := by
  simp only [ntz, h, if_false]
  exact ntzLoop_maximal 64 n.toNat (fun h0 => h (BitVec.eq_of_toNat_eq (by simpa using h0))) n.isLt

theorem ntz_pow_le {n : BitVec 64} (h : n ≠ 0) : 2 ^ ntz n ≤ n.toNat :=
  Nat.le_of_dvd (Nat.pos_of_ne_zero fun h0 => h (BitVec.eq_of_toNat_eq (by simpa using h0))) (ntz_dvd h)

/-- R116: the argument of every `Lsub` is at most 63. -/
theorem ntz_lt {n : BitVec 64} (h : n ≠ 0) : ntz n < 64 :=
  (Nat.pow_lt_pow_iff_right (by decide)).mp (Nat.lt_of_le_of_lt (ntz_pow_le h) n.isLt)

theorem length_growLadder (lD : Block) : ∀ (fuel : Nat) (l : List Block),
    (growLadder lD fuel l).length = l.length + fuel
  | 0, l => rfl
  | fuel + 1, l => by simp [growLadder, length_growLadder lD fuel]; omega

theorem prefix_growLadder (lD : Block) : ∀ (fuel : Nat) (l : List Block), l <+: growLadder lD fuel l
  | 0, l => List.prefix_refl l
  | fuel + 1, l => (List.prefix_append l _).trans (prefix_growLadder lD fuel _)

/-- R114: after `Lsub(n)` entry `n` exists, and no more entries than needed were appended. -/
theorem length_ladderUpTo (lD : Block) (n : Nat) (l : List Block) :
    (ladderUpTo lD n l).length = max l.length (n + 1) := by
  rw [ladderUpTo, length_growLadder]; omega

/-- R27: entries are never changed or removed. -/
theorem prefix_ladderUpTo (lD : Block) (n : Nat) (l : List Block) : l <+: ladderUpTo lD n l :=
  prefix_growLadder lD _ l

theorem ladderOk_nil (lD : Block) : LadderOk lD [] := fun n h => by simp at h

theorem ladderOk_getLastD {lD : Block} {l : List Block} (h : LadderOk lD l) :
    l.getLastD lD = doubleIter l.length lD := by
  rw [List.getLastD_eq_getLast?, List.getLast?_eq_getElem?]
  by_cases hl : l.length = 0
  · simp [List.length_eq_zero_iff.mp hl, doubleIter]
  · have hlt : l.length - 1 < l.length := by omega
    rw [List.getElem?_eq_getElem hlt, Option.getD_some, h _ hlt, Nat.sub_add_cancel (by omega)]

theorem ladderOk_growLadder {lD : Block} : ∀ (fuel : Nat) {l : List Block}, LadderOk lD l →
    LadderOk lD (growLadder lD fuel l)
  | 0, _, h => h
  | fuel + 1, l, h => by
    refine ladderOk_growLadder fuel fun n hn => ?_
    by_cases hlt : n < l.length
    · rw [List.getElem_append_left hlt]; exact h n hlt
    · have hn' : n = l.length := by simp at hn; omega
      subst hn'
      simp only [List.getElem_append_right (Nat.le_refl _), Nat.sub_self, List.getElem_cons_zero]
      rw [ladderOk_getLastD h, doubleIter]

/-- R114 keeps the ladder's closed form. -/
theorem ladderOk_ladderUpTo {lD : Block} {l : List Block} (n : Nat) (h : LadderOk lD l) :
    LadderOk lD (ladderUpTo lD n l) := ladderOk_growLadder _ h

/-- R115: what `Lsub` answers, whatever the earlier calls were. -/
theorem lsub_fst {s : State} (h : LadderOk s.lDollar s.ladder) (n : Nat) :
    (lsub n s).1 = doubleIter (n + 1) s.lDollar := by
  have hlen : n < (ladderUpTo s.lDollar n s.ladder).length := by rw [length_ladderUpTo]; omega
  simp only [lsub, List.getD_eq_getElem?_getD, List.getElem?_eq_getElem hlen, Option.getD_some]
  exact ladderOk_ladderUpTo n h n hlen

/-- `Lsub` changes nothing but the ladder. -/
theorem lsub_snd (n : Nat) (s : State) :
    (lsub n s).2 = { s with ladder := ladderUpTo s.lDollar n s.ladder } := rfl

/-- R42, R116: a counter below `2^len` that is counted up stays below `2^len` of the ladder `Lsub` leaves. -/
theorem count_lt_after_lsub {c : BitVec 64} {l : List Block} (lD : Block) (h : c.toNat < 2 ^ l.length)
    (hw : c.toNat + 1 < 2 ^ 64) : (c + 1).toNat < 2 ^ (ladderUpTo lD (ntz (c + 1)) l).length := by
  have hc : (c + 1).toNat = c.toNat + 1 := by
    rw [BitVec.toNat_add]; simpa using hw
  have hne : c + 1 ≠ 0 := fun h0 => by rw [h0] at hc; simp at hc
  rw [length_ladderUpTo, hc]
  by_cases hlt : c.toNat + 1 < 2 ^ l.length
  · exact Nat.lt_of_lt_of_le hlt (Nat.pow_le_pow_right (by decide) (Nat.le_max_left _ _))
  · have heq : c.toNat + 1 = 2 ^ l.length := by omega
    have hm := ntz_maximal hne
    rw [hc, heq] at hm
    have : l.length < ntz (c + 1) + 1 := Nat.lt_of_not_le fun hle => hm (Nat.pow_dvd_pow 2 hle)
    rw [heq]
    exact Nat.pow_lt_pow_right (by decide) (Nat.lt_of_lt_of_le this (Nat.le_max_right _ _))

/-- R42: an entry exists for `ntz` of every non-zero counter value below `2^len`. -/
theorem ntz_lt_of_lt_pow {c : BitVec 64} (hne : c ≠ 0) {len : Nat} (h : c.toNat < 2 ^ len) : ntz c < len :=
  (Nat.pow_lt_pow_iff_right (by decide)).mp (Nat.lt_of_le_of_lt (ntz_pow_le hne) h)

end Sys2Proof.Machine
end

