-- ==== Sys2Proof/Laws/HashLane.lean ====
section
/-! SUPPORT. The hash lane (spec/42_hash_lane.md): what `absorb` and `finalizeHash` can change, where they leave the
position and the counter, and that the lane's values are a function of the lane, the key and `L_dollar` alone. -/

namespace Sys2Proof.Machine

open Sys2Proof.Safety

/-- `t` is `s` but for the hash lane, the ladder and the request trace. -/
def OnlyHash (s t : State) : Prop :=
  t = { s with hashLane := t.hashLane, ladder := t.ladder, requests := t.requests }

theorem onlyHash_phase {s t : State} (h : OnlyHash s t) : t.phase = s.phase := by rw [h]
theorem onlyHash_inited {s t : State} (h : OnlyHash s t) : t.inited = s.inited := by rw [h]
theorem onlyHash_keyed {s t : State} (h : OnlyHash s t) : t.keyed = s.keyed := by rw [h]
theorem onlyHash_mode {s t : State} (h : OnlyHash s t) : t.mode = s.mode := by rw [h]
theorem onlyHash_tagLen {s t : State} (h : OnlyHash s t) : t.tagLen = s.tagLen := by rw [h]
theorem onlyHash_lStar {s t : State} (h : OnlyHash s t) : t.lStar = s.lStar := by rw [h]
theorem onlyHash_lDollar {s t : State} (h : OnlyHash s t) : t.lDollar = s.lDollar := by rw [h]
theorem onlyHash_ktopValid {s t : State} (h : OnlyHash s t) : t.ktopValid = s.ktopValid := by rw [h]
theorem onlyHash_ktopInput {s t : State} (h : OnlyHash s t) : t.ktopInput = s.ktopInput := by rw [h]
theorem onlyHash_stretch {s t : State} (h : OnlyHash s t) : t.stretch = s.stretch := by rw [h]
theorem onlyHash_offsetMain0 {s t : State} (h : OnlyHash s t) : t.offsetMain0 = s.offsetMain0 := by rw [h]
theorem onlyHash_mainLane {s t : State} (h : OnlyHash s t) : t.mainLane = s.mainLane := by rw [h]
theorem onlyHash_macBlock {s t : State} (h : OnlyHash s t) : t.macBlock = s.macBlock := by rw [h]
theorem onlyHash_macLen {s t : State} (h : OnlyHash s t) : t.macLen = s.macLen := by rw [h]
theorem onlyHash_initAAD {s t : State} (h : OnlyHash s t) : t.initAAD = s.initAAD := by rw [h]
theorem onlyHash_initAADLen {s t : State} (h : OnlyHash s t) : t.initAADLen = s.initAADLen := by rw [h]
theorem onlyHash_response {s t : State} (h : OnlyHash s t) : t.response = s.response := by rw [h]
theorem onlyHash_hpKey {s t : State} (h : OnlyHash s t) : t.hpKey = s.hpKey := by rw [h]
theorem onlyHash_mpKey {s t : State} (h : OnlyHash s t) : t.mpKey = s.mpKey := by rw [h]
theorem onlyHash_ibuf {s t : State} (h : OnlyHash s t) : t.ibuf = s.ibuf := by rw [h]
theorem onlyHash_obuf {s t : State} (h : OnlyHash s t) : t.obuf = s.obuf := by rw [h]
theorem onlyHash_hostQueue {s t : State} (h : OnlyHash s t) : t.hostQueue = s.hostQueue := by rw [h]
theorem onlyHash_draws {s t : State} (h : OnlyHash s t) : t.draws = s.draws := by rw [h]

theorem onlyHash_refl (s : State) : OnlyHash s s := rfl

theorem onlyHash_trans {s t u : State} (h : OnlyHash s t) (h' : OnlyHash t u) : OnlyHash s u := by
  unfold OnlyHash at *
  rw [h', h]

/-- R151 in one record. -/
theorem processFullHashBlock_eq (P : Platform) (s : State) :
    processFullHashBlock P s =
      { s with
        ladder := ladderUpTo s.lDollar (ntz (s.hashLane.hashCount + 1)) s.ladder
        requests := s.requests ++
          [.enc .hp (xorBytes s.hashLane.hashBuf
            (xorBytes s.hashLane.offsetHash (lsub (ntz (s.hashLane.hashCount + 1)) s).1))]
        hashLane :=
          { hashBuf := permEnc P s.hpKey (xorBytes s.hashLane.hashBuf
              (xorBytes s.hashLane.offsetHash (lsub (ntz (s.hashLane.hashCount + 1)) s).1))
            hashPos := 0
            hashCount := s.hashLane.hashCount + 1
            offsetHash := xorBytes s.hashLane.offsetHash (lsub (ntz (s.hashLane.hashCount + 1)) s).1
            sum := xorBytes s.hashLane.sum (permEnc P s.hpKey (xorBytes s.hashLane.hashBuf
              (xorBytes s.hashLane.offsetHash (lsub (ntz (s.hashLane.hashCount + 1)) s).1))) } } := rfl

theorem absorbByte_eq (P : Platform) (s : State) (b : Byte) :
    absorbByte P s b =
      if s.hashLane.hashPos + 1 = 16 then processFullHashBlock P (bufferHashByte b s) else bufferHashByte b s := rfl

theorem onlyHash_absorbByte (P : Platform) (s : State) (b : Byte) : OnlyHash s (absorbByte P s b) := by
  rw [absorbByte_eq]
  split
  · rw [processFullHashBlock_eq]; rfl
  · rfl

/-- `absorb` changes the hash lane, the ladder and the request trace, and nothing else (R153). -/
theorem onlyHash_absorb (P : Platform) : ∀ (bytes : List Byte) (s : State), OnlyHash s (absorb P bytes s)
  | [], _ => rfl
  | b :: bytes, s => onlyHash_trans (onlyHash_absorbByte P s b) (onlyHash_absorb P bytes _)

/-- R154: absorbing two strings is absorbing their concatenation. -/
theorem absorb_append (P : Platform) (a b : List Byte) (s : State) :
    absorb P (a ++ b) s = absorb P b (absorb P a s) := List.foldl_append

@[simp] theorem absorb_nil (P : Platform) (s : State) : absorb P [] s = s := rfl

theorem absorb_cons (P : Platform) (b : Byte) (bytes : List Byte) (s : State) :
    absorb P (b :: bytes) s = absorb P bytes (absorbByte P s b) := rfl

/-- R152 in one record. -/
theorem finalizeHash_eq (P : Platform) (s : State) :
    finalizeHash P s =
      if s.hashLane.hashPos = 0 then s
      else
        { s with
          requests := s.requests ++ [.enc .hp (xorBytes (extend s.hashLane.hashBuf s.hashLane.hashPos.toNat)
            (xorBytes s.hashLane.offsetHash s.lStar))]
          hashLane := { s.hashLane with
            hashBuf := permEnc P s.hpKey (xorBytes (extend s.hashLane.hashBuf s.hashLane.hashPos.toNat)
              (xorBytes s.hashLane.offsetHash s.lStar))
            offsetHash := xorBytes s.hashLane.offsetHash s.lStar
            sum := xorBytes s.hashLane.sum
              (permEnc P s.hpKey (xorBytes (extend s.hashLane.hashBuf s.hashLane.hashPos.toNat)
                (xorBytes s.hashLane.offsetHash s.lStar))) } } := rfl

/-- `finalizeHash` changes the hash lane and the request trace, and nothing else. -/
theorem onlyHash_finalizeHash (P : Platform) (s : State) : OnlyHash s (finalizeHash P s) := by
  rw [finalizeHash_eq]
  split <;> rfl

/-! The lane as a function of itself, the key and `L_dollar`. -/

/-- R151 with the ladder's closed form. -/
def hashBlockOf (E : Block → Block) (lD : Block) (h : HashLane) : HashLane :=
  let count := h.hashCount + 1
  let offset := xorBytes h.offsetHash (ladderEntry lD (ntz count))
  let block := E (xorBytes h.hashBuf offset)
  { hashBuf := block, hashPos := 0, hashCount := count, offsetHash := offset, sum := xorBytes h.sum block }

/-- R153, one byte. -/
def hashByteOf (E : Block → Block) (lD : Block) (h : HashLane) (b : Byte) : HashLane :=
  let h := { h with hashBuf := setByte h.hashBuf h.hashPos.toNat b, hashPos := h.hashPos + 1 }
  if h.hashPos = 16 then hashBlockOf E lD h else h

/-- What one byte does to the ladder, the trace and the lane. -/
theorem absorbByte_spec (P : Platform) {s : State} (b : Byte) (hl : LadderOk s.lDollar s.ladder) :
    LadderOk s.lDollar (absorbByte P s b).ladder ∧
    (absorbByte P s b).hashLane = hashByteOf (permEnc P s.hpKey) s.lDollar s.hashLane b := by
  rw [absorbByte_eq, hashByteOf]
  by_cases h : s.hashLane.hashPos + 1 = 16
  · rw [if_pos h, processFullHashBlock_eq, if_pos h]
    refine ⟨ladderOk_ladderUpTo _ hl, ?_⟩
    rw [lsub_fst (by exact hl)]
    rfl
  · rw [if_neg h, if_neg h]
    exact ⟨hl, rfl⟩

theorem ladderOk_absorb (P : Platform) : ∀ (bytes : List Byte) {s : State}, LadderOk s.lDollar s.ladder →
    LadderOk s.lDollar (absorb P bytes s).ladder
  | [], _, h => h
  | b :: bytes, s, h => by
    have ho := onlyHash_absorbByte P s b
    have hd : (absorbByte P s b).lDollar = s.lDollar := onlyHash_lDollar ho
    have := ladderOk_absorb P bytes (s := absorbByte P s b) (by rw [hd]; exact (absorbByte_spec P b h).1)
    rwa [hd] at this

/-- The hash lane after `absorb`: independent of the ladder's length (R115) and of everything but the lane, the key
and `L_dollar`. -/
theorem absorb_hashLane (P : Platform) : ∀ (bytes : List Byte) {s : State}, LadderOk s.lDollar s.ladder →
    (absorb P bytes s).hashLane = bytes.foldl (hashByteOf (permEnc P s.hpKey) s.lDollar) s.hashLane
  | [], _, _ => rfl
  | b :: bytes, s, h => by
    have ho := onlyHash_absorbByte P s b
    have hd : (absorbByte P s b).lDollar = s.lDollar := onlyHash_lDollar ho
    have hk : (absorbByte P s b).hpKey = s.hpKey := onlyHash_hpKey ho
    have := absorb_hashLane P bytes (s := absorbByte P s b) (by rw [hd]; exact (absorbByte_spec P b h).1)
    rw [absorb_cons, this, hd, hk, (absorbByte_spec P b h).2, List.foldl_cons]

/-! Positions, counters, the ladder's length, the requests. -/

/-- What one byte does to the counts, while the counter cannot wrap. -/
structure HashCounts (s t : State) (n : Nat) : Prop where
  pos : t.hashLane.hashPos.toNat = (s.hashLane.hashPos.toNat + n) % 16
  count : t.hashLane.hashCount.toNat = s.hashLane.hashCount.toNat + (s.hashLane.hashPos.toNat + n) / 16
  grown : s.ladder <+: t.ladder
  ladder : s.hashLane.hashCount.toNat < 2 ^ s.ladder.length → t.hashLane.hashCount.toNat < 2 ^ t.ladder.length
  short : s.ladder.length ≤ 64 → t.ladder.length ≤ 64
  requests : ∃ r : List Block, r.length = (s.hashLane.hashPos.toNat + n) / 16 ∧
    t.requests = s.requests ++ r.map (.enc .hp)

theorem hashCounts_absorbByte (P : Platform) {s : State} (b : Byte) (hp : s.hashLane.hashPos.toNat < 16)
    (hw : s.hashLane.hashCount.toNat + (s.hashLane.hashPos.toNat + 1) / 16 < 2 ^ 64) :
    HashCounts s (absorbByte P s b) 1 := by
  have hpos : (s.hashLane.hashPos + 1).toNat = s.hashLane.hashPos.toNat + 1 := by
    rw [BitVec.toNat_add]; simp; omega
  have h16 : s.hashLane.hashPos + 1 = 16 ↔ s.hashLane.hashPos.toNat + 1 = 16 := by
    rw [← BitVec.toNat_inj, hpos]; simp
  rw [absorbByte_eq]
  by_cases h : s.hashLane.hashPos + 1 = 16
  · rw [if_pos h]
    have h15 : s.hashLane.hashPos.toNat = 15 := by have := h16.mp h; omega
    rw [processFullHashBlock_eq]
    have hw' : s.hashLane.hashCount.toNat + 1 < 2 ^ 64 := by rw [h15] at hw; simpa using hw
    have hc : (s.hashLane.hashCount + 1).toNat = s.hashLane.hashCount.toNat + 1 := by
      rw [BitVec.toNat_add]; simpa using hw'
    have hne : s.hashLane.hashCount + 1 ≠ 0 := fun h0 => by rw [h0] at hc; simp at hc
    refine ⟨by simp [h15], by simp only [bufferHashByte_hashLane, hc, h15], prefix_ladderUpTo _ _ _, fun h => ?_, fun h => ?_,
      ⟨[_], by simp [h15], rfl⟩⟩
    · exact count_lt_after_lsub s.lDollar h hw'
    · simp only [length_ladderUpTo, bufferHashByte_ladder, bufferHashByte_hashLane] at h ⊢
      have := ntz_lt hne
      omega
  · rw [if_neg h]
    have hlt : s.hashLane.hashPos.toNat + 1 < 16 := by
      have : s.hashLane.hashPos.toNat + 1 ≠ 16 := fun he => h (h16.mpr he)
      omega
    refine ⟨?_, ?_, List.prefix_refl _, id, id, ⟨[], ?_, by simp⟩⟩
    · simp only [bufferHashByte, hpos]; omega
    · simp only [bufferHashByte]; omega
    · simp; omega

theorem hashCounts_trans {s t u : State} {m n : Nat} (h : HashCounts s t m) (h' : HashCounts t u n) :
    HashCounts s u (m + n) := by
  refine ⟨?_, ?_, h.grown.trans h'.grown, fun hh => h'.ladder (h.ladder hh), fun hh => h'.short (h.short hh), ?_⟩
  · rw [h'.pos, h.pos]; omega
  · rw [h'.count, h.count, h.pos]; omega
  · obtain ⟨r, hr, hq⟩ := h.requests
    obtain ⟨r', hr', hq'⟩ := h'.requests
    refine ⟨r ++ r', ?_, by rw [hq', hq]; simp⟩
    rw [List.length_append, hr, hr', h.pos]; omega

/-- R150, R153, R320: where `absorb` leaves the position, the counter, the ladder and the request trace. -/
theorem hashCounts_absorb (P : Platform) : ∀ (bytes : List Byte) {s : State}, s.hashLane.hashPos.toNat < 16 →
    s.hashLane.hashCount.toNat + (s.hashLane.hashPos.toNat + bytes.length) / 16 < 2 ^ 64 →
    HashCounts s (absorb P bytes s) bytes.length
  | [], s, hp, hw => ⟨by simp; omega, by simp; omega, List.prefix_refl _, id, id, [], by simp; omega, by simp⟩
  | b :: bytes, s, hp, hw => by
    simp only [List.length_cons] at hw
    have h1 := hashCounts_absorbByte P b hp (by omega)
    have h2 := hashCounts_absorb P bytes (s := absorbByte P s b) (by rw [h1.pos]; omega)
      (by rw [h1.pos, h1.count]; omega)
    have := hashCounts_trans h1 h2
    rwa [Nat.add_comm] at this

/-- R27: `absorb` never removes a ladder entry. -/
theorem prefix_absorb (P : Platform) : ∀ (bytes : List Byte) (s : State), s.ladder <+: (absorb P bytes s).ladder
  | [], _ => List.prefix_refl _
  | b :: bytes, s => by
    refine List.IsPrefix.trans ?_ (prefix_absorb P bytes (absorbByte P s b))
    rw [absorbByte_eq]
    split
    · rw [processFullHashBlock_eq]; exact prefix_ladderUpTo _ _ _
    · exact List.prefix_refl _

end Sys2Proof.Machine
end

