-- ==== Sys2Proof/Laws/Memory.lean ====
section
/-! SUPPORT. The sparse buffer space: a read after a write, a write leaves every other address alone, and every
operation keeps the canonical form (spec/20_memory.md R60, R61). -/

namespace Sys2Proof.Machine.Memory

theorem rises_mono {lo lo' : Nat} (h : lo' ≤ lo) : ∀ {m : Memory}, rises lo m = true → rises lo' m = true
  | [], _ => rfl
  | (a, b) :: m, hm => by
    simp only [rises, Bool.and_eq_true, decide_eq_true_eq] at hm ⊢
    exact ⟨by omega, hm.2⟩

theorem get?_eq_none_of_rises {lo x : Nat} (h : x < lo) : ∀ {m : Memory}, rises lo m = true → get? m x = none
  | [], _ => rfl
  | (a, b) :: m, hm => by
    simp only [rises, Bool.and_eq_true, decide_eq_true_eq] at hm
    simp [get?, show x ≠ a by omega, show x < a by omega]

theorem rises_set {lo x : Nat} (v : Byte) (hx : lo ≤ x) :
    ∀ {m : Memory}, rises lo m = true → rises lo (set m x v) = true
  | [], _ => by simp [set, rises, hx]
  | (a, b) :: m, hm => by
    simp only [rises, Bool.and_eq_true, decide_eq_true_eq] at hm
    simp only [set]
    split
    · subst x; simp [rises, hm]
    split
    · simp only [rises, Bool.and_eq_true, decide_eq_true_eq]
      exact ⟨hx, by omega, hm.2⟩
    · simp only [rises, Bool.and_eq_true, decide_eq_true_eq]
      exact ⟨hm.1, rises_set v (by omega) hm.2⟩

/-- A write of one byte keeps the canonical form. -/
theorem wf_set {m : Memory} (x : Nat) (v : Byte) (h : wf m = true) : wf (set m x v) = true :=
  rises_set v (Nat.zero_le x) h

/-- A write of a byte string keeps the canonical form. -/
theorem wf_write : ∀ (vs : List Byte) {m : Memory} (a : Nat), wf m = true → wf (write m a vs) = true
  | [], _, _, h => h
  | v :: vs, _, a, h => wf_write vs (a + 1) (wf_set a v h)

theorem get?_set_rises {lo x : Nat} (v : Byte) (y : Nat) :
    ∀ {m : Memory}, rises lo m = true → get? (set m x v) y = if y = x then some v else get? m y
  | [], _ => by
    simp only [set, get?]
    split
    · rfl
    · split <;> rfl
  | (a, b) :: m, hm => by
    simp only [rises, Bool.and_eq_true, decide_eq_true_eq] at hm
    have ih := get?_set_rises (x := x) v y hm.2
    simp only [set]
    split
    · subst x
      simp only [get?]
      split <;> rfl
    split
    · by_cases hy : y = x
      · simp [get?, hy]
      · by_cases hlt : y < x
        · simp [get?, hy, hlt, show y ≠ a by omega, show y < a by omega]
        · simp [get?, hy, hlt]
    · by_cases hy : y = x
      · subst y
        simp only [get?, ih]
        simp [*]
      · simp only [get?, ih, hy, if_false]

/-- Reading after a write of one byte. -/
theorem get?_set {m : Memory} (h : wf m = true) (x : Nat) (v : Byte) (y : Nat) :
    get? (set m x v) y = if y = x then some v else get? m y :=
  get?_set_rises v y h

/-- Reading outside a written string: nothing changed. -/
theorem get?_write_of_not_mem : ∀ (vs : List Byte) {m : Memory} (_ : wf m = true) {a x : Nat},
    ¬ (a ≤ x ∧ x < a + vs.length) → get? (write m a vs) x = get? m x
  | [], _, _, _, _, _ => rfl
  | v :: vs, m, hm, a, x, hx => by
    simp only [List.length_cons] at hx
    rw [write, get?_write_of_not_mem vs (wf_set a v hm) (by omega), get?_set hm]
    simp [show x ≠ a by omega]

/-- Reading inside a written string: its byte. -/
theorem get?_write_of_lt : ∀ (vs : List Byte) {m : Memory} (_ : wf m = true) (a : Nat) {i : Nat} (h : i < vs.length),
    get? (write m a vs) (a + i) = some vs[i]
  | v :: vs, m, hm, a, 0, _ => by
    rw [write, get?_write_of_not_mem vs (wf_set a v hm) (by omega), get?_set hm]
    simp
  | v :: vs, m, hm, a, i + 1, h => by
    have := get?_write_of_lt vs (wf_set a v hm) (a + 1) (i := i) (by simpa using h)
    rw [write, show a + (i + 1) = a + 1 + i by omega, this]
    simp

/-- Writing two strings one behind the other is writing their concatenation. -/
theorem write_append : ∀ (v w : List Byte) (m : Memory) (a : Nat),
    write m a (v ++ w) = write (write m a v) (a + v.length) w
  | [], _, _, _ => rfl
  | b :: v, w, m, a => by
    simp only [List.cons_append, write, write_append v w, List.length_cons]
    congr 1
    omega

theorem below_set {size x : Nat} (v : Byte) (hx : x < size) :
    ∀ {m : Memory}, below size m = true → below size (set m x v) = true
  | [], _ => by simp [set, below, hx]
  | (a, b) :: m, hm => by
    simp only [below, List.all_cons, Bool.and_eq_true, decide_eq_true_eq] at hm
    have ih := below_set (m := m) v hx hm.2
    simp only [set]
    split
    · simpa [below, hx] using hm.2
    split
    · simpa [below, hx, hm.1] using hm.2
    · simpa [below, hm.1] using ih

/-- A write inside the space lists no address outside it. -/
theorem below_write {size : Nat} : ∀ (vs : List Byte) {m : Memory} (a : Nat), a + vs.length ≤ size →
    below size m = true → below size (write m a vs) = true
  | [], _, _, _, h => h
  | v :: vs, _, a, ha, h => by
    simp only [List.length_cons] at ha
    exact below_write vs (a + 1) (by omega) (below_set v (by omega) h)

/-! How far a command's output got (R66, R300). -/

/-- Writing again the byte an address holds changes nothing. -/
theorem set_get? {x : Nat} {v : Byte} : ∀ {m : Memory}, get? m x = some v → set m x v = m
  | [], h => by cases h
  | (a, b) :: m, h => by
    simp only [get?] at h
    simp only [set]
    split at h
    · cases h; subst x; simp
    split at h
    · cases h
    · simp [*, set_get? h]

theorem upTo_self (m : Memory) (a : Nat) : ∀ n, upTo m m a n = m
  | 0 => rfl
  | n + 1 => by
    rw [upTo, upTo_self m a n]
    split
    · exact set_get? ‹_›
    · rfl

/-- Cutting an output short keeps the canonical form. -/
theorem wf_upTo {m : Memory} (h : wf m = true) (after : Memory) (a : Nat) : ∀ n, wf (upTo m after a n) = true
  | 0 => h
  | n + 1 => by
    rw [upTo]
    split
    · exact wf_set _ _ (wf_upTo h after a n)
    · exact wf_upTo h after a n

theorem lt_of_get? {size x : Nat} {v : Byte} : ∀ {m : Memory}, below size m = true → get? m x = some v → x < size
  | [], _, h => by cases h
  | (a, b) :: m, hm, h => by
    simp only [below, List.all_cons, Bool.and_eq_true, decide_eq_true_eq] at hm
    simp only [get?] at h
    split at h
    · omega
    split at h
    · cases h
    · exact lt_of_get? (m := m) hm.2 h

/-- Cutting an output short lists no address the output does not list. -/
theorem below_upTo {size : Nat} {m after : Memory} (h : below size m = true) (h' : below size after = true) (a : Nat) :
    ∀ n, below size (upTo m after a n) = true
  | 0 => h
  | n + 1 => by
    rw [upTo]
    split
    · exact below_set _ (lt_of_get? h' ‹_›) (below_upTo h h' a n)
    · exact below_upTo h h' a n

/-- Of a written string, the first `n` bytes. -/
theorem upTo_write {m : Memory} (h : wf m = true) (a : Nat) (v : List Byte) :
    ∀ n, upTo m (write m a v) a n = write m a (v.take n)
  | 0 => by simp [upTo, write]
  | n + 1 => by
    rw [upTo, upTo_write h a v n]
    by_cases hn : n < v.length
    · rw [get?_write_of_lt v h a hn, List.take_succ_eq_append_getElem hn, write_append, List.length_take,
        Nat.min_eq_left (Nat.le_of_lt hn)]
      rfl
    · rw [get?_write_of_not_mem v h (by omega), List.take_of_length_le (by omega),
        List.take_of_length_le (by omega)]
      split
      · rename_i b hb
        exact set_get? (by rw [get?_write_of_not_mem v h (by omega), hb])
      · rfl

end Sys2Proof.Machine.Memory
end

