-- ==== Sys2Proof/Laws/CryptLane.lean ====
section
/-! SUPPORT. The crypt lane (spec/43_crypt_lane.md): what FEEDMSG's byte loop can change, how many bytes it writes and
where it leaves the position and the counter (R173, R176), and that the lane's values are a function of the lane, the
key, the mode, the tag length and `L_dollar` alone. -/

namespace Sys2Proof.Machine

open Sys2Proof.Safety

/-- `t` is `s` but for the crypt lane, the ladder, OBUF and the request trace. -/
def OnlyMain (s t : State) : Prop :=
  t = { s with mainLane := t.mainLane, ladder := t.ladder, requests := t.requests, obuf := t.obuf }

theorem onlyMain_phase {s t : State} (h : OnlyMain s t) : t.phase = s.phase := by rw [h]
theorem onlyMain_inited {s t : State} (h : OnlyMain s t) : t.inited = s.inited := by rw [h]
theorem onlyMain_keyed {s t : State} (h : OnlyMain s t) : t.keyed = s.keyed := by rw [h]
theorem onlyMain_mode {s t : State} (h : OnlyMain s t) : t.mode = s.mode := by rw [h]
theorem onlyMain_tagLen {s t : State} (h : OnlyMain s t) : t.tagLen = s.tagLen := by rw [h]
theorem onlyMain_lStar {s t : State} (h : OnlyMain s t) : t.lStar = s.lStar := by rw [h]
theorem onlyMain_lDollar {s t : State} (h : OnlyMain s t) : t.lDollar = s.lDollar := by rw [h]
theorem onlyMain_ktopValid {s t : State} (h : OnlyMain s t) : t.ktopValid = s.ktopValid := by rw [h]
theorem onlyMain_ktopInput {s t : State} (h : OnlyMain s t) : t.ktopInput = s.ktopInput := by rw [h]
theorem onlyMain_stretch {s t : State} (h : OnlyMain s t) : t.stretch = s.stretch := by rw [h]
theorem onlyMain_offsetMain0 {s t : State} (h : OnlyMain s t) : t.offsetMain0 = s.offsetMain0 := by rw [h]
theorem onlyMain_hashLane {s t : State} (h : OnlyMain s t) : t.hashLane = s.hashLane := by rw [h]
theorem onlyMain_macBlock {s t : State} (h : OnlyMain s t) : t.macBlock = s.macBlock := by rw [h]
theorem onlyMain_macLen {s t : State} (h : OnlyMain s t) : t.macLen = s.macLen := by rw [h]
theorem onlyMain_initAAD {s t : State} (h : OnlyMain s t) : t.initAAD = s.initAAD := by rw [h]
theorem onlyMain_initAADLen {s t : State} (h : OnlyMain s t) : t.initAADLen = s.initAADLen := by rw [h]
theorem onlyMain_response {s t : State} (h : OnlyMain s t) : t.response = s.response := by rw [h]
theorem onlyMain_hpKey {s t : State} (h : OnlyMain s t) : t.hpKey = s.hpKey := by rw [h]
theorem onlyMain_mpKey {s t : State} (h : OnlyMain s t) : t.mpKey = s.mpKey := by rw [h]
theorem onlyMain_ibuf {s t : State} (h : OnlyMain s t) : t.ibuf = s.ibuf := by rw [h]
theorem onlyMain_hostQueue {s t : State} (h : OnlyMain s t) : t.hostQueue = s.hostQueue := by rw [h]
theorem onlyMain_draws {s t : State} (h : OnlyMain s t) : t.draws = s.draws := by rw [h]

theorem onlyMain_mainBufLen {s t : State} (h : OnlyMain s t) : mainBufLen t = mainBufLen s := by
  rw [mainBufLen, mainBufLen, onlyMain_mode h, onlyMain_tagLen h]

theorem onlyMain_refl (s : State) : OnlyMain s s := rfl

theorem onlyMain_trans {s t u : State} (h : OnlyMain s t) (h' : OnlyMain t u) : OnlyMain s u := by
  unfold OnlyMain at *
  rw [h', h]

/-- R10: the answer of `mainPerm` and its request. -/
theorem mainPerm_eq (P : Platform) (b : Block) (s : State) :
    mainPerm P b s = match s.mode with
      | .encrypt => (permEnc P s.mpKey b, logRequest (.enc .mp b) s)
      | .decrypt => (permDec P s.mpKey b, logRequest (.dec .mp b) s) := rfl

/-- R10: the request the payload permutation of a mode is. -/
def modeRequest : Mode → Block → PermRequest
  | .encrypt => .enc .mp
  | .decrypt => .dec .mp

/-- R171 as a function of the lane, the ladder entry, the permutation, the mode and the tag length. -/
def mainBlockOf (A : Block → Block) (entry : Block) (mode : Mode) (tagLen : BitVec 6) (m : MainLane) :
    Block × MainLane :=
  let input := firstBlock m.mainBuf
  let offset := xorBytes m.offsetMain entry
  let blk := xorBytes (A (xorBytes input offset)) offset
  let buf := setFirstBlock m.mainBuf blk
  match mode with
  | .encrypt =>
    (blk, { mainBuf := buf, mainPos := 0, mainCount := m.mainCount + 1, offsetMain := offset
            checksum := xorBytes m.checksum input })
  | .decrypt =>
    (blk, { mainBuf := shiftTail tagLen.toNat buf, mainPos := tagLen, mainCount := m.mainCount + 1
            offsetMain := offset, checksum := xorBytes m.checksum blk })

theorem mainBlockOf_mainCount (A : Block → Block) (entry : Block) (mode : Mode) (tagLen : BitVec 6) (m : MainLane) :
    (mainBlockOf A entry mode tagLen m).2.mainCount = m.mainCount + 1 := by
  cases mode <;> rfl

/-- R171 in one record. -/
theorem processFullMainBlock_eq (P : Platform) (s : State) :
    processFullMainBlock P s =
      ((mainBlockOf (payloadPerm P s.mpKey s.mode) (lsub (ntz (s.mainLane.mainCount + 1)) s).1
          s.mode s.tagLen s.mainLane).1,
        { s with
          ladder := ladderUpTo s.lDollar (ntz (s.mainLane.mainCount + 1)) s.ladder
          requests := s.requests ++ [modeRequest s.mode (xorBytes (firstBlock s.mainLane.mainBuf)
            (xorBytes s.mainLane.offsetMain (lsub (ntz (s.mainLane.mainCount + 1)) s).1))]
          mainLane := (mainBlockOf (payloadPerm P s.mpKey s.mode) (lsub (ntz (s.mainLane.mainCount + 1)) s).1
            s.mode s.tagLen s.mainLane).2 }) := by
  cases hm : s.mode <;>
    simp only [processFullMainBlock, mainPerm, lsub, hm, mainBlockOf, payloadPerm, modeRequest, logRequest]

theorem feedMain_nil (P : Platform) (outOff w : Nat) (s : State) : feedMain P outOff [] w s = (w, s) := rfl

/-- R170: one turn of the byte loop. -/
theorem feedMain_cons (P : Platform) (outOff : Nat) (b : Byte) (bytes : List Byte) (w : Nat) (s : State) :
    feedMain P outOff (b :: bytes) w s =
      if (s.mainLane.mainPos + 1).toNat = mainBufLen s then
        feedMain P outOff bytes (w + 16) (memWriteObuf (outOff + w)
          (processFullMainBlock P (bufferMainByte b s)).1.toList (processFullMainBlock P (bufferMainByte b s)).2)
      else feedMain P outOff bytes w (bufferMainByte b s) := rfl

/-- R174: the blocks `n` more bytes complete. -/
def blocksDone (s : State) (n : Nat) : Nat := (s.mainLane.mainPos.toNat + n - (mainBufLen s - 16)) / 16

/-- R174, R176: `updsize` counts the bytes of those blocks. -/
theorem updsize_eq (s : State) (n : Nat) : updsize s n = 16 * blocksDone s n := by
  cases hm : s.mode <;> simp only [updsize, blocksDone, mainBufLen, hm] <;> omega

/-- What feeding `n` bytes leaves, from a lane whose position is inside its buffer. -/
structure MainCounts (s t : State) (n : Nat) : Prop where
  only : OnlyMain s t
  pos : t.mainLane.mainPos.toNat = s.mainLane.mainPos.toNat + n - 16 * blocksDone s n
  count : t.mainLane.mainCount.toNat = s.mainLane.mainCount.toNat + blocksDone s n
  grown : s.ladder <+: t.ladder
  ladder : s.mainLane.mainCount.toNat < 2 ^ s.ladder.length → t.mainLane.mainCount.toNat < 2 ^ t.ladder.length
  short : s.ladder.length ≤ 64 → t.ladder.length ≤ 64
  requests : ∃ r : List Block, r.length = blocksDone s n ∧ t.requests = s.requests ++ r.map (modeRequest s.mode)

theorem le_mainBufLen (s : State) : 16 ≤ mainBufLen s := by
  cases hm : s.mode <;> simp [mainBufLen, hm]

theorem mainBufLen_le {s : State} (h : s.tagLen.toNat ≤ 32) : mainBufLen s ≤ 48 := by
  cases hm : s.mode <;> simp only [mainBufLen, hm] <;> omega

theorem mainPos_succ {s : State} (ht : s.tagLen.toNat ≤ 32) (hp : s.mainLane.mainPos.toNat < mainBufLen s) :
    (s.mainLane.mainPos + 1).toNat = s.mainLane.mainPos.toNat + 1 := by
  have := mainBufLen_le ht
  rw [BitVec.toNat_add]; simp; omega

theorem mainCounts_trans {s t u : State} {m n : Nat} (h : MainCounts s t m) (h' : MainCounts t u n) : MainCounts s u (m + n) := by
  have hb := onlyMain_mainBufLen h.only
  have hle := le_mainBufLen s
  have hd : blocksDone s (m + n) = blocksDone s m + blocksDone t n := by
    simp only [blocksDone, hb, h.pos]; omega
  refine ⟨onlyMain_trans h.only h'.only, ?_, ?_, h.grown.trans h'.grown, fun hh => h'.ladder (h.ladder hh),
    fun hh => h'.short (h.short hh), ?_⟩
  · rw [h'.pos, h.pos, hd]
    simp only [blocksDone, hb, h.pos]; omega
  · rw [h'.count, h.count, hd]; omega
  · obtain ⟨r, hr, hq⟩ := h.requests
    obtain ⟨r', hr', hq'⟩ := h'.requests
    refine ⟨r ++ r', by simp [hr, hr', hd], ?_⟩
    rw [hq', hq, onlyMain_mode h.only]; simp

/-- One byte that fills the buffer. -/
theorem mainCounts_full (P : Platform) {s : State} (b : Byte) (a : Nat)
    (ht : s.tagLen.toNat ≤ 32) (hp : s.mainLane.mainPos.toNat + 1 = mainBufLen s)
    (hw : s.mainLane.mainCount.toNat + 1 < 2 ^ 64) :
    MainCounts s (memWriteObuf a (processFullMainBlock P (bufferMainByte b s)).1.toList
      (processFullMainBlock P (bufferMainByte b s)).2) 1 := by
  have hc : (s.mainLane.mainCount + 1).toNat = s.mainLane.mainCount.toNat + 1 := by
    rw [BitVec.toNat_add]; simpa using hw
  have hne : s.mainLane.mainCount + 1 ≠ 0 := fun h0 => by rw [h0] at hc; simp at hc
  have hd : blocksDone s 1 = 1 := by
    have := le_mainBufLen s
    simp only [blocksDone]; omega
  rw [processFullMainBlock_eq]
  refine ⟨rfl, ?_, ?_, prefix_ladderUpTo _ _ _, fun h => ?_, fun h => ?_, ⟨[_], by simp [hd], rfl⟩⟩
  · rw [hd]
    cases hm : s.mode <;> simp only [mainBufLen, hm] at hp <;>
      simp only [memWriteObuf, bufferMainByte_mode, bufferMainByte_tagLen, mainBlockOf, hm] <;> simp <;> omega
  · rw [hd]
    cases hm : s.mode <;>
      simp only [memWriteObuf, bufferMainByte_mode, bufferMainByte_mainLane, mainBlockOf, hm, hc]
  · have := count_lt_after_lsub s.lDollar h hw
    rw [memWriteObuf_mainLane, memWriteObuf_ladder, mainBlockOf_mainCount]
    exact this
  · simp only [memWriteObuf, length_ladderUpTo, bufferMainByte_ladder, bufferMainByte_mainLane] at h ⊢
    have := ntz_lt hne
    omega

/-- One byte that does not. -/
theorem mainCounts_partial {s : State} (b : Byte) (ht : s.tagLen.toNat ≤ 32)
    (hp : s.mainLane.mainPos.toNat + 1 < mainBufLen s) : MainCounts s (bufferMainByte b s) 1 := by
  have hpos := mainPos_succ ht (show s.mainLane.mainPos.toNat < mainBufLen s by omega)
  have hd : blocksDone s 1 = 0 := by
    simp only [blocksDone]; omega
  refine ⟨rfl, ?_, ?_, List.prefix_refl _, id, id, ⟨[], by simp [hd], by simp⟩⟩
  · simp only [bufferMainByte_mainLane, hpos, hd]; omega
  · simp [hd]

/-- R170, R173, R176, R320: what the byte loop leaves. -/
theorem mainCounts_feedMain (P : Platform) (outOff : Nat) : ∀ (bytes : List Byte) (w : Nat) {s : State},
    s.tagLen.toNat ≤ 32 → s.mainLane.mainPos.toNat < mainBufLen s →
    s.mainLane.mainCount.toNat + blocksDone s bytes.length < 2 ^ 64 →
    MainCounts s (feedMain P outOff bytes w s).2 bytes.length
  | [], w, s, ht, hp, hw => by
    have hd : blocksDone s 0 = 0 := by simp only [blocksDone]; omega
    exact ⟨rfl, by simp [feedMain_nil, hd], by simp [feedMain_nil, hd], List.prefix_refl _, id, id,
      ⟨[], by simp [hd], by simp [feedMain_nil]⟩⟩
  | b :: bytes, w, s, ht, hp, hw => by
    simp only [List.length_cons] at hw
    have hpos := mainPos_succ ht hp
    have hle := le_mainBufLen s
    rw [feedMain_cons, hpos, List.length_cons, Nat.add_comm bytes.length 1]
    have step : ∀ {t : State} (w' : Nat), MainCounts s t 1 →
        MainCounts s (feedMain P outOff bytes w' t).2 (1 + bytes.length) := by
      intro t w' h1
      have hb := onlyMain_mainBufLen h1.only
      refine mainCounts_trans h1 (mainCounts_feedMain P outOff bytes w' ?_ ?_ ?_)
      · rw [onlyMain_tagLen h1.only]; exact ht
      · rw [hb, h1.pos]; simp only [blocksDone]; omega
      · rw [h1.count]
        simp only [blocksDone, hb, h1.pos] at hw ⊢
        omega
    split
    · rename_i h
      exact step _ (mainCounts_full P b _ ht h (by simp only [blocksDone] at hw; omega))
    · exact step _ (mainCounts_partial b ht (by omega))

/-- R176: how many bytes the byte loop writes. -/
theorem feedMain_count (P : Platform) (outOff : Nat) : ∀ (bytes : List Byte) (w : Nat) {s : State},
    s.tagLen.toNat ≤ 32 → s.mainLane.mainPos.toNat < mainBufLen s →
    s.mainLane.mainCount.toNat + blocksDone s bytes.length < 2 ^ 64 →
    (feedMain P outOff bytes w s).1 = w + 16 * blocksDone s bytes.length
  | [], w, s, ht, hp, hw => by
    have hd : blocksDone s 0 = 0 := by simp only [blocksDone]; omega
    rw [feedMain_nil, List.length_nil, hd]; rfl
  | b :: bytes, w, s, ht, hp, hw => by
    simp only [List.length_cons] at hw
    have hpos := mainPos_succ ht hp
    have hle := le_mainBufLen s
    rw [feedMain_cons, hpos, List.length_cons]
    have step : ∀ {t : State} (w' : Nat), MainCounts s t 1 → w' = w + 16 * blocksDone s 1 →
        (feedMain P outOff bytes w' t).1 = w + 16 * blocksDone s (bytes.length + 1) := by
      intro t w' h1 hw'
      have hb := onlyMain_mainBufLen h1.only
      rw [feedMain_count P outOff bytes w' (s := t) (by rw [onlyMain_tagLen h1.only]; exact ht)
        (by rw [hb, h1.pos]; simp only [blocksDone]; omega)
        (by rw [h1.count]; simp only [blocksDone, hb, h1.pos] at hw ⊢; omega), hw']
      simp only [blocksDone, hb, h1.pos]
      omega
    split
    · rename_i h
      exact step _ (mainCounts_full P b _ ht h (by simp only [blocksDone] at hw; omega))
        (by simp only [blocksDone]; omega)
    · exact step _ (mainCounts_partial b ht (by omega)) (by simp only [blocksDone]; omega)

/-! The bytes written. -/

/-- R153 for the crypt lane: one byte, as a function of the lane: the bytes emitted and the lane after. -/
def mainByteOf (A : Block → Block) (lD : Block) (mode : Mode) (tagLen : BitVec 6) (bufLen : Nat) (m : MainLane)
    (b : Byte) : List Byte × MainLane :=
  let m := { m with mainBuf := setByte m.mainBuf m.mainPos.toNat b, mainPos := m.mainPos + 1 }
  if m.mainPos.toNat = bufLen then
    let r := mainBlockOf A (ladderEntry lD (ntz (m.mainCount + 1))) mode tagLen m
    (r.1.toList, r.2)
  else ([], m)

/-- R170 as a function of the lane: the bytes emitted and the lane after. -/
def mainFeedOf (A : Block → Block) (lD : Block) (mode : Mode) (tagLen : BitVec 6) (bufLen : Nat) :
    List Byte → MainLane → List Byte × MainLane
  | [], m => ([], m)
  | b :: bytes, m =>
    let r := mainByteOf A lD mode tagLen bufLen m b
    let r' := mainFeedOf A lD mode tagLen bufLen bytes r.2
    (r.1 ++ r'.1, r'.2)

/-- R178: feeding two strings is feeding their concatenation. -/
theorem mainFeedOf_append (A : Block → Block) (lD : Block) (mode : Mode) (tagLen : BitVec 6) (bufLen : Nat) :
    ∀ (x y : List Byte) (m : MainLane),
      mainFeedOf A lD mode tagLen bufLen (x ++ y) m =
        ((mainFeedOf A lD mode tagLen bufLen x m).1 ++
            (mainFeedOf A lD mode tagLen bufLen y (mainFeedOf A lD mode tagLen bufLen x m).2).1,
          (mainFeedOf A lD mode tagLen bufLen y (mainFeedOf A lD mode tagLen bufLen x m).2).2)
  | [], y, m => rfl
  | b :: x, y, m => by
    simp only [List.cons_append, mainFeedOf, mainFeedOf_append A lD mode tagLen bufLen x y, List.append_assoc]

/-- The lane's feed function under a state's key, mode, tag length and ladder. -/
abbrev mainFeedIn (P : Platform) (s : State) : List Byte → MainLane → List Byte × MainLane :=
  mainFeedOf (payloadPerm P s.mpKey s.mode) s.lDollar s.mode s.tagLen (mainBufLen s)

theorem length_mainBlockOf (A : Block → Block) (entry : Block) (mode : Mode) (tagLen : BitVec 6) (m : MainLane) :
    (mainBlockOf A entry mode tagLen m).1.toList.length = 16 := by simp

/-- R170, R171: the bytes FEEDMSG's loop writes, where it writes them and the lane it leaves are those of the lane's
feed function. -/
theorem feedMain_spec (P : Platform) (outOff : Nat) : ∀ (bytes : List Byte) (w : Nat) {s : State},
    LadderOk s.lDollar s.ladder →
    OnlyMain s (feedMain P outOff bytes w s).2 ∧
    LadderOk s.lDollar (feedMain P outOff bytes w s).2.ladder ∧
    (feedMain P outOff bytes w s).1 = w + (mainFeedIn P s bytes s.mainLane).1.length ∧
    (feedMain P outOff bytes w s).2.obuf = s.obuf.write (outOff + w) (mainFeedIn P s bytes s.mainLane).1 ∧
    (feedMain P outOff bytes w s).2.mainLane = (mainFeedIn P s bytes s.mainLane).2
  | [], w, s, hl => ⟨rfl, hl, rfl, rfl, rfl⟩
  | b :: bytes, w, s, hl => by
    rw [feedMain_cons]
    by_cases h : (s.mainLane.mainPos + 1).toNat = mainBufLen s
    · rw [if_pos h]
      have he : (lsub (ntz (s.mainLane.mainCount + 1)) (bufferMainByte b s)).1 =
          ladderEntry s.lDollar (ntz (s.mainLane.mainCount + 1)) := lsub_fst (s := bufferMainByte b s) hl _
      have hbyte : mainByteOf (payloadPerm P s.mpKey s.mode) s.lDollar s.mode s.tagLen (mainBufLen s) s.mainLane b =
          ((processFullMainBlock P (bufferMainByte b s)).1.toList,
            (processFullMainBlock P (bufferMainByte b s)).2.mainLane) := by
        rw [processFullMainBlock_eq]
        simp only [mainByteOf, h, if_true, bufferMainByte_mainLane, bufferMainByte_mode, bufferMainByte_mpKey,
          bufferMainByte_tagLen, he]
      rw [processFullMainBlock_eq] at hbyte ⊢
      simp only at hbyte
      obtain ⟨h1, h2, h3, h4, h5⟩ := feedMain_spec P outOff bytes (w + 16)
        (s := memWriteObuf (outOff + w)
          (mainBlockOf (payloadPerm P (bufferMainByte b s).mpKey (bufferMainByte b s).mode)
            (lsub (ntz ((bufferMainByte b s).mainLane.mainCount + 1)) (bufferMainByte b s)).1
            (bufferMainByte b s).mode (bufferMainByte b s).tagLen (bufferMainByte b s).mainLane).1.toList
          { bufferMainByte b s with
            ladder := ladderUpTo (bufferMainByte b s).lDollar
              (ntz ((bufferMainByte b s).mainLane.mainCount + 1)) (bufferMainByte b s).ladder
            requests := (bufferMainByte b s).requests ++
              [modeRequest (bufferMainByte b s).mode (xorBytes (firstBlock (bufferMainByte b s).mainLane.mainBuf)
                (xorBytes (bufferMainByte b s).mainLane.offsetMain
                  (lsub (ntz ((bufferMainByte b s).mainLane.mainCount + 1)) (bufferMainByte b s)).1))]
            mainLane := (mainBlockOf (payloadPerm P (bufferMainByte b s).mpKey (bufferMainByte b s).mode)
              (lsub (ntz ((bufferMainByte b s).mainLane.mainCount + 1)) (bufferMainByte b s)).1
              (bufferMainByte b s).mode (bufferMainByte b s).tagLen (bufferMainByte b s).mainLane).2 })
        (ladderOk_ladderUpTo _ hl)
      refine ⟨onlyMain_trans ?_ h1, h2, ?_, ?_, ?_⟩
      · rfl
      · rw [h3]
        simp only [mainFeedIn, mainFeedOf, hbyte, List.length_append]
        simp only [memWriteObuf, bufferMainByte_mpKey, bufferMainByte_mode, bufferMainByte_tagLen, bufferMainByte_lDollar,
          bufferMainByte_mainLane, mainBufLen, Vector.length_toList]
        omega
      · rw [h4]
        simp only [mainFeedIn, mainFeedOf, hbyte]
        rw [Memory.write_append]
        simp only [memWriteObuf, bufferMainByte_mpKey, bufferMainByte_mode, bufferMainByte_tagLen, bufferMainByte_lDollar,
          bufferMainByte_mainLane, bufferMainByte_obuf, mainBufLen, Vector.length_toList, Nat.add_assoc]
      · rw [h5]
        simp only [mainFeedIn, mainFeedOf, hbyte]
        simp only [memWriteObuf, bufferMainByte_mpKey, bufferMainByte_mode, bufferMainByte_tagLen, bufferMainByte_lDollar,
          bufferMainByte_mainLane, mainBufLen]
    · rw [if_neg h]
      have hbyte : mainByteOf (payloadPerm P s.mpKey s.mode) s.lDollar s.mode s.tagLen (mainBufLen s) s.mainLane b =
          ([], (bufferMainByte b s).mainLane) := by
        simp only [mainByteOf, h, if_false, bufferMainByte_mainLane]
      obtain ⟨h1, h2, h3, h4, h5⟩ := feedMain_spec P outOff bytes w (s := bufferMainByte b s) hl
      refine ⟨onlyMain_trans ?_ h1, h2, ?_, ?_, ?_⟩
      · rfl
      · rw [h3]; simp only [mainFeedIn, mainFeedOf, hbyte, List.nil_append]; rfl
      · rw [h4]; simp only [mainFeedIn, mainFeedOf, hbyte, List.nil_append]; rfl
      · rw [h5]; simp only [mainFeedIn, mainFeedOf, hbyte]; rfl

/-- The byte loop changes the crypt lane, the ladder, OBUF and the request trace, and nothing else; it never removes a
ladder entry. -/
theorem onlyMain_feedMain (P : Platform) (outOff : Nat) : ∀ (bytes : List Byte) (w : Nat) (s : State),
    OnlyMain s (feedMain P outOff bytes w s).2 ∧ s.ladder <+: (feedMain P outOff bytes w s).2.ladder
  | [], _, s => ⟨rfl, List.prefix_refl _⟩
  | b :: bytes, w, s => by
    rw [feedMain_cons]
    split
    · have h := onlyMain_feedMain P outOff bytes (w + 16) (memWriteObuf (outOff + w)
          (processFullMainBlock P (bufferMainByte b s)).1.toList (processFullMainBlock P (bufferMainByte b s)).2)
      refine ⟨onlyMain_trans ?_ h.1, List.IsPrefix.trans ?_ h.2⟩
      · rw [processFullMainBlock_eq]; rfl
      · rw [processFullMainBlock_eq]; exact prefix_ladderUpTo _ _ _
    · have h := onlyMain_feedMain P outOff bytes w (bufferMainByte b s)
      have h0 : OnlyMain s (bufferMainByte b s) := rfl
      exact ⟨onlyMain_trans h0 h.1, h.2⟩

/-- R65, R66: whatever the state, the byte loop writes one string from `outOff + w` on and counts its bytes. -/
theorem feedMain_writes (P : Platform) (outOff : Nat) : ∀ (bytes : List Byte) (w : Nat) (s : State),
    ∃ out : List Byte, (feedMain P outOff bytes w s).2.obuf = s.obuf.write (outOff + w) out ∧
      (feedMain P outOff bytes w s).1 = w + out.length
  | [], w, s => ⟨[], rfl, rfl⟩
  | b :: bytes, w, s => by
    rw [feedMain_cons]
    split
    · rw [processFullMainBlock_eq]
      obtain ⟨out, h1, h2⟩ := feedMain_writes P outOff bytes (w + 16) (memWriteObuf (outOff + w)
        (processFullMainBlock P (bufferMainByte b s)).1.toList (processFullMainBlock P (bufferMainByte b s)).2)
      rw [processFullMainBlock_eq] at h1 h2
      refine ⟨(processFullMainBlock P (bufferMainByte b s)).1.toList ++ out, ?_, ?_⟩
      · rw [h1, Memory.write_append, Vector.length_toList, processFullMainBlock_eq, Nat.add_assoc]
        rfl
      · rw [h2, List.length_append, Vector.length_toList, Nat.add_assoc]
    · exact feedMain_writes P outOff bytes w (bufferMainByte b s)

end Sys2Proof.Machine
end

