-- ==== Sys2Proof/Laws/Lanes.lean ====
section
/-! SUPPORT. What the lanes hold (Safety: `HashLaneHolds`, `MainLaneHolds`): each byte fed is appended to the string
the lane holds (spec/42_hash_lane.md R153 to R155, 43_crypt_lane.md R171 to R173, R176). -/

namespace Sys2Proof.Machine

open Sys2Proof.Safety

/-! Blocks of byte strings. -/

@[simp] theorem blockOf_getElem (x : List Byte) (i : Nat) {j : Nat} (h : j < 16) :
    (blockOf x i)[j] = x.getD (16 * i + j) 0 := by
  simp [blockOf]

/-- A block that the string holds whole does not see what is appended. -/
theorem blockOf_append (x y : List Byte) {i : Nat} (h : 16 * (i + 1) ≤ x.length) : blockOf (x ++ y) i = blockOf x i := by
  ext j hj : 1
  simp only [blockOf_getElem _ _ hj, List.getD_eq_getElem?_getD]
  rw [List.getElem?_append_left (by omega)]

theorem xorUpTo_congr {f g : Nat → Block} : ∀ {m : Nat}, (∀ i < m, f i = g i) → xorUpTo f m = xorUpTo g m
  | 0, _ => rfl
  | m + 1, h => by
    rw [xorUpTo, xorUpTo, xorUpTo_congr (m := m) fun i hi => h i (by omega), h m (by omega)]

theorem cryptBlock_append (A : Block → Block) (lD start : Block) (x y : List Byte) {i : Nat}
    (h : 16 * (i + 1) ≤ x.length) : cryptBlock A lD start (x ++ y) i = cryptBlock A lD start x i := by
  simp only [cryptBlock, blockOf_append x y h]

@[simp] theorem cryptBlocks_zero (A : Block → Block) (lD start : Block) (x : List Byte) (a : Nat) :
    cryptBlocks A lD start x a 0 = [] := by simp [cryptBlocks]

theorem cryptBlocks_append (A : Block → Block) (lD start : Block) (x y : List Byte) {a n : Nat}
    (h : 16 * (a + n) ≤ x.length) : cryptBlocks A lD start (x ++ y) a n = cryptBlocks A lD start x a n := by
  induction n with
  | zero => rw [cryptBlocks_zero, cryptBlocks_zero]
  | succ n ih =>
    have h1 := cryptBlock_append A lD start x y (i := a + n) (by omega)
    simp only [cryptBlocks, List.range_succ, List.flatMap_append, List.flatMap_singleton] at ih ⊢
    rw [ih (by omega), h1]

/-- Blocks one behind the other. -/
theorem cryptBlocks_add (A : Block → Block) (lD start : Block) (x : List Byte) (a m n : Nat) :
    cryptBlocks A lD start x a (m + n) = cryptBlocks A lD start x a m ++ cryptBlocks A lD start x (a + m) n := by
  simp only [cryptBlocks, List.range_add, List.flatMap_append, List.flatMap_map, Nat.add_assoc]

@[simp] theorem length_cryptBlocks (A : Block → Block) (lD start : Block) (x : List Byte) (a n : Nat) :
    (cryptBlocks A lD start x a n).length = 16 * n := by
  induction n with
  | zero => simp
  | succ n ih => rw [cryptBlocks_add, List.length_append, ih]; simp [cryptBlocks]; omega

theorem cryptBlocks_one (A : Block → Block) (lD start : Block) (x : List Byte) (a : Nat) :
    cryptBlocks A lD start x a 1 = (cryptBlock A lD start x a).toList := by
  simp [cryptBlocks]

/-- A slice that starts at 0, one byte longer after the byte behind it is written. -/
theorem slice_setByte {n : Nat} (b : Bytes n) {p : Nat} (hp : p < n) (v : Byte) :
    slice (setByte b p v) 0 (p + 1) = slice b 0 p ++ [v] := by
  rw [slice_succ]
  congr 1
  · refine slice_congr fun i hi => ?_
    rw [Nat.zero_add, byteAt_lt (by omega), byteAt_lt (by omega), setByte_getElem _ _ _ (by omega), if_neg (by omega)]
  · rw [Nat.zero_add, byteAt_lt hp, setByte_getElem _ _ _ hp, if_pos rfl]

/-- A byte of a buffer, read out of the slice that holds it. -/
theorem byteAt_of_slice {n : Nat} {b : Bytes n} {p : Nat} {x : List Byte} (h : slice b 0 p = x) {j : Nat} (hj : j < p) :
    byteAt b j = x.getD j 0 := by
  subst h
  rw [List.getD_eq_getElem?_getD, List.getElem?_eq_getElem (by simpa using hj)]
  simp

/-! The hash lane. -/

theorem hashLaneHolds_zero (E : Block → Block) (lD : Block) : HashLaneHolds E lD [] HashLane.zero :=
  ⟨by simp [HashLane.zero], by simp [HashLane.zero], rfl, rfl, by simp [HashLane.zero, tailOf]⟩

theorem toNat_succ {w n : Nat} {x : BitVec w} (h : x.toNat = n) (hw : n + 1 < 2 ^ w) : (x + 1).toNat = n + 1 := by
  rw [BitVec.toNat_add, h]
  have : (1 : BitVec w).toNat = 1 % 2 ^ w := by simp
  rw [this, Nat.add_mod_mod, Nat.mod_eq_of_lt hw]

theorem eq_ofNat_succ {n : Nat} {x : BitVec 64} (h : x.toNat = n) : x + 1 = BitVec.ofNat 64 (n + 1) := by
  apply BitVec.eq_of_toNat_eq
  rw [BitVec.toNat_add, h, BitVec.toNat_ofNat]
  simp

theorem tailOf_append_one (x : List Byte) (b : Byte) (h : x.length % 16 ≠ 15) : tailOf (x ++ [b]) = tailOf x ++ [b] := by
  have : (x ++ [b]).length / 16 = x.length / 16 := by simp; omega
  rw [tailOf, this, List.drop_append_of_le_length (by omega), tailOf]

theorem hashByteOf_full {E : Block → Block} {lD : Block} {h : HashLane} {b : Byte} (he : h.hashPos + 1 = 16) :
    hashByteOf E lD h b =
      hashBlockOf E lD { h with hashBuf := setByte h.hashBuf h.hashPos.toNat b, hashPos := h.hashPos + 1 } :=
  if_pos he

theorem hashByteOf_partial {E : Block → Block} {lD : Block} {h : HashLane} {b : Byte} (he : h.hashPos + 1 ≠ 16) :
    hashByteOf E lD h b =
      { h with hashBuf := setByte h.hashBuf h.hashPos.toNat b, hashPos := h.hashPos + 1 } :=
  if_neg he

theorem hashBlockOf_eq (E : Block → Block) (lD buf : Block) (p : BitVec 5) (h : HashLane) :
    hashBlockOf E lD { h with hashBuf := buf, hashPos := p } =
      { hashBuf := E (xorBytes buf (xorBytes h.offsetHash (ladderEntry lD (ntz (h.hashCount + 1)))))
        hashPos := 0
        hashCount := h.hashCount + 1
        offsetHash := xorBytes h.offsetHash (ladderEntry lD (ntz (h.hashCount + 1)))
        sum := xorBytes h.sum
          (E (xorBytes buf (xorBytes h.offsetHash (ladderEntry lD (ntz (h.hashCount + 1)))))) } := by
  simp only [hashBlockOf]

/-- R153: one byte more. -/
theorem hashLaneHolds_byte {E : Block → Block} {lD : Block} {aad : List Byte} {h : HashLane}
    (hh : HashLaneHolds E lD aad h) (b : Byte) (hw : (aad.length + 1) / 16 < 2 ^ 64) :
    HashLaneHolds E lD (aad ++ [b]) (hashByteOf E lD h b) := by
  have hp16 : aad.length % 16 < 16 := Nat.mod_lt _ (by decide)
  have hp : (h.hashPos + 1).toNat = aad.length % 16 + 1 := toNat_succ hh.pos (by omega)
  have hs : slice (setByte h.hashBuf h.hashPos.toNat b) 0 (h.hashPos.toNat + 1) = tailOf aad ++ [b] := by
    rw [slice_setByte _ (by rw [hh.pos]; exact hp16), hh.buffered]
  by_cases h16 : aad.length % 16 = 15
  · have he : h.hashPos + 1 = 16 := by
      apply BitVec.eq_of_toNat_eq; rw [hp, h16]; rfl
    have hb : setByte h.hashBuf h.hashPos.toNat b = blockOf (aad ++ [b]) (aad.length / 16) := by
      ext j hj : 1
      have hj' : byteAt (setByte h.hashBuf h.hashPos.toNat b) j = _ := byteAt_of_slice hs (by rw [hh.pos]; omega)
      rw [byteAt_lt hj] at hj'
      rw [hj', blockOf_getElem _ _ hj, List.getD_eq_getElem?_getD, List.getD_eq_getElem?_getD, tailOf,
        ← List.drop_append_of_le_length (by omega), List.getElem?_drop]
    have hd : (aad ++ [b]).length / 16 = aad.length / 16 + 1 := by simp; omega
    have hsum : aadBlockSum E lD (aad ++ [b]) = xorBytes (aadBlockSum E lD aad)
        (E (xorBytes (blockOf (aad ++ [b]) (aad.length / 16))
          (offsetAfter lD (zeroBytes 16) (aad.length / 16 + 1)))) := by
      have hx : xorUpTo (fun i => E (xorBytes (blockOf (aad ++ [b]) i) (offsetAfter lD (zeroBytes 16) (i + 1))))
          (aad.length / 16) = aadBlockSum E lD aad :=
        xorUpTo_congr fun i hi => by simp only [blockOf_append aad [b] (show 16 * (i + 1) ≤ aad.length by omega)]
      rw [aadBlockSum, hd, xorUpTo, hx]
    have ho : xorBytes h.offsetHash (ladderEntry lD (ntz (h.hashCount + 1))) =
        offsetAfter lD (zeroBytes 16) (aad.length / 16 + 1) := by
      rw [hh.offset, eq_ofNat_succ hh.count, offsetAfter]
    have hc : (h.hashCount + 1).toNat = aad.length / 16 + 1 := toNat_succ hh.count (by omega)
    have ht : tailOf (aad ++ [b]) = [] := by
      rw [tailOf, hd]
      exact List.drop_eq_nil_of_le (by simp; omega)
    have hm : (aad ++ [b]).length % 16 = 0 := by simp; omega
    rw [hashByteOf_full he, hb, hashBlockOf_eq, ho]
    refine ⟨?_, ?_, ?_, ?_, ?_⟩
    · rw [hm]; rfl
    · rw [hd]; exact hc
    · rw [hd]
    · rw [hsum, hh.sum]
    · rw [ht]; exact slice_zero_len _ _
  · have he : h.hashPos + 1 ≠ 16 := fun he => by rw [he] at hp; simp at hp; omega
    have hd : (aad ++ [b]).length / 16 = aad.length / 16 := by simp; omega
    rw [hashByteOf_partial he]
    refine ⟨?_, ?_, ?_, ?_, ?_⟩
    · simp only [hp, List.length_append, List.length_singleton]; omega
    · rw [hd]; exact hh.count
    · rw [hd]; exact hh.offset
    · simp only [hh.sum, aadBlockSum, hd]
      exact xorUpTo_congr fun i hi => by rw [blockOf_append _ _ (by omega)]
    · simp only [hp]
      rw [tailOf_append_one _ _ h16, ← hs, hh.pos]

theorem hashLaneHolds_foldl {E : Block → Block} {lD : Block} : ∀ (bytes aad : List Byte) {h : HashLane},
    HashLaneHolds E lD aad h → (aad.length + bytes.length) / 16 < 2 ^ 64 →
    HashLaneHolds E lD (aad ++ bytes) (bytes.foldl (hashByteOf E lD) h)
  | [], aad, h, hh, _ => by simpa using hh
  | b :: bytes, aad, h, hh, hw => by
    simp only [List.length_cons] at hw
    have := hashLaneHolds_foldl bytes (aad ++ [b]) (hashLaneHolds_byte hh b (by omega))
      (by simp only [List.length_append, List.length_singleton]; omega)
    simpa using this

/-- R153, R154: what `absorb` leaves in the lane. -/
theorem hashLaneHolds_absorb (P : Platform) (bytes : List Byte) {aad : List Byte} {s : State}
    (hl : LadderOk s.lDollar s.ladder) (hh : HashLaneHolds (permEnc P s.hpKey) s.lDollar aad s.hashLane)
    (hw : (aad.length + bytes.length) / 16 < 2 ^ 64) :
    HashLaneHolds (permEnc P s.hpKey) s.lDollar (aad ++ bytes) (absorb P bytes s).hashLane := by
  rw [absorb_hashLane P bytes hl]
  exact hashLaneHolds_foldl bytes aad hh hw

/-! The crypt lane. -/

/-- R36: the buffer length of a mode and a tag length. -/
def bufLenOf : Mode → Nat → Nat
  | .encrypt, _ => 16
  | .decrypt, t => 16 + t

theorem mainBufLen_eq (s : State) : mainBufLen s = bufLenOf s.mode s.tagLen.toNat := by
  cases hm : s.mode <;> simp only [mainBufLen, bufLenOf, hm]

theorem bufLenOf_ge (mode : Mode) (t : Nat) : 16 ≤ bufLenOf mode t := by
  cases mode <;> simp [bufLenOf]

theorem bufLenOf_le (mode : Mode) {t : Nat} (h : t ≤ 32) : bufLenOf mode t ≤ 48 := by
  cases mode <;> simp only [bufLenOf] <;> omega

theorem fedBlocks_eq (mode : Mode) (t n : Nat) : fedBlocks mode t n = (n - (bufLenOf mode t - 16)) / 16 := by
  cases mode <;> simp only [bufLenOf, fedBlocks] <;> omega

theorem plainBlock_append (A : Block → Block) (lD start : Block) (mode : Mode) (x y : List Byte) {i : Nat}
    (h : 16 * (i + 1) ≤ x.length) : plainBlock A lD start mode (x ++ y) i = plainBlock A lD start mode x i := by
  cases mode
  · exact blockOf_append x y h
  · exact cryptBlock_append A lD start x y h

theorem mainLaneHolds_zero (A : Block → Block) (lD start : Block) (mode : Mode) (t : Nat) :
    MainLaneHolds A lD start mode t [] { MainLane.zero with offsetMain := start } := by
  have h : fedBlocks mode t ([] : List Byte).length = 0 := by
    rw [fedBlocks_eq, List.length_nil]; omega
  refine ⟨?_, ?_, ?_, ?_, ?_⟩
  · rw [h]; rfl
  · rw [h]; rfl
  · rw [h]; rfl
  · rw [h]; rfl
  · simp [MainLane.zero]

/-- Where a lane that holds `msg` stands. -/
theorem mainLaneHolds_pos {A : Block → Block} {lD start : Block} {mode : Mode} {t : Nat} {msg : List Byte}
    {m : MainLane} (h : MainLaneHolds A lD start mode t msg m) : m.mainPos.toNat < bufLenOf mode t := by
  have hp := h.pos
  rw [fedBlocks_eq] at hp
  have := bufLenOf_ge mode t
  omega

/-- R171 on a lane that has just been filled. -/
theorem mainBlockOf_eq (A : Block → Block) (entry : Block) (mode : Mode) (t : BitVec 6) (m : MainLane) :
    mainBlockOf A entry mode t m =
      (xorBytes (A (xorBytes (firstBlock m.mainBuf) (xorBytes m.offsetMain entry))) (xorBytes m.offsetMain entry),
        { mainBuf := match mode with
            | .encrypt => setFirstBlock m.mainBuf
              (xorBytes (A (xorBytes (firstBlock m.mainBuf) (xorBytes m.offsetMain entry)))
                (xorBytes m.offsetMain entry))
            | .decrypt => shiftTail t.toNat (setFirstBlock m.mainBuf
              (xorBytes (A (xorBytes (firstBlock m.mainBuf) (xorBytes m.offsetMain entry)))
                (xorBytes m.offsetMain entry)))
          mainPos := match mode with
            | .encrypt => 0
            | .decrypt => t
          mainCount := m.mainCount + 1
          offsetMain := xorBytes m.offsetMain entry
          checksum := xorBytes m.checksum (match mode with
            | .encrypt => firstBlock m.mainBuf
            | .decrypt => xorBytes (A (xorBytes (firstBlock m.mainBuf) (xorBytes m.offsetMain entry)))
                (xorBytes m.offsetMain entry)) }) := by
  cases mode <;> simp only [mainBlockOf]

theorem mainByteOf_full {A : Block → Block} {lD : Block} {mode : Mode} {t : BitVec 6} {n : Nat} {m : MainLane} {b : Byte}
    (he : (m.mainPos + 1).toNat = n) :
    mainByteOf A lD mode t n m b =
      ((mainBlockOf A (ladderEntry lD (ntz (m.mainCount + 1))) mode t
          { m with mainBuf := setByte m.mainBuf m.mainPos.toNat b, mainPos := m.mainPos + 1 }).1.toList,
        (mainBlockOf A (ladderEntry lD (ntz (m.mainCount + 1))) mode t
          { m with mainBuf := setByte m.mainBuf m.mainPos.toNat b, mainPos := m.mainPos + 1 }).2) :=
  if_pos he

theorem mainByteOf_partial {A : Block → Block} {lD : Block} {mode : Mode} {t : BitVec 6} {n : Nat} {m : MainLane}
    {b : Byte} (he : (m.mainPos + 1).toNat ≠ n) :
    mainByteOf A lD mode t n m b =
      ([], { m with mainBuf := setByte m.mainBuf m.mainPos.toNat b, mainPos := m.mainPos + 1 }) :=
  if_neg he

/-- R170, R171, R173: one byte more. -/
theorem mainLaneHolds_byte {A : Block → Block} {lD start : Block} {mode : Mode} {t : BitVec 6} {msg : List Byte}
    {m : MainLane} (hm : MainLaneHolds A lD start mode t.toNat msg m) (b : Byte) (ht : t.toNat ≤ 32)
    (hw : fedBlocks mode t.toNat (msg.length + 1) < 2 ^ 64) :
    (mainByteOf A lD mode t (bufLenOf mode t.toNat) m b).1 =
        cryptBlocks A lD start (msg ++ [b]) (fedBlocks mode t.toNat msg.length)
          (fedBlocks mode t.toNat (msg.length + 1) - fedBlocks mode t.toNat msg.length) ∧
      MainLaneHolds A lD start mode t.toNat (msg ++ [b]) (mainByteOf A lD mode t (bufLenOf mode t.toNat) m b).2 := by
  have hlt := mainLaneHolds_pos hm
  have h48 := bufLenOf_le mode ht
  have h16 := bufLenOf_ge mode t.toNat
  have hp : (m.mainPos + 1).toNat = m.mainPos.toNat + 1 := toNat_succ rfl (by omega)
  have hpos := hm.pos
  have hk := fedBlocks_eq mode t.toNat msg.length
  have hk1 := fedBlocks_eq mode t.toNat (msg.length + 1)
  have hlen : (msg ++ [b]).length = msg.length + 1 := by simp
  generalize hK : fedBlocks mode t.toNat msg.length = k at *
  have hle : 16 * k ≤ msg.length := by omega
  have hs : slice (setByte m.mainBuf m.mainPos.toNat b) 0 (m.mainPos.toNat + 1) = (msg ++ [b]).drop (16 * k) := by
    rw [slice_setByte _ (by omega), hm.buffered, hK, List.drop_append_of_le_length hle]
  by_cases hf : m.mainPos.toNat + 1 = bufLenOf mode t.toNat
  · have hd : fedBlocks mode t.toNat (msg.length + 1) = k + 1 := by omega
    have hb : firstBlock (setByte m.mainBuf m.mainPos.toNat b) = blockOf (msg ++ [b]) k := by
      ext j hj : 1
      have hj' : byteAt (setByte m.mainBuf m.mainPos.toNat b) j = _ := byteAt_of_slice hs (by omega)
      rw [byteAt_lt (by omega)] at hj'
      rw [firstBlock_getElem _ hj, hj', blockOf_getElem _ _ hj, List.getD_eq_getElem?_getD,
        List.getD_eq_getElem?_getD, List.getElem?_drop]
    have ho : xorBytes m.offsetMain (ladderEntry lD (ntz (m.mainCount + 1))) = offsetAfter lD start (k + 1) := by
      rw [hm.offset, hK, eq_ofNat_succ hm.count, hK, offsetAfter]
    have hc : (m.mainCount + 1).toNat = k + 1 := toNat_succ (by rw [hm.count, hK]) (by omega)
    have hblk : xorBytes (A (xorBytes (blockOf (msg ++ [b]) k) (offsetAfter lD start (k + 1))))
        (offsetAfter lD start (k + 1)) = cryptBlock A lD start (msg ++ [b]) k := rfl
    rw [mainByteOf_full (by rw [hp, hf]), mainBlockOf_eq]
    simp only [hb, ho, hblk]
    refine ⟨by rw [hd, Nat.add_sub_cancel_left, cryptBlocks_one], ?_, ?_, ?_, ?_, ?_⟩
    · rw [hlen, hd]
      cases mode <;> simp only [bufLenOf] at hf <;> simp <;> omega
    · rw [hlen, hd]; exact hc
    · rw [hlen, hd]
    · have := xorUpTo_congr (f := plainBlock A lD start mode msg) (g := plainBlock A lD start mode (msg ++ [b])) (m := k)
        fun i hi => (plainBlock_append A lD start mode msg [b] (by omega)).symm
      rw [hlen, hd, xorUpTo, ← this, ← hK, ← hm.checksum, hK]
      cases mode <;> rfl
    · rw [hlen, hd]
      cases mode
      · simp only [bufLenOf] at hf
        rw [List.drop_eq_nil_of_le (by rw [hlen]; omega)]
        exact slice_zero_len _ _
      · simp only [bufLenOf] at hf
        refine List.ext_getElem (by simp; omega) fun i hi _ => ?_
        have hi' : i < t.toNat := by simpa using hi
        have hj' : byteAt (setByte m.mainBuf m.mainPos.toNat b) (16 + i) = _ := byteAt_of_slice hs (by omega)
        rw [byteAt_lt (by omega), List.getD_eq_getElem?_getD, List.getElem?_drop] at hj'
        rw [slice_getElem, Nat.zero_add, byteAt_lt (by omega), shiftTail_getElem _ _ (by omega), if_pos hi',
          byteAt_lt (by omega), setFirstBlock_getElem _ _ (by omega), dif_neg (by omega), hj', List.getElem_drop,
          List.getElem?_eq_getElem (by rw [hlen]; omega), Option.getD_some]
        congr 1
        omega
  · have hd : fedBlocks mode t.toNat (msg.length + 1) = k := by omega
    rw [mainByteOf_partial (by rw [hp]; exact hf)]
    refine ⟨by rw [hd, Nat.sub_self, cryptBlocks_zero], ?_, ?_, ?_, ?_, ?_⟩
    · rw [hlen, hd]; simp only [hp]; omega
    · rw [hlen, hd, ← hK]; exact hm.count
    · rw [hlen, hd, ← hK]; exact hm.offset
    · have := xorUpTo_congr (f := plainBlock A lD start mode msg) (g := plainBlock A lD start mode (msg ++ [b])) (m := k)
        fun i hi => (plainBlock_append A lD start mode msg [b] (by omega)).symm
      rw [hlen, hd, ← this, ← hK]
      exact hm.checksum
    · rw [hlen, hd]; simp only [hp, hs]

theorem fedBlocks_mono (mode : Mode) (t : Nat) {m n : Nat} (h : m ≤ n) : fedBlocks mode t m ≤ fedBlocks mode t n := by
  rw [fedBlocks_eq, fedBlocks_eq]; omega

theorem fedBlocks_le (mode : Mode) (t n : Nat) : 16 * fedBlocks mode t n ≤ n := by
  rw [fedBlocks_eq]; omega

/-- R170, R176: what feeding a byte string emits and leaves. -/
theorem mainLaneHolds_feed {A : Block → Block} {lD start : Block} {mode : Mode} {t : BitVec 6} (ht : t.toNat ≤ 32) :
    ∀ (bytes msg : List Byte) {m : MainLane}, MainLaneHolds A lD start mode t.toNat msg m →
    fedBlocks mode t.toNat (msg.length + bytes.length) < 2 ^ 64 →
    (mainFeedOf A lD mode t (bufLenOf mode t.toNat) bytes m).1 =
        cryptBlocks A lD start (msg ++ bytes) (fedBlocks mode t.toNat msg.length)
          (fedBlocks mode t.toNat (msg.length + bytes.length) - fedBlocks mode t.toNat msg.length) ∧
      MainLaneHolds A lD start mode t.toNat (msg ++ bytes) (mainFeedOf A lD mode t (bufLenOf mode t.toNat) bytes m).2
  | [], msg, m, hm, _ => by
    refine ⟨?_, by simpa [mainFeedOf] using hm⟩
    rw [List.length_nil, Nat.add_zero, Nat.sub_self, cryptBlocks_zero, mainFeedOf]
  | b :: bytes, msg, m, hm, hw => by
    simp only [List.length_cons] at hw
    have hmono := fedBlocks_mono mode t.toNat (show msg.length + 1 ≤ msg.length + (bytes.length + 1) by omega)
    have hmono0 := fedBlocks_mono mode t.toNat (show msg.length ≤ msg.length + 1 by omega)
    obtain ⟨h1, h2⟩ := mainLaneHolds_byte hm b ht (by omega)
    have hlen : (msg ++ [b]).length = msg.length + 1 := by simp
    have hl2 : msg.length + 1 + bytes.length = msg.length + (bytes.length + 1) := by omega
    obtain ⟨h3, h4⟩ := mainLaneHolds_feed ht bytes (msg ++ [b]) h2 (by rw [hlen, hl2]; omega)
    rw [hlen, hl2, List.append_assoc, List.singleton_append] at h3
    rw [List.append_assoc, List.singleton_append] at h4
    refine ⟨?_, h4⟩
    have happ := cryptBlocks_append A lD start (msg ++ [b]) bytes (a := fedBlocks mode t.toNat msg.length)
      (n := fedBlocks mode t.toNat (msg.length + 1) - fedBlocks mode t.toNat msg.length) (by
        rw [hlen]
        have := fedBlocks_le mode t.toNat (msg.length + 1)
        omega)
    rw [List.append_assoc, List.singleton_append] at happ
    have hadd := cryptBlocks_add A lD start (msg ++ b :: bytes) (fedBlocks mode t.toNat msg.length)
      (fedBlocks mode t.toNat (msg.length + 1) - fedBlocks mode t.toNat msg.length)
      (fedBlocks mode t.toNat (msg.length + (bytes.length + 1)) - fedBlocks mode t.toNat (msg.length + 1))
    rw [show fedBlocks mode t.toNat msg.length +
        (fedBlocks mode t.toNat (msg.length + 1) - fedBlocks mode t.toNat msg.length) =
        fedBlocks mode t.toNat (msg.length + 1) by omega,
      show fedBlocks mode t.toNat (msg.length + 1) - fedBlocks mode t.toNat msg.length +
        (fedBlocks mode t.toNat (msg.length + (bytes.length + 1)) - fedBlocks mode t.toNat (msg.length + 1)) =
        fedBlocks mode t.toNat (msg.length + (bytes.length + 1)) - fedBlocks mode t.toNat msg.length by omega] at hadd
    rw [List.length_cons, hadd, mainFeedOf, h1, h3, ← happ]

end Sys2Proof.Machine
end

