-- ==== Sys2Proof/Laws/Session.lean ====
section
/-! SUPPORT. The nonce expander, the reset procedure and INIT (spec/41_nonce_expander.md, 45_session_control.md): what
each can change and where it leaves the lanes. -/

namespace Sys2Proof.Machine

open Sys2Proof.Safety

/-- R133, R134 in one record. -/
theorem fillKtop_eq (P : Platform) (n : Block) (s : State) :
    fillKtop P n s =
      if ktopHit s n then s
      else { s with
        requests := s.requests ++ [.enc .hp n]
        stretch := stretchOf (permEnc P s.hpKey n), ktopInput := n, ktopValid := true } := rfl

/-- R133, R137: whether the cache hits or misses, it then holds this nonce's Ktop, under the key it was filled under. -/
theorem fillKtop_stretch {P : Platform} {s : State} (h : s.ktopValid = true → KtopOk P s) (n : Block) :
    (fillKtop P n s).stretch = stretchOf (permEnc P s.hpKey n) ∧ (fillKtop P n s).ktopInput = n ∧
      (fillKtop P n s).ktopValid = true := by
  rw [fillKtop_eq]
  split
  · rename_i hh
    simp only [ktopHit, Bool.and_eq_true, beq_iff_eq] at hh
    obtain ⟨k, hk, hs⟩ := h hh.1
    exact ⟨by rw [hs, hk, hh.2]; rfl, hh.2, hh.1⟩
  · exact ⟨rfl, rfl, rfl⟩

/-- `t` is `s` but for the Ktop cache, `offsetMain_0` and the request trace. -/
def OnlyNonce (s t : State) : Prop :=
  t = { s with
    requests := t.requests, stretch := t.stretch, ktopInput := t.ktopInput, ktopValid := t.ktopValid
    offsetMain0 := t.offsetMain0 }

theorem onlyNonce_fillKtop (P : Platform) (n : Block) (s : State) : OnlyNonce s (fillKtop P n s) := by
  rw [fillKtop_eq]
  split <;> rfl

theorem onlyNonce_setOffset {s t : State} (h : OnlyNonce s t) (x : Block) :
    OnlyNonce s { t with offsetMain0 := x } := by
  unfold OnlyNonce at *
  rw [h]

/-- R138: `nonceExpander` writes nothing but `stretch`, `ktopInput`, `ktopValid`, `offsetMain_0`. -/
theorem onlyNonce_nonceExpander (P : Platform) (nonce : List Byte) (s : State) :
    OnlyNonce s (nonceExpander P nonce s) := by
  unfold nonceExpander
  exact onlyNonce_setOffset (onlyNonce_fillKtop P _ s) _

/-- R223 in one record. -/
theorem rekey_eq (P : Platform) (key : Key) (s : State) :
    rekey P key s =
      { s with
        hpKey := some key, mpKey := some key
        requests := s.requests ++ [.setKey .hp key] ++ [.setKey .mp key] ++ [.enc .hp (zeroBytes 16)]
        lStar := P.perm key (zeroBytes 16)
        lDollar := double (P.perm key (zeroBytes 16))
        ladder := [], ktopValid := false, keyed := true } := by
  simp only [rekey, hashPerm, loadKeys, logRequest, permEnc]

/-! The retained initial AAD (R38). -/

theorem initAADBytes_setInitAAD (bytes : List Byte) (s : State) (h : bytes.length < 2 ^ 32) :
    initAADBytes (setInitAAD bytes s) = bytes := by
  simp only [initAADBytes, setInitAAD]
  rw [BitVec.toNat_ofNat, Nat.mod_eq_of_lt h]
  rw [List.takeD_eq_take _ (by simp)]
  simp

theorem length_initAADBytes (s : State) : (initAADBytes s).length = s.initAADLen.toNat := by
  simp [initAADBytes]

/-! The reset procedure. -/

theorem resetProcedure_eq (P : Platform) (m : Bool) (s : State) :
    resetProcedure P m s = absorb P (initAADBytes s) (clearLanes m s) := rfl

/-- R225: the reset procedure absorbs the initial AAD into a cleared hash lane and touches nothing else but the lane
set and, unless it is preserved, the tag. -/
theorem onlyHash_resetProcedure (P : Platform) (m : Bool) (s : State) :
    OnlyHash (clearLanes m s) (resetProcedure P m s) := onlyHash_absorb P _ _

theorem hashCounts_resetProcedure (P : Platform) (m : Bool) (s : State) :
    HashCounts (clearLanes m s) (resetProcedure P m s) s.initAADLen.toNat := by
  have h := hashCounts_absorb P (initAADBytes s) (s := clearLanes m s)
    (by simp [HashLane.zero]) (by
      rw [length_initAADBytes]
      have := s.initAADLen.isLt
      simp [HashLane.zero]
      omega)
  rwa [length_initAADBytes] at h

/-- R41, R42: the lanes a reset leaves are inside their bounds. -/
theorem lanesOk_resetProcedure (P : Platform) (m : Bool) (s : State) : LanesOk (resetProcedure P m s) := by
  have ho := onlyHash_resetProcedure P m s
  have hc := hashCounts_resetProcedure P m s
  have hm : (resetProcedure P m s).mainLane = { MainLane.zero with offsetMain := s.offsetMain0 } :=
    onlyHash_mainLane ho
  refine ⟨by rw [hc.pos]; omega, ?_, hc.ladder (by simp [HashLane.zero]), ?_⟩
  · rw [hm]
    have := le_mainBufLen (resetProcedure P m s)
    simp [MainLane.zero]; omega
  · rw [hm]; simp [MainLane.zero]

/-- R155, R230: the hash lane a reset leaves is a function of the key, `L_dollar` and the initial AAD. -/
theorem resetProcedure_hashLane (P : Platform) (m : Bool) {s : State} (h : LadderOk s.lDollar s.ladder) :
    (resetProcedure P m s).hashLane =
      (initAADBytes s).foldl (hashByteOf (permEnc P s.hpKey) s.lDollar) HashLane.zero :=
  absorb_hashLane P (initAADBytes s) (s := clearLanes m s) h

/-! INIT once its checks have passed (R222). -/

/-- The mode, the tag length and the key are set: the state the nonce expander starts from. -/
def keyedState (P : Platform) (e : Bool) (tagLenBits : BitVec 16) (key : Option Key) (s : State) : State :=
  match key with
  | some k => rekey P k
      { s with mode := if e then .encrypt else .decrypt, tagLen := BitVec.ofNat 6 (tagLenBits.toNat / 8) }
  | none => { s with mode := if e then .encrypt else .decrypt, tagLen := BitVec.ofNat 6 (tagLenBits.toNat / 8) }

/-- The state the reset procedure of INIT starts from. -/
def noncedState (P : Platform) (e : Bool) (tagLenBits : BitVec 16) (key : Option Key) (nonce aad : List Byte)
    (s : State) : State :=
  setInitAAD aad (nonceExpander P nonce (keyedState P e tagLenBits key s))

theorem startSession_eq (P : Platform) (e : Bool) (tagLenBits : BitVec 16) (key : Option Key) (nonce aad : List Byte)
    (s : State) :
    startSession P e tagLenBits key nonce aad s =
      { resetProcedure P false (noncedState P e tagLenBits key nonce aad s) with inited := true, phase := .ready } := by
  cases key <;> simp only [startSession, noncedState, keyedState]

theorem onlyNonce_noncedState (P : Platform) (e : Bool) (tagLenBits : BitVec 16) (key : Option Key)
    (nonce aad : List Byte) (s : State) :
    OnlyNonce { keyedState P e tagLenBits key s with
        initAAD := (noncedState P e tagLenBits key nonce aad s).initAAD
        initAADLen := (noncedState P e tagLenBits key nonce aad s).initAADLen }
      (noncedState P e tagLenBits key nonce aad s) := by
  have h := onlyNonce_nonceExpander P nonce (keyedState P e tagLenBits key s)
  unfold noncedState OnlyNonce at *
  generalize nonceExpander P nonce (keyedState P e tagLenBits key s) = u at *
  rw [h]
  rfl

/-- What the session's start leaves of the state before: nothing of it but IBUF, OBUF, the host's queue, the draws, the
response and, without a key, the key state. -/
theorem startSession_frame (P : Platform) (e : Bool) (tagLenBits : BitVec 16) (key : Option Key) (nonce aad : List Byte)
    (s : State) :
    startSession P e tagLenBits key nonce aad s =
      { keyedState P e tagLenBits key s with
        stretch := (noncedState P e tagLenBits key nonce aad s).stretch
        ktopInput := (noncedState P e tagLenBits key nonce aad s).ktopInput
        ktopValid := (noncedState P e tagLenBits key nonce aad s).ktopValid
        offsetMain0 := (noncedState P e tagLenBits key nonce aad s).offsetMain0
        initAAD := (noncedState P e tagLenBits key nonce aad s).initAAD
        initAADLen := (noncedState P e tagLenBits key nonce aad s).initAADLen
        requests := (resetProcedure P false (noncedState P e tagLenBits key nonce aad s)).requests
        ladder := (resetProcedure P false (noncedState P e tagLenBits key nonce aad s)).ladder
        hashLane := (resetProcedure P false (noncedState P e tagLenBits key nonce aad s)).hashLane
        mainLane := { MainLane.zero with offsetMain := (noncedState P e tagLenBits key nonce aad s).offsetMain0 }
        macBlock := zeroBytes 32, macLen := 0, inited := true, phase := .ready } := by
  have h := onlyNonce_noncedState P e tagLenBits key nonce aad s
  have h2 : OnlyHash (clearLanes false (noncedState P e tagLenBits key nonce aad s))
    (resetProcedure P false (noncedState P e tagLenBits key nonce aad s)) := onlyHash_resetProcedure P false _
  rw [startSession_eq]
  generalize resetProcedure P false (noncedState P e tagLenBits key nonce aad s) = v at *
  generalize noncedState P e tagLenBits key nonce aad s = u at *
  unfold OnlyNonce OnlyHash at *
  rw [h2]
  simp only [clearLanes]
  rw [h]
  simp only [Bool.false_eq_true, if_false]

/-- INIT writes no OBUF byte. -/
theorem startSession_obuf (P : Platform) (e : Bool) (tagLenBits : BitVec 16) (key : Option Key) (nonce aad : List Byte)
    (s : State) : (startSession P e tagLenBits key nonce aad s).obuf = s.obuf := by
  rw [startSession_frame]
  cases key <;> rfl

end Sys2Proof.Machine
end

