-- ==== Sys2Proof/Laws/Finalizer.lean ====
section
/-! SUPPORT. FINALIZE (spec/44_finalizer.md): the tag and the partial block it computes, its requests, and what it
changes. -/

namespace Sys2Proof.Machine

open Sys2Proof.Safety

/-! Padding (R152, R194). -/

theorem padBlock_getElem (x : List Byte) {j : Nat} (h : j < 16) :
    (padBlock x)[j] = if j = x.length then 0x80 else x.getD j 0 := by
  simp [padBlock]

theorem getD_slice {n : Nat} (b : Bytes n) (p j : Nat) :
    (slice b 0 p).getD j 0 = if j < p then byteAt b j else 0 := by
  rw [List.getD_eq_getElem?_getD]
  split
  · rw [List.getElem?_eq_getElem (by simpa), Option.getD_some, slice_getElem, Nat.zero_add]
  · rw [List.getElem?_eq_none (by simpa using by omega), Option.getD_none]

/-- R152: the hash lane's padded block. -/
theorem extend_eq_padBlock (b : Block) (p : Nat) : extend b p = padBlock (slice b 0 p) := by
  ext j hj : 1
  rw [extend_getElem _ _ hj, padBlock_getElem _ hj, slice_length, getD_slice]
  split
  · rfl
  · split
    · rw [if_neg (by omega)]
    · rw [if_pos (by omega), byteAt_lt hj]

/-- R194: the crypt lane's padded block. -/
theorem firstBlock_extend (b : Bytes 48) (p : Nat) : firstBlock (extend b p) = padBlock (slice b 0 p) := by
  ext j hj : 1
  rw [firstBlock_getElem _ hj, extend_getElem _ _ (by omega), padBlock_getElem _ hj, slice_length, getD_slice]
  split
  · rfl
  · split
    · rw [if_neg (by omega)]
    · rw [if_pos (by omega), byteAt_lt (by omega)]

theorem byteAt_setFirstBlock (b : Bytes 48) (x : Block) {j : Nat} (hj : j < 16) : byteAt (setFirstBlock b x) j = x[j] := by
  rw [byteAt_lt (by omega), setFirstBlock_getElem _ _ (by omega), dif_pos hj]

theorem zipWith_slice_getElem (b : Bytes 48) (pad : Block) {p : Nat} {i : Nat}
    (h : i < ((slice b 0 p).zipWith (· ^^^ ·) pad.toList).length) :
    ((slice b 0 p).zipWith (· ^^^ ·) pad.toList)[i] = byteAt b i ^^^ pad[i]'(by simp at h; omega) := by
  simp

/-- R193: the buffered bytes under the keystream block. -/
theorem slice_keystream (b c : Bytes 48) (pad : Block) {p : Nat} (hp : p ≤ 16)
    (h : ∀ i < p, byteAt c i = byteAt b i) :
    slice (setFirstBlock b (xorBytes (firstBlock b) pad)) 0 p = (slice c 0 p).zipWith (· ^^^ ·) pad.toList := by
  refine List.ext_getElem (by simp; omega) fun i hi hi' => ?_
  have hip : i < p := by simpa using hi
  rw [zipWith_slice_getElem, slice_getElem, Nat.zero_add, byteAt_setFirstBlock _ _ (by omega),
    xorBytes_getElem _ _ (by omega), firstBlock_getElem _ (by omega), h i hip, byteAt_lt (by omega)]

/-! The steps (R191 to R196). -/

/-- R193: the partial block under the keystream, as a function of the lane. -/
def partOf (P : Platform) (s : State) : List Byte :=
  (slice s.mainLane.mainBuf 0 s.mainLane.mainPos.toNat).zipWith (· ^^^ ·)
    (permEnc P s.hpKey (xorBytes s.mainLane.offsetMain s.lStar)).toList

/-- R193: the plaintext of the partial block. -/
def plainOf (P : Platform) (s : State) : List Byte :=
  match s.mode with
  | .encrypt => slice s.mainLane.mainBuf 0 s.mainLane.mainPos.toNat
  | .decrypt => partOf P s

/-- R193 when there is no partial block. -/
theorem partialCrypt_zero (P : Platform) {s : State} (h : s.mainLane.mainPos = 0) : partialCrypt P s = ([], s) :=
  if_pos h

/-- R193 when there is one: the bytes, and what changes. -/
theorem partialCrypt_pos (P : Platform) {s : State} (h0 : s.mainLane.mainPos ≠ 0) (hp : s.mainLane.mainPos.toNat < 16) :
    ∃ buf, partialCrypt P s = (partOf P s,
      { s with
        requests := s.requests ++ [.enc .hp (xorBytes s.mainLane.offsetMain s.lStar)]
        mainLane := { s.mainLane with
          mainBuf := buf
          offsetMain := xorBytes s.mainLane.offsetMain s.lStar
          checksum := xorBytes s.mainLane.checksum (padBlock (plainOf P s)) } }) := by
  rw [partialCrypt, if_neg h0]
  cases hm : s.mode
  · have hs : slice (setFirstBlock (extend s.mainLane.mainBuf s.mainLane.mainPos.toNat)
        (xorBytes (firstBlock (extend s.mainLane.mainBuf s.mainLane.mainPos.toNat))
          (permEnc P s.hpKey (xorBytes s.mainLane.offsetMain s.lStar)))) 0 s.mainLane.mainPos.toNat = partOf P s :=
      slice_keystream _ _ _ (by omega) fun i hi => by
        rw [byteAt_lt (by omega), byteAt_lt (by omega), extend_getElem _ _ (by omega), if_neg (by omega), if_neg (by omega)]
    rw [firstBlock_extend] at hs
    refine ⟨setFirstBlock (extend s.mainLane.mainBuf s.mainLane.mainPos.toNat)
        (xorBytes (firstBlock (extend s.mainLane.mainBuf s.mainLane.mainPos.toNat))
          (permEnc P s.hpKey (xorBytes s.mainLane.offsetMain s.lStar))), ?_⟩
    simp only [hashPerm, logRequest, hm, hs, firstBlock_extend, plainOf]
  · have hs : slice (setFirstBlock s.mainLane.mainBuf (xorBytes (firstBlock s.mainLane.mainBuf)
          (permEnc P s.hpKey (xorBytes s.mainLane.offsetMain s.lStar)))) 0 s.mainLane.mainPos.toNat = partOf P s :=
      slice_keystream _ _ _ (by omega) fun i hi => rfl
    refine ⟨extend (setFirstBlock s.mainLane.mainBuf (xorBytes (firstBlock s.mainLane.mainBuf)
          (permEnc P s.hpKey (xorBytes s.mainLane.offsetMain s.lStar)))) s.mainLane.mainPos.toNat, ?_⟩
    simp only [hashPerm, logRequest, hm, hs, firstBlock_extend, plainOf]

/-- R193: the request the partial block makes. -/
def partRequests (s : State) : List PermRequest :=
  if partialLen s = 0 then [] else [.enc .hp (xorBytes s.mainLane.offsetMain s.lStar)]

/-- R152: the request `finalizeHash` makes. -/
def hashRequestsOf (s : State) : List PermRequest :=
  if s.hashLane.hashPos = 0 then []
  else [.enc .hp (xorBytes (padBlock (slice s.hashLane.hashBuf 0 s.hashLane.hashPos.toNat))
    (xorBytes s.hashLane.offsetHash s.lStar))]

/-- R152: `finalizeHash`: the sum, and what changes. -/
theorem finalizeHash_spec (P : Platform) (s : State) :
    (finalizeHash P s).hashLane.sum = finalSum P s ∧
    (finalizeHash P s).requests = s.requests ++ hashRequestsOf s ∧
    finalizeHash P s = { s with hashLane := (finalizeHash P s).hashLane, requests := (finalizeHash P s).requests } := by
  rw [finalizeHash_eq]
  by_cases h0 : s.hashLane.hashPos = 0
  · simp only [h0, if_true, finalSum, hashRequestsOf, List.append_nil, and_self]
  · simp only [h0, if_false, finalSum, hashRequestsOf, extend_eq_padBlock, and_self]

/-- R191: what `mainPos` is after the tag is split off. -/
theorem dropTag_spec {s : State} (h : dataTooShort s = false) :
    (dropTag s).mainLane.mainPos.toNat = partialLen s ∧
    dropTag s = { s with mainLane := { s.mainLane with mainPos := (dropTag s).mainLane.mainPos } } := by
  cases hm : s.mode
  · have hs : dropTag s = s := by simp only [dropTag, hm]
    rw [hs]
    exact ⟨by simp only [partialLen, hm], by rw [← hm]⟩
  · simp only [dataTooShort, hm, decide_eq_false_iff_not, Nat.not_lt] at h
    simp only [dropTag, hm, partialLen, and_true]
    exact BitVec.toNat_sub_of_le h

/-- R191 to R196: the bytes of the partial block, the computed tag in `macBlock`, the requests, and nothing else but
the lanes. -/
structure TagComputed (P : Platform) (s : State) (r : List Byte × State) : Prop where
  part : r.1 = partialOut P s
  only : r.2 = { s with
    hashLane := r.2.hashLane, mainLane := r.2.mainLane, requests := r.2.requests, macBlock := r.2.macBlock
    macLen := s.tagLen }
  requests : r.2.requests = s.requests ++ hashRequestsOf s ++ partRequests s ++ [.enc .hp (tagInput P s)]
  mac : ∀ i (h : i < 32), r.2.macBlock[i] =
    if i < s.tagLen.toNat then byteAt (xorBytes (permEnc P s.hpKey (tagInput P s)) (finalSum P s)) i
    else s.macBlock[i]

/-- R195, R196 in one record. -/
theorem storeMac_rawTag (P : Platform) (s : State) :
    storeMac (rawTag P s) = { s with
      requests := s.requests ++ [.enc .hp (xorBytes (xorBytes s.mainLane.checksum s.mainLane.offsetMain) s.lDollar)]
      mainLane := (storeMac (rawTag P s)).mainLane
      macBlock := (storeMac (rawTag P s)).macBlock
      macLen := s.tagLen } := by
  simp only [rawTag, storeMac, hashPerm, logRequest]

theorem storeMac_rawTag_macBlock (P : Platform) (s : State) {i : Nat} (h : i < 32) :
    (storeMac (rawTag P s)).macBlock[i] =
      if i < s.tagLen.toNat then
        byteAt (xorBytes (permEnc P s.hpKey (xorBytes (xorBytes s.mainLane.checksum s.mainLane.offsetMain) s.lDollar))
          s.hashLane.sum) i
      else s.macBlock[i] := by
  simp only [rawTag, storeMac, hashPerm, logRequest, Vector.getElem_ofFn]
  rfl

theorem computeTag_spec (P : Platform) {s : State} (hd : dataTooShort s = false)
    (hp : partialLen s < 16) : TagComputed P s (computeTag P s) := by
  obtain ⟨d1, d2⟩ := dropTag_spec hd
  have f := finalizeHash_spec P (dropTag s)
  rw [computeTag]
  simp only
  generalize dropTag s = u at *
  obtain ⟨f1, f2, f3⟩ := f
  generalize finalizeHash P u = v at *
  have hsum : v.hashLane.sum = finalSum P s := by
    rw [f1, finalSum, finalSum, d2]
  have hreq : v.requests = s.requests ++ hashRequestsOf s := by
    rw [f2, hashRequestsOf, hashRequestsOf, d2]
  have hpos : v.mainLane.mainPos.toNat = partialLen s := by rw [f3, ← d1]
  have hbuf : v.mainLane.mainBuf = s.mainLane.mainBuf := by rw [f3, d2]
  have hoff : v.mainLane.offsetMain = s.mainLane.offsetMain := by rw [f3, d2]
  have hchk : v.mainLane.checksum = s.mainLane.checksum := by rw [f3, d2]
  have hkey : v.hpKey = s.hpKey := by rw [f3, d2]
  have hls : v.lStar = s.lStar := by rw [f3, d2]
  have hld : v.lDollar = s.lDollar := by rw [f3, d2]
  have hmode : v.mode = s.mode := by rw [f3, d2]
  have htag : v.tagLen = s.tagLen := by rw [f3, d2]
  have hmac : v.macBlock = s.macBlock := by rw [f3, d2]
  have hv : v = { s with hashLane := v.hashLane, requests := v.requests, mainLane := v.mainLane } := by
    rw [f3, d2]
  clear f1 f2 f3 d1 d2
  by_cases h0 : v.mainLane.mainPos = 0
  · have hp0 : partialLen s = 0 := by rw [← hpos, h0]; rfl
    rw [partialCrypt_zero P h0]
    refine ⟨?_, ?_, ?_, fun i hi => ?_⟩
    · simp only [partialOut, hp0, slice_zero_len, List.zipWith_nil_left]
    · simp only
      rw [storeMac_rawTag]
      generalize storeMac (rawTag P v) = w
      rw [hv]
    · simp only
      rw [storeMac_rawTag]
      simp only [hreq, hchk, hoff, hld, partRequests, hp0, if_true, List.append_nil, tagInput]
    · simp only
      rw [storeMac_rawTag_macBlock]
      simp only [htag, hkey, hchk, hoff, hld, hsum, hmac, tagInput, hp0, if_true]
  · obtain ⟨buf, hb⟩ := partialCrypt_pos P h0 (by omega)
    have hpart : partOf P v = partialOut P s := by
      simp only [partOf, partialOut, hpos, hbuf, hoff, hkey, hls]
    have hplain : plainOf P v = partialPlain P s := by
      simp only [plainOf, partialPlain, hpart, hpos, hbuf, hmode] <;> (cases s.mode <;> rfl)
    have hp0 : partialLen s ≠ 0 := by
      rw [← hpos]
      intro h
      exact h0 (BitVec.eq_of_toNat_eq (by simpa using h))
    rw [hb, hpart, hplain]
    refine ⟨rfl, ?_, ?_, fun i hi => ?_⟩
    · simp only
      rw [storeMac_rawTag]
      simp only
      rw [hv]
    · simp only
      rw [storeMac_rawTag]
      simp only [hreq, hchk, hoff, hls, hld, partRequests, hp0, if_false, tagInput]
    · simp only
      rw [storeMac_rawTag_macBlock]
      simp only [htag, hkey, hchk, hoff, hls, hld, hsum, hmac, tagInput, hp0, if_false]

/-- R196: the tag in `macBlock`. -/
theorem tagComputed_macBytes {P : Platform} {s : State} {r : List Byte × State} (h : TagComputed P s r)
    (ht : s.tagLen.toNat ≤ 16) : macBytes r.2 = expectedTag P s := by
  have hl : r.2.macLen = s.tagLen := by rw [h.only]
  refine List.ext_getElem (by simp [macBytes, hl, expectedTag]; omega) fun i hi _ => ?_
  have hi' : i < s.tagLen.toNat := by simpa [macBytes, hl] using hi
  simp only [macBytes, slice_getElem, Nat.zero_add, expectedTag, List.getElem_take, Vector.getElem_toList]
  rw [byteAt_lt (by omega), h.mac i (by omega), if_pos hi', byteAt_lt (by omega)]

/-! The comparison (R198). -/

theorem foldl_or_eq_zero (f : Nat → Byte) : ∀ (l : List Nat) (a : Byte),
    l.foldl (fun acc i => acc ||| f i) a = 0 ↔ a = 0 ∧ ∀ i ∈ l, f i = 0
  | [], a => by simp
  | i :: l, a => by
    have h : a ||| f i = 0 ↔ a = 0 ∧ f i = 0 := BitVec.or_eq_zero_iff
    rw [List.foldl_cons, foldl_or_eq_zero f l, List.forall_mem_cons, h, and_assoc]

/-- R198: the accumulator is zero exactly when all pairs are equal. -/
theorem tagDifference_eq_zero {m : Nat} (computed : Bytes m) (received : List Byte) (n : Nat) :
    tagDifference computed received n = 0 ↔ ∀ i < n, byteAt computed i = received.getD i 0 := by
  rw [tagDifference, foldl_or_eq_zero]
  simp [BitVec.xor_eq_zero_iff]

theorem length_expectedTag (P : Platform) {s : State} (ht : s.tagLen.toNat ≤ 16) :
    (expectedTag P s).length = s.tagLen.toNat := by
  simp [expectedTag, ht]

/-- R198: FINALIZE accepts exactly the candidate tag that is the tag it computed. -/
theorem tagDifference_computed {P : Platform} {s : State} {r : List Byte × State} (h : TagComputed P s r)
    (ht : s.tagLen.toNat ≤ 16) (hm : s.mode = .decrypt) :
    tagDifference r.2.macBlock (receivedTag s) s.tagLen.toNat = 0 ↔ expectedTag P s = candidateTag s := by
  have hr : receivedTag s = candidateTag s := by simp only [receivedTag, candidateTag, hm]
  have hb := tagComputed_macBytes h ht
  have hl : r.2.macLen = s.tagLen := by rw [h.only]
  rw [tagDifference_eq_zero, hr, ← hb, macBytes, hl]
  constructor
  · intro hh
    refine List.ext_getElem (by simp [candidateTag]) fun i hi hi' => ?_
    have hi2 : i < s.tagLen.toNat := by simpa using hi
    have := hh i hi2
    rw [List.getD_eq_getElem?_getD, List.getElem?_eq_getElem hi', Option.getD_some] at this
    rw [slice_getElem, Nat.zero_add, this]
  · intro hh i hi
    rw [← hh, getD_slice, if_pos hi]

/-! The end of the command. -/

/-- R199 in one record. -/
theorem completeFinalize_eq (P : Platform) (w : Nat) (s : State) :
    completeFinalize P w s = { s with
      phase := .final
      response := okResponse w []
      hashLane := (resetProcedure P true s).hashLane
      mainLane := { MainLane.zero with offsetMain := s.offsetMain0 }
      ladder := (resetProcedure P true s).ladder
      requests := (resetProcedure P true s).requests } := by
  have h : OnlyHash (clearLanes true s) (resetProcedure P true s) := onlyHash_resetProcedure P true s
  rw [completeFinalize, respond]
  generalize resetProcedure P true s = t at *
  rw [h]
  rfl

/-- What a FINALIZE that ends OK leaves: `w` bytes reported, `out` written at `outOff`. -/
structure MessageClosed (P : Platform) (s t : State) (outOff w : Nat) (out : List Byte) : Prop where
  frame : t = { s with
    phase := .final
    response := okResponse w []
    mainLane := { MainLane.zero with offsetMain := s.offsetMain0 }
    hashLane := t.hashLane, ladder := t.ladder, requests := t.requests
    obuf := s.obuf.write outOff out
    macBlock := t.macBlock, macLen := s.tagLen }
  hash : LadderOk s.lDollar s.ladder → LadderOk s.lDollar t.ladder ∧
    t.hashLane = (initAADBytes s).foldl (hashByteOf (permEnc P s.hpKey) s.lDollar) HashLane.zero
  grown : s.ladder <+: t.ladder
  short : s.ladder.length ≤ 64 → t.ladder.length ≤ 64
  lanes : LanesOk t
  mac : macBytes t = expectedTag P s
  requests : ∃ r : List Block, r.length = s.initAADLen.toNat / 16 ∧
    t.requests = s.requests ++ hashRequestsOf s ++ partRequests s ++ [.enc .hp (tagInput P s)] ++ r.map (.enc .hp)

theorem messageClosed_complete {P : Platform} {s : State} {r : List Byte × State} (h : TagComputed P s r)
    (ht : s.tagLen.toNat ≤ 16) (outOff w : Nat) (out : List Byte) :
    MessageClosed P s (completeFinalize P w { r.2 with obuf := s.obuf.write outOff out }) outOff w out := by
  have hm := tagComputed_macBytes h ht
  have hq := h.requests
  have ho := h.only
  have hl : r.2.macLen = s.tagLen := by rw [ho]
  clear h
  generalize r.2 = u at *
  have hlanes : LanesOk (completeFinalize P w { u with obuf := s.obuf.write outOff out }) := by
    have h1 := lanesOk_resetProcedure P true { u with obuf := s.obuf.write outOff out }
    have h2 : OnlyHash (clearLanes true { u with obuf := s.obuf.write outOff out })
      (resetProcedure P true { u with obuf := s.obuf.write outOff out }) := onlyHash_resetProcedure _ _ _
    have h3 := onlyHash_mainLane h2
    have h4 := onlyHash_mode h2
    have h5 := onlyHash_tagLen h2
    rw [completeFinalize_eq]
    exact ⟨h1.hashPos, by
      have h6 := h1.mainPos
      rw [mainBufLen_eq, h4, h5, h3] at h6
      rw [mainBufLen_eq]
      exact h6, h1.hashLadder, by
      have h6 := h1.mainLadder
      rw [h3] at h6
      exact h6⟩
  have hc := hashCounts_resetProcedure P true { u with obuf := s.obuf.write outOff out }
  have hh := fun hl => resetProcedure_hashLane P true (s := { u with obuf := s.obuf.write outOff out }) hl
  have hlad := fun hl => ladderOk_absorb P (initAADBytes { u with obuf := s.obuf.write outOff out })
    (s := clearLanes true { u with obuf := s.obuf.write outOff out }) hl
  have hi : initAADBytes { u with obuf := s.obuf.write outOff out } = initAADBytes s := by rw [ho]; rfl
  have hk : u.hpKey = s.hpKey := by rw [ho]
  have hd : u.lDollar = s.lDollar := by rw [ho]
  have hladder : u.ladder = s.ladder := by rw [ho]
  have hn : u.initAADLen = s.initAADLen := by rw [ho]
  have hoff : u.offsetMain0 = s.offsetMain0 := by rw [ho]
  rw [completeFinalize_eq] at hlanes ⊢
  rw [← resetProcedure_eq] at hlad
  generalize resetProcedure P true { u with obuf := s.obuf.write outOff out } = v at *
  refine ⟨?_, fun hok => ⟨?_, ?_⟩, ?_, fun h => ?_, hlanes, hm, ?_⟩
  · simp only [hoff]
    rw [ho]
  · have := hlad (by simpa only [clearLanes, hd, hladder] using hok)
    simpa only [clearLanes, hd] using this
  · have := hh (by simpa only [hd, hladder] using hok)
    rw [hi] at this
    simpa only [hk, hd] using this
  · simpa only [clearLanes, hladder] using hc.grown
  · exact hc.short (by simpa only [clearLanes, hladder] using h)
  · obtain ⟨b, hb, hb'⟩ := hc.requests
    refine ⟨b, by rw [hb, ← hn]; simp [clearLanes, HashLane.zero], ?_⟩
    simp only
    rw [hb', ← hq]
    rfl

theorem closeMessage_eq (P : Platform) (outOff : Nat) (s : State) :
    closeMessage P outOff s =
      match (computeTag P s).2.mode with
      | .encrypt =>
        completeFinalize P ((computeTag P s).1.length + (computeTag P s).2.tagLen.toNat)
          (memWriteObuf (outOff + (computeTag P s).1.length) (macBytes (computeTag P s).2)
            (memWriteObuf outOff (computeTag P s).1 (computeTag P s).2))
      | .decrypt =>
        if tagDifference (computeTag P s).2.macBlock (receivedTag s) (computeTag P s).2.tagLen.toNat ≠ 0 then
          authenticationFailed outOff (computeTag P s).1 (computeTag P s).2
        else
          completeFinalize P (computeTag P s).1.length (memWriteObuf outOff (computeTag P s).1 (computeTag P s).2) := by
  simp only [closeMessage] <;> (cases (computeTag P s).2.mode <;> rfl)

theorem length_partialOut (P : Platform) {s : State} (hp : partialLen s < 16) :
    (partialOut P s).length = partialLen s := by
  simp [partialOut]; omega

/-- R190, Encrypt. -/
theorem closeMessage_encrypt (P : Platform) {s : State} (outOff : Nat) (hm : s.mode = .encrypt) (hp : partialLen s < 16)
    (ht : s.tagLen.toNat ≤ 16) :
    MessageClosed P s (closeMessage P outOff s) outOff (partialLen s + s.tagLen.toNat)
      (partialOut P s ++ expectedTag P s) := by
  have h := computeTag_spec P (s := s) (by simp only [dataTooShort, hm]) hp
  have hmode : (computeTag P s).2.mode = .encrypt := by rw [h.only]; exact hm
  have htag : (computeTag P s).2.tagLen = s.tagLen := by rw [h.only]
  have hobuf : (computeTag P s).2.obuf = s.obuf := by rw [h.only]
  have hlen := length_partialOut P hp
  rw [closeMessage_eq, hmode]
  simp only
  rw [h.part, hlen, htag, tagComputed_macBytes h ht]
  have hw : memWriteObuf (outOff + partialLen s) (expectedTag P s)
      (memWriteObuf outOff (partialOut P s) (computeTag P s).2) =
      { (computeTag P s).2 with obuf := s.obuf.write outOff (partialOut P s ++ expectedTag P s) } := by
    rw [Memory.write_append, hlen, ← hobuf]
    rfl
  rw [hw]
  exact messageClosed_complete h ht outOff _ _

/-- R190, Decrypt, the tags equal. -/
theorem closeMessage_accept (P : Platform) {s : State} (outOff : Nat) (hm : s.mode = .decrypt)
    (hd : s.tagLen.toNat ≤ s.mainLane.mainPos.toNat) (hp : partialLen s < 16) (ht : s.tagLen.toNat ≤ 16)
    (he : expectedTag P s = candidateTag s) :
    MessageClosed P s (closeMessage P outOff s) outOff (partialLen s) (partialOut P s) := by
  have h := computeTag_spec P (s := s) (by simp only [dataTooShort, hm]; simpa using hd) hp
  have hmode : (computeTag P s).2.mode = .decrypt := by rw [h.only]; exact hm
  have htag : (computeTag P s).2.tagLen = s.tagLen := by rw [h.only]
  have hobuf : (computeTag P s).2.obuf = s.obuf := by rw [h.only]
  have hlen := length_partialOut P hp
  have hz := (tagDifference_computed h ht hm).mpr he
  rw [closeMessage_eq, hmode]
  simp only
  rw [htag, hz, if_neg (by simp), h.part, hlen]
  have hw : memWriteObuf outOff (partialOut P s) (computeTag P s).2 =
      { (computeTag P s).2 with obuf := s.obuf.write outOff (partialOut P s) } := by
    rw [← hobuf]
    rfl
  rw [hw]
  exact messageClosed_complete h ht outOff _ _

/-- R190, R198, R201, Decrypt, the tags different: AuthenticationFailed. -/
theorem closeMessage_reject (P : Platform) {s : State} (outOff : Nat) (hm : s.mode = .decrypt)
    (hd : s.tagLen.toNat ≤ s.mainLane.mainPos.toNat) (hp : partialLen s < 16) (ht : s.tagLen.toNat ≤ 16)
    (he : expectedTag P s ≠ candidateTag s) :
    closeMessage P outOff s = { s with
      response := bareResponse .authenticationFailed
      macBlock := zeroBytes 32, macLen := 0
      hashLane := HashLane.free s.draws, mainLane := MainLane.free s.draws, draws := s.draws + 1
      phase := .error
      obuf := s.obuf.write outOff (freeWindow s.draws (partialLen s))
      requests := s.requests ++ hashRequestsOf s ++ partRequests s ++ [.enc .hp (tagInput P s)] } := by
  have h := computeTag_spec P (s := s) (by simp only [dataTooShort, hm]; simpa using hd) hp
  have hmode : (computeTag P s).2.mode = .decrypt := by rw [h.only]; exact hm
  have htag : (computeTag P s).2.tagLen = s.tagLen := by rw [h.only]
  have hlen := length_partialOut P hp
  have hz : tagDifference (computeTag P s).2.macBlock (receivedTag s) s.tagLen.toNat ≠ 0 :=
    fun hz => he ((tagDifference_computed h ht hm).mp hz)
  rw [closeMessage_eq, hmode]
  simp only
  rw [htag, if_pos hz, h.part, authenticationFailed, hlen, ← h.requests]
  have ho := h.only
  generalize (computeTag P s).2 = u at *
  rw [ho]
  rfl

/-! The frame of FINALIZE in every state. -/

/-- `t` is `s` but for the lanes, the tag and the request trace. -/
def OnlyTag (s t : State) : Prop :=
  t = { s with
    hashLane := t.hashLane, mainLane := t.mainLane, requests := t.requests, macBlock := t.macBlock, macLen := t.macLen }

theorem onlyTag_trans {s t u : State} (h : OnlyTag s t) (h' : OnlyTag t u) : OnlyTag s u := by
  unfold OnlyTag at *
  rw [h', h]

theorem onlyTag_dropTag (s : State) : OnlyTag s (dropTag s) := by
  unfold dropTag
  split <;> rfl

theorem onlyTag_finalizeHash (P : Platform) (s : State) : OnlyTag s (finalizeHash P s) := by
  rw [finalizeHash_eq]
  split <;> rfl

theorem onlyTag_partialCrypt (P : Platform) (s : State) : OnlyTag s (partialCrypt P s).2 := by
  unfold partialCrypt
  split
  · rfl
  · simp only [hashPerm, logRequest]
    split <;> rfl

theorem onlyTag_storeMac_rawTag (P : Platform) (s : State) : OnlyTag s (storeMac (rawTag P s)) := by
  unfold OnlyTag
  rw [storeMac_rawTag]

theorem onlyTag_computeTag (P : Platform) (s : State) : OnlyTag s (computeTag P s).2 := by
  unfold computeTag
  exact onlyTag_trans (onlyTag_dropTag s) (onlyTag_trans (onlyTag_finalizeHash P _)
    (onlyTag_trans (onlyTag_partialCrypt P _) (onlyTag_storeMac_rawTag P _)))

/-- However FINALIZE ends once its checks have passed, in whatever state it began. -/
theorem closeMessage_cases (P : Platform) (outOff : Nat) (s : State) :
    (s.mode = .decrypt ∧ ∃ out requests, closeMessage P outOff s = { s with
      response := bareResponse .authenticationFailed
      macBlock := zeroBytes 32, macLen := 0
      hashLane := HashLane.free s.draws, mainLane := MainLane.free s.draws, draws := s.draws + 1
      phase := .error, obuf := s.obuf.write outOff out, requests := requests }) ∨
    (∃ w out macBlock macLen requests hashLane ladder, s.ladder <+: ladder ∧ closeMessage P outOff s = { s with
      response := okResponse w []
      macBlock := macBlock, macLen := macLen, hashLane := hashLane, ladder := ladder
      mainLane := { MainLane.zero with offsetMain := s.offsetMain0 }
      phase := .final, obuf := s.obuf.write outOff out, requests := requests }) := by
  have ho := onlyTag_computeTag P s
  rw [closeMessage_eq]
  generalize (computeTag P s).1 = part
  generalize (computeTag P s).2 = u at *
  have hm : u.mode = s.mode := by rw [ho]
  have hob : u.obuf = s.obuf := by rw [ho]
  have hlad : u.ladder = s.ladder := by rw [ho]
  have hfin : ∀ (w : Nat) (v : Memory) (out : List Byte), v = s.obuf.write outOff out →
      ∃ n out macBlock macLen requests hashLane ladder, s.ladder <+: ladder ∧
      completeFinalize P w { u with obuf := v } = { s with
        response := okResponse n []
        macBlock := macBlock, macLen := macLen, hashLane := hashLane, ladder := ladder
        mainLane := { MainLane.zero with offsetMain := s.offsetMain0 }
        phase := .final, obuf := s.obuf.write outOff out, requests := requests } := by
    intro w v out hv
    refine ⟨w, out, u.macBlock, u.macLen, (resetProcedure P true { u with obuf := v }).requests,
      (resetProcedure P true { u with obuf := v }).hashLane, (resetProcedure P true { u with obuf := v }).ladder, ?_, ?_⟩
    · have := (hashCounts_resetProcedure P true { u with obuf := v }).grown
      simpa only [clearLanes, hlad] using this
    · rw [completeFinalize_eq]
      generalize resetProcedure P true { u with obuf := v } = r
      rw [← hv, ho]
  split
  · right
    exact hfin (part.length + u.tagLen.toNat) ((u.obuf.write outOff part).write (outOff + part.length) (macBytes u))
      (part ++ macBytes u) (by rw [Memory.write_append, hob])
  · rename_i hd
    split
    · left
      refine ⟨by rw [← hm, hd], freeWindow u.draws part.length, u.requests, ?_⟩
      rw [authenticationFailed, raiseError]
      generalize freeWindow u.draws part.length = w
      rw [ho]
      rfl
    · right
      exact hfin part.length (u.obuf.write outOff part) part (by rw [hob])

end Sys2Proof.Machine
end

