-- ==== Sys2Proof/Laws/Message.lean ====
section
/-! SUPPORT. Whole messages (spec/44_finalizer.md R203, 45_session_control.md R231): the closed forms of the ciphertext,
the plaintext and the tag, and that FINALIZE computes them. -/

namespace Sys2Proof.Machine

open Sys2Proof.Safety

theorem length_tailOf (x : List Byte) : (tailOf x).length = x.length % 16 := by
  simp [tailOf]; omega

theorem tailOf_eq_nil (x : List Byte) : tailOf x = [] ↔ x.length % 16 = 0 := by
  rw [← List.length_eq_zero_iff, length_tailOf]

theorem length_cryptTail (E : Block → Block) (lS lD start : Block) (x : List Byte) :
    (cryptTail E lS lD start x).length = x.length % 16 := by
  rw [cryptTail, List.length_zipWith, length_tailOf, Vector.length_toList]
  omega

/-- R177: a message is as long as it was. -/
theorem length_cryptText (A E : Block → Block) (lS lD start : Block) (x : List Byte) :
    (cryptText A E lS lD start x).length = x.length := by
  rw [cryptText, List.length_append, length_cryptBlocks, length_cryptTail]; omega

theorem tailOf_cryptText (A E : Block → Block) (lS lD start : Block) (x : List Byte) :
    tailOf (cryptText A E lS lD start x) = cryptTail E lS lD start x := by
  rw [tailOf, length_cryptText, cryptText, List.drop_append_of_le_length (by rw [length_cryptBlocks]),
    List.drop_eq_nil_of_le (by rw [length_cryptBlocks]), List.nil_append]

theorem cryptBlocks_getElem? (A : Block → Block) (lD start : Block) (x : List Byte) {n i j : Nat} (hi : i < n) (hj : j < 16) :
    (cryptBlocks A lD start x 0 n)[16 * i + j]? = some (cryptBlock A lD start x i)[j] := by
  induction n with
  | zero => omega
  | succ n ih =>
    rw [cryptBlocks_add, cryptBlocks_one, Nat.zero_add]
    by_cases h : i < n
    · rw [List.getElem?_append_left (by rw [length_cryptBlocks]; omega), ih h]
    · have : i = n := by omega
      subst this
      rw [List.getElem?_append_right (by rw [length_cryptBlocks]; omega), length_cryptBlocks, Nat.add_sub_cancel_left,
        List.getElem?_eq_getElem (by simpa using hj), Vector.getElem_toList]

/-- The full blocks of a crypted message. -/
theorem blockOf_cryptText (A E : Block → Block) (lS lD start : Block) (x : List Byte) {i : Nat} (hi : i < x.length / 16) :
    blockOf (cryptText A E lS lD start x) i = cryptBlock A lD start x i := by
  ext j hj : 1
  rw [blockOf_getElem _ _ hj, cryptText, List.getD_eq_getElem?_getD,
    List.getElem?_append_left (by rw [length_cryptBlocks]; omega), cryptBlocks_getElem? A lD start x hi hj, Option.getD_some]

theorem lastOffset_cryptText (A E : Block → Block) (lS lD start : Block) (x : List Byte) :
    lastOffset lS lD start (cryptText A E lS lD start x) = lastOffset lS lD start x := by
  have h : (tailOf (cryptText A E lS lD start x) = []) ↔ (tailOf x = []) := by
    rw [tailOf_eq_nil, tailOf_eq_nil, length_cryptText]
  simp only [lastOffset, h, length_cryptText]

/-- R171: with inverse permutations, one block of the ciphertext decrypts to the block of the plaintext. -/
theorem cryptBlock_inverse {A E D : Block → Block} (hDE : ∀ b, D (A b) = b) (lS lD start : Block) (x : List Byte) {i : Nat}
    (hi : i < x.length / 16) : cryptBlock D lD start (cryptText A E lS lD start x) i = blockOf x i := by
  rw [cryptBlock, blockOf_cryptText _ _ _ _ _ _ hi, cryptBlock]
  simp only [xorBytes_cancel, hDE]

theorem zipWith_xor_cancel : ∀ (x y : List Byte), x.length ≤ y.length →
    (x.zipWith (· ^^^ ·) y).zipWith (· ^^^ ·) y = x
  | [], _, _ => by simp
  | a :: x, b :: y, h => by
    have ih := zipWith_xor_cancel x y (by simpa using h)
    simp only [List.zipWith_cons_cons, ih, BitVec.xor_assoc, BitVec.xor_self, BitVec.xor_zero]
  | _ :: _, [], h => by simp at h

theorem eq_of_blocks {x y : List Byte} (hl : x.length = y.length)
    (hb : ∀ i < x.length / 16, blockOf x i = blockOf y i) (ht : tailOf x = tailOf y) : x = y := by
  refine List.ext_getElem hl fun k hk hk' => ?_
  by_cases h : k < 16 * (x.length / 16)
  · have h1 := congrArg (fun b : Block => b[k % 16]'(Nat.mod_lt _ (by decide))) (hb (k / 16) (by omega))
    simp only [blockOf_getElem _ _ (Nat.mod_lt k (show 0 < 16 by decide)), Nat.div_add_mod,
      List.getD_eq_getElem?_getD, List.getElem?_eq_getElem hk, List.getElem?_eq_getElem hk', Option.getD_some] at h1
    exact h1
  · have h1 := congrArg (fun l : List Byte => l[k - 16 * (x.length / 16)]?) ht
    simp only [tailOf, List.getElem?_drop, ← hl, Nat.add_sub_cancel' (Nat.le_of_not_lt h),
      List.getElem?_eq_getElem hk, List.getElem?_eq_getElem hk'] at h1
    exact Option.some.inj h1

/-- R203, R231: decrypting the ciphertext gives the plaintext. -/
theorem cryptText_inverse {E D : Block → Block} (hDE : ∀ b, D (E b) = b) (lS lD start : Block) (p : List Byte) :
    cryptText D E lS lD start (cryptText E E lS lD start p) = p := by
  refine eq_of_blocks (by rw [length_cryptText, length_cryptText]) (fun i hi => ?_) ?_
  · rw [length_cryptText, length_cryptText] at hi
    rw [blockOf_cryptText _ _ _ _ _ _ (by rw [length_cryptText]; exact hi), cryptBlock_inverse hDE lS lD start p hi]
  · rw [tailOf_cryptText, cryptTail, tailOf_cryptText, lastOffset_cryptText, cryptTail]
    exact zipWith_xor_cancel _ _ (by rw [length_tailOf, Vector.length_toList]; omega)

/-! What FINALIZE computes, by what the lanes hold. -/

theorem finalSum_of_holds {P : Platform} {aad msg : List Byte} {s : State} (h : SessionHolds P aad msg s) :
    finalSum P s = aadSum (permEnc P s.hpKey) s.lStar s.lDollar aad := by
  have hp := h.hash.pos
  have h0 : s.hashLane.hashPos = 0 ↔ tailOf aad = [] := by
    rw [tailOf_eq_nil, ← hp]
    exact ⟨fun h => by rw [h]; rfl, fun h => BitVec.eq_of_toNat_eq (by simpa using h)⟩
  simp only [finalSum, aadSum, h0, h.hash.sum, h.hash.buffered, h.hash.offset]

theorem holds_encrypt {P : Platform} {aad msg : List Byte} {s : State} (h : SessionHolds P aad msg s)
    (hm : s.mode = .encrypt) :
    partialLen s = msg.length % 16 ∧
    partialOut P s = cryptTail (permEnc P s.hpKey) s.lStar s.lDollar s.offsetMain0 msg ∧
    expectedTag P s = tagOf (permEnc P s.hpKey) s.lStar s.lDollar s.offsetMain0 s.tagLen.toNat aad msg := by
  have hM := h.main
  have hpos : s.mainLane.mainPos.toNat = msg.length - 16 * (msg.length / 16) := by
    have := hM.pos
    rw [hm] at this
    exact this
  have hbuf : slice s.mainLane.mainBuf 0 s.mainLane.mainPos.toNat = tailOf msg := by
    have := hM.buffered
    rw [hm] at this
    exact this
  have hoff : s.mainLane.offsetMain = offsetAfter s.lDollar s.offsetMain0 (msg.length / 16) := by
    have := hM.offset
    rw [hm] at this
    exact this
  have hchk : s.mainLane.checksum = xorUpTo (blockOf msg) (msg.length / 16) := by
    have := hM.checksum
    rw [hm] at this
    exact this
  have hl : partialLen s = msg.length % 16 := by simp only [partialLen, hm, hpos]; omega
  have hl2 : partialLen s = s.mainLane.mainPos.toNat := by simp only [partialLen, hm]
  refine ⟨hl, ?_, ?_⟩
  · rw [partialOut, hl2, hbuf, cryptTail, lastOffset, hoff]
    split
    · rename_i h0; rw [h0]; rfl
    · rfl
  · have h0 : partialLen s = 0 ↔ tailOf msg = [] := by rw [tailOf_eq_nil, hl]
    have hpp : partialPlain P s = tailOf msg := by simp only [partialPlain, hm, hl2, hbuf]
    have hti : tagInput P s = xorBytes (xorBytes (plainChecksum msg) (lastOffset s.lStar s.lDollar s.offsetMain0 msg))
        s.lDollar := by
      simp only [tagInput, h0, hpp, hchk, hoff, plainChecksum, lastOffset]
      split <;> rfl
    rw [expectedTag, hti, finalSum_of_holds h, tagOf, rawTagOf]

theorem holds_decrypt {P : Platform} {aad c tag : List Byte} {s : State} (h : SessionHolds P aad (c ++ tag) s)
    (hm : s.mode = .decrypt) (ht : tag.length = s.tagLen.toNat) :
    s.mainLane.mainPos.toNat = c.length % 16 + s.tagLen.toNat ∧
    partialLen s = c.length % 16 ∧
    candidateTag s = tag ∧
    partialOut P s = cryptTail (permEnc P s.hpKey) s.lStar s.lDollar s.offsetMain0 c ∧
    expectedTag P s = tagOf (permEnc P s.hpKey) s.lStar s.lDollar s.offsetMain0 s.tagLen.toNat aad
      (cryptText (permDec P s.mpKey) (permEnc P s.hpKey) s.lStar s.lDollar s.offsetMain0 c) := by
  have hM := h.main
  have hn : (c ++ tag).length = c.length + tag.length := List.length_append
  have hfed : fedBlocks s.mode s.tagLen.toNat (c ++ tag).length = c.length / 16 := by
    rw [hm, fedBlocks, hn, ht, Nat.add_sub_cancel]
  have hpos : s.mainLane.mainPos.toNat = c.length % 16 + s.tagLen.toNat := by
    rw [hM.pos, hfed, hn, ht]; omega
  have hbuf : slice s.mainLane.mainBuf 0 s.mainLane.mainPos.toNat = tailOf c ++ tag := by
    rw [hM.buffered, hfed, List.drop_append_of_le_length (by omega), tailOf]
  have hoff : s.mainLane.offsetMain = offsetAfter s.lDollar s.offsetMain0 (c.length / 16) := by
    rw [hM.offset, hfed]
  have hchk : s.mainLane.checksum = xorUpTo (cryptBlock (permDec P s.mpKey) s.lDollar s.offsetMain0 c) (c.length / 16) := by
    rw [hM.checksum, hfed, hm]
    exact xorUpTo_congr fun i hi => cryptBlock_append _ _ _ _ _ (by omega)
  have hl : partialLen s = c.length % 16 := by simp only [partialLen, hm, hpos]; omega
  have hbp : slice s.mainLane.mainBuf 0 (partialLen s) = tailOf c := by
    refine List.ext_getElem (by rw [slice_length, length_tailOf, hl]) fun i hi hi' => ?_
    have hi2 : i < (tailOf c).length := hi'
    rw [length_tailOf] at hi2
    have := byteAt_of_slice hbuf (j := i) (by omega)
    rw [slice_getElem, Nat.zero_add, this, List.getD_eq_getElem?_getD, List.getElem?_append_left hi',
      List.getElem?_eq_getElem hi', Option.getD_some]
  have hout : partialOut P s = cryptTail (permEnc P s.hpKey) s.lStar s.lDollar s.offsetMain0 c := by
    rw [partialOut, hbp, cryptTail, lastOffset, hoff]
    split
    · rename_i h0; rw [h0]; rfl
    · rfl
  refine ⟨hpos, hl, ?_, hout, ?_⟩
  · refine List.ext_getElem (by rw [candidateTag, slice_length, ht]) fun i hi hi' => ?_
    have := byteAt_of_slice hbuf (j := s.mainLane.mainPos.toNat - s.tagLen.toNat + i) (by omega)
    rw [List.getD_eq_getElem?_getD, List.getElem?_append_right (by rw [length_tailOf]; omega)] at this
    simp only [candidateTag, slice_getElem, this, length_tailOf]
    rw [show s.mainLane.mainPos.toNat - s.tagLen.toNat + i - c.length % 16 = i by omega,
      List.getElem?_eq_getElem hi', Option.getD_some]
  · have h0 : partialLen s = 0 ↔ tailOf c = [] := by rw [tailOf_eq_nil, hl]
    have h1 : cryptTail (permEnc P s.hpKey) s.lStar s.lDollar s.offsetMain0 c = [] ↔ tailOf c = [] := by
      rw [← List.length_eq_zero_iff, length_cryptTail, tailOf_eq_nil]
    have hpp : partialPlain P s = cryptTail (permEnc P s.hpKey) s.lStar s.lDollar s.offsetMain0 c := by
      simp only [partialPlain, hm, hout]
    have hx : xorUpTo (blockOf (cryptText (permDec P s.mpKey) (permEnc P s.hpKey) s.lStar s.lDollar s.offsetMain0 c))
        (c.length / 16) = xorUpTo (cryptBlock (permDec P s.mpKey) s.lDollar s.offsetMain0 c) (c.length / 16) :=
      xorUpTo_congr fun i hi => blockOf_cryptText _ _ _ _ _ _ hi
    have hti : tagInput P s = xorBytes (xorBytes
        (plainChecksum (cryptText (permDec P s.mpKey) (permEnc P s.hpKey) s.lStar s.lDollar s.offsetMain0 c))
        (lastOffset s.lStar s.lDollar s.offsetMain0
          (cryptText (permDec P s.mpKey) (permEnc P s.hpKey) s.lStar s.lDollar s.offsetMain0 c))) s.lDollar := by
      rw [lastOffset_cryptText]
      simp only [plainChecksum, tailOf_cryptText, length_cryptText, hx, h1, tagInput, h0, hpp, hchk, hoff, lastOffset]
      split <;> rfl
    rw [expectedTag, hti, finalSum_of_holds h, tagOf, rawTagOf]

end Sys2Proof.Machine
end

