-- ==== Sys2Proof/Laws/Commands.lean ====
section
/-! SUPPORT. How each command can end: with a refusal, with an error, or completed, and what it has then changed
(spec/60_exceptions.md R273, R274, R276). -/

namespace Sys2Proof.Machine

open Sys2Proof.Safety

/-! The ends of a command in one record. -/

/-- R273 in one record. -/
theorem refuse_begin (st : Status) (s : State) :
    refuse st (begin s) = { s with response := bareResponse st, requests := [] } := rfl

/-- R274 in one record. -/
theorem raiseError_begin (st : Status) (s : State) :
    raiseError st (begin s) = { s with
      response := bareResponse st, macBlock := zeroBytes 32, macLen := 0
      hashLane := HashLane.free s.draws, mainLane := MainLane.free s.draws, draws := s.draws + 1
      phase := .error, requests := [] } := rfl

theorem raiseInitError_begin (st : Status) (k : Bool) (s : State) :
    raiseInitError st k (begin s) = { s with
      response := bareResponse st, macBlock := zeroBytes 32, macLen := 0
      hashLane := HashLane.free s.draws, mainLane := MainLane.free s.draws, draws := s.draws + 1
      phase := .error, requests := [], inited := false, keyed := if k then false else s.keyed } := rfl

theorem inputBytes_begin (s : State) (off len : Word) : inputBytes (begin s) off len = inputBytes s off len := rfl

theorem updsize_begin (s : State) (n : Nat) : updsize (begin s) n = updsize s n := rfl

theorem finsize_begin (s : State) (n : Nat) : finsize (begin s) n = finsize s n := rfl

/-! The checks as propositions. -/

theorem inputFits_iff (P : Platform) (off len : Word) :
    inputFits P off len = true ↔ off.toNat + len.toNat ≤ P.ibufSize.val := by
  simp only [inputFits, decide_eq_true_eq]

theorem outputFits_iff (P : Platform) (outLen : Word) : outputFits P outLen = true ↔ outLen.toNat ≤ P.obufSize.val := by
  simp only [outputFits, decide_eq_true_eq]

theorem not_feedAllowed (s : State) : (!feedAllowed (begin s)) = true ↔ s.phase ≠ .ready := by
  simp [feedAllowed]

theorem not_inputFits (P : Platform) (off len : Word) :
    (!inputFits P off len) = true ↔ ¬ off.toNat + len.toNat ≤ P.ibufSize.val := by
  rw [Bool.not_eq_true', ← Bool.not_eq_true, inputFits_iff]

theorem not_outputFits (P : Platform) (outLen : Word) :
    (!outputFits P outLen) = true ↔ ¬ outLen.toNat ≤ P.obufSize.val := by
  rw [Bool.not_eq_true', ← Bool.not_eq_true, outputFits_iff]

theorem not_roomFor (outOff outLen : Word) (n : Nat) :
    (!roomFor outOff outLen n) = true ↔ ¬ outOff.toNat + n ≤ outLen.toNat := by
  simp only [roomFor, Bool.not_eq_true', decide_eq_false_iff_not]

/-! Each command. -/

/-- FEEDAAD (R150). -/
theorem feedAadOn_eq (P : Platform) (inOff len : Word) (s : State) :
    feedAadOn P inOff len s =
      if s.phase ≠ .ready then .next { s with response := bareResponse .illegalState, requests := [] }
      else if ¬ inOff.toNat + len.toNat ≤ P.ibufSize.val then
        .next { s with response := bareResponse .badDescriptor, requests := [] }
      else if 2 ^ 64 ≤ s.hashLane.hashCount.toNat + (s.hashLane.hashPos.toNat + len.toNat) / 16 then .fault .counterWrap
      else .next (respond 0 [] (absorb P (inputBytes s inOff len) (begin s))) := by
  have h : hashCountWraps (begin s) len.toNat = true ↔
      2 ^ 64 ≤ s.hashLane.hashCount.toNat + (s.hashLane.hashPos.toNat + len.toNat) / 16 := decide_eq_true_iff
  simp only [feedAadOn, not_feedAllowed, not_inputFits, h, refuse_begin, inputBytes_begin]

/-- FEEDMSG (R170). -/
theorem feedMsgOn_eq (P : Platform) (inOff len outOff outLen : Word) (s : State) :
    feedMsgOn P inOff len outOff outLen s =
      if s.phase ≠ .ready then .next { s with response := bareResponse .illegalState, requests := [] }
      else if ¬ (inOff.toNat + len.toNat ≤ P.ibufSize.val ∧ outLen.toNat ≤ P.obufSize.val) then
        .next { s with response := bareResponse .badDescriptor, requests := [] }
      else if ¬ outOff.toNat + updsize s len.toNat ≤ outLen.toNat then .next (raiseError .bufferTooSmall (begin s))
      else if 2 ^ 64 ≤ s.mainLane.mainCount.toNat + updsize s len.toNat / 16 then .fault .counterWrap
      else .next (respond (feedMain P outOff.toNat (inputBytes s inOff len) 0 (begin s)).1 []
        (feedMain P outOff.toNat (inputBytes s inOff len) 0 (begin s)).2) := by
  have h : mainCountWraps (begin s) len.toNat = true ↔
      2 ^ 64 ≤ s.mainLane.mainCount.toNat + updsize s len.toNat / 16 := decide_eq_true_iff
  have h2 : (!(inputFits P inOff len && outputFits P outLen)) = true ↔
      ¬ (inOff.toNat + len.toNat ≤ P.ibufSize.val ∧ outLen.toNat ≤ P.obufSize.val) := by
    rw [Bool.not_eq_true', ← Bool.not_eq_true, Bool.and_eq_true, inputFits_iff, outputFits_iff]
  simp only [feedMsgOn, not_feedAllowed, h2, updsize_begin, not_roomFor, h, refuse_begin, inputBytes_begin]

/-- UPDSIZE (R174). -/
theorem execUpdsize_eq (len : Word) (s : State) :
    execUpdsize len s =
      if s.phase = .ready ∨ s.phase = .final then
        .next { s with response := okResponse (updsize s len.toNat) [], requests := [] }
      else .next { s with response := bareResponse .illegalState, requests := [] } := by
  cases hp : s.phase <;> simp [execUpdsize, queryAllowed, hp, refuse, respond, begin, updsize]

/-- FINSIZE (R175). -/
theorem execFinsize_eq (len : Word) (s : State) :
    execFinsize len s =
      if s.phase = .ready ∨ s.phase = .final then
        .next { s with response := okResponse (finsize s len.toNat) [], requests := [] }
      else .next { s with response := bareResponse .illegalState, requests := [] } := by
  cases hp : s.phase <;> simp [execFinsize, queryAllowed, hp, refuse, respond, begin, finsize]

/-- FINALIZE (R190). -/
theorem finalizeOn_eq (P : Platform) (outOff outLen : Word) (s : State) :
    finalizeOn P outOff outLen s =
      if s.phase ≠ .ready then .next { s with response := bareResponse .illegalState, requests := [] }
      else if ¬ outLen.toNat ≤ P.obufSize.val then
        .next { s with response := bareResponse .badDescriptor, requests := [] }
      else if 16 < s.tagLen.toNat then
        .next { s with response := bareResponse .unsupportedTagLength, requests := [] }
      else if dataTooShort s = true then .next (raiseError .dataTooShort (begin s))
      else if ¬ outOff.toNat + finsize s 0 ≤ outLen.toNat then .next (raiseError .bufferTooSmall (begin s))
      else .next (closeMessage P outOff.toNat (begin s)) := by
  have h : dataTooShort (begin s) = dataTooShort s := rfl
  simp only [finalizeOn, not_feedAllowed, not_outputFits, not_roomFor, begin_tagLen, refuse_begin, finsize_begin, h]

/-- RESET (R226). -/
theorem resetOn_eq (P : Platform) (s : State) :
    resetOn P s =
      if s.phase = .ready ∨ s.phase = .final ∨ (s.phase = .error ∧ s.inited = true) then
        .next (respond 0 [] { resetProcedure P false (begin s) with phase := .ready })
      else .next { s with response := bareResponse .illegalState, requests := [] } := by
  cases hp : s.phase <;> cases hi : s.inited <;> simp [resetOn, resetAllowed, hp, hi, refuse, begin]

/-- MAC (R204). -/
theorem execMac_eq (s : State) :
    execMac s =
      if s.phase = .noSession then .next { s with response := bareResponse .illegalState, requests := [] }
      else if s.phase ≠ .final then .next { s with response := bareResponse .macNotReady, requests := [] }
      else .next { s with response := okResponse 0 (macBytes s), requests := [] } := by
  cases hp : s.phase <;> simp [execMac, sessionOpen, hp, refuse, respond, begin, macBytes]

/-- ALGID (R227). -/
theorem algIdOn_eq (P : Platform) (s : State) :
    algIdOn P s =
      if s.phase = .noSession then .next { s with response := bareResponse .illegalState, requests := [] }
      else .next { s with response := okResponse 0 (P.hpName.string ++ ocbSuffix), requests := [] } := by
  cases hp : s.phase <;> simp [algIdOn, sessionOpen, hp, refuse, respond, begin]

/-- NEWSESSION (R221). -/
theorem newSessionOn_eq (P : Platform) (s : State) :
    newSessionOn P s =
      if P.hpBlk = 16 ∧ P.mpBlk = 16 ∧ P.hpName.string = P.mpName.string then
        .next { zeroize s with phase := .uninit, response := okResponse 0 [] }
      else .next { zeroize s with response := bareResponse .configurationError } := by
  simp only [newSessionOn, strapsAgree, Bool.and_eq_true, beq_iff_eq, and_assoc]
  split <;> rfl

/-- INIT (R222). -/
theorem initOn_eq (P : Platform) (k e : Bool) (tagLenBits : BitVec 16)
    (keyOff keyLen nonceOff nonceLen aadOff aadLen : Word) (s : State) :
    initOn P k e tagLenBits keyOff keyLen nonceOff nonceLen aadOff aadLen s =
      if ¬ (k = true ∨ (keyOff = 0 ∧ keyLen = 0)) then
        .next { s with response := bareResponse .illegalCommand, requests := [] }
      else if ¬ (s.phase ≠ .noSession ∧ (k = true ∨ s.keyed = true)) then
        .next { s with response := bareResponse .illegalState, requests := [] }
      else if ¬ (32 ≤ tagLenBits.toNat ∧ tagLenBits.toNat ≤ 256 ∧ tagLenBits.toNat % 8 = 0) then
        .next (raiseInitError .invalidTagLength k (begin s))
      else if ¬ (1 ≤ nonceLen.toNat ∧ nonceLen.toNat ≤ 15) then .next (raiseInitError .invalidNonce k (begin s))
      else if ¬ (keyOff.toNat + keyLen.toNat ≤ P.ibufSize.val ∧ nonceOff.toNat + nonceLen.toNat ≤ P.ibufSize.val ∧
          aadOff.toNat + aadLen.toNat ≤ P.ibufSize.val ∧ aadLen.toNat ≤ P.iaadMax.val) then
        .next { s with response := bareResponse .badDescriptor, requests := [] }
      else if ¬ (k = true → P.keyLenOk keyLen.toNat = true) then
        .next { s with response := bareResponse .keyRejected, requests := [] }
      else .next (respond 0 [] (startSession P e tagLenBits (if k then some (inputBytes s keyOff keyLen) else none)
        (inputBytes s nonceOff nonceLen) (inputBytes s aadOff aadLen) (begin s))) := by
  have h1 : (!keyDescriptorOk k keyOff keyLen) = true ↔ ¬ (k = true ∨ (keyOff = 0 ∧ keyLen = 0)) := by
    cases k <;> simp [keyDescriptorOk, imp_iff_not_or]
  have h2 : (!initAllowed (begin s) k) = true ↔ ¬ (s.phase ≠ .noSession ∧ (k = true ∨ s.keyed = true)) := by
    cases k <;> cases hp : s.phase <;> cases hk : s.keyed <;> simp [initAllowed, hp, hk]
  have h3 : (!tagLenBitsOk tagLenBits) = true ↔
      ¬ (32 ≤ tagLenBits.toNat ∧ tagLenBits.toNat ≤ 256 ∧ tagLenBits.toNat % 8 = 0) := by
    simp only [tagLenBitsOk, Bool.not_eq_true', decide_eq_false_iff_not]
  have h4 : (!nonceLenOk nonceLen) = true ↔ ¬ (1 ≤ nonceLen.toNat ∧ nonceLen.toNat ≤ 15) := by
    simp only [nonceLenOk, Bool.not_eq_true', decide_eq_false_iff_not]
  have h5 : (!(inputFits P keyOff keyLen && inputFits P nonceOff nonceLen && aadFits P aadOff aadLen)) = true ↔
      ¬ (keyOff.toNat + keyLen.toNat ≤ P.ibufSize.val ∧ nonceOff.toNat + nonceLen.toNat ≤ P.ibufSize.val ∧
          aadOff.toNat + aadLen.toNat ≤ P.ibufSize.val ∧ aadLen.toNat ≤ P.iaadMax.val) := by
    rw [Bool.not_eq_true', ← Bool.not_eq_true, Bool.and_eq_true, Bool.and_eq_true, aadFits, Bool.and_eq_true,
      inputFits_iff, inputFits_iff, inputFits_iff, decide_eq_true_eq, and_assoc]
  have h6 : (k && !P.keyLenOk keyLen.toNat) = true ↔ ¬ (k = true → P.keyLenOk keyLen.toNat = true) := by
    cases k <;> simp
  simp only [initOn, h1, h2, h3, h4, h5, h6, refuse_begin, inputBytes_begin]

end Sys2Proof.Machine
end

