-- ==== Sys2Proof/Laws/Encoding.lean ====
section
/-! SUPPORT. The header word (spec/30_encoding.md R81, R85): its bits, its fields, and which headers select which row. -/

namespace Sys2Proof

/-- R81: every bit of a header word. -/
theorem getLsbD_headerWord (o : BitVec 8) (k e : Bool) (i : BitVec 16) (j : Nat) :
    (headerWord o k e i).getLsbD j =
      if j < 16 then i.getLsbD j else if j = 16 then e else if j = 17 then k
      else if j < 24 then false else o.getLsbD (j - 24) := by
  simp only [headerWord, BitVec.getLsbD_append, BitVec.getLsbD_ofBool]
  by_cases h1 : j < 16
  · rw [if_pos h1, if_pos h1]
  by_cases h2 : j = 16
  · subst h2; rfl
  by_cases h3 : j = 17
  · subst h3; rfl
  rw [if_neg h1, if_neg h1, if_neg h2, if_neg h3, if_neg (by omega), if_neg (by omega)]
  by_cases h4 : j < 24
  · rw [if_pos (by omega), if_pos h4]
    exact BitVec.getLsbD_zero
  · rw [if_neg (by omega), if_neg h4]
    congr 1

theorem opcField_headerWord (o : BitVec 8) (k e : Bool) (i : BitVec 16) : opcField (headerWord o k e i) = o := by
  apply BitVec.eq_of_getLsbD_eq
  intro j hj
  rw [opcField, BitVec.getLsbD_extractLsb', getLsbD_headerWord, if_neg (by omega), if_neg (by omega), if_neg (by omega),
    if_neg (by omega), Nat.add_sub_cancel_left]
  simp [hj]

theorem kField_headerWord (o : BitVec 8) (k e : Bool) (i : BitVec 16) : kField (headerWord o k e i) = k := by
  rw [kField, getLsbD_headerWord]; rfl

theorem eField_headerWord (o : BitVec 8) (k e : Bool) (i : BitVec 16) : eField (headerWord o k e i) = e := by
  rw [eField, getLsbD_headerWord]; rfl

theorem immField_headerWord (o : BitVec 8) (k e : Bool) (i : BitVec 16) : immField (headerWord o k e i) = i := by
  apply BitVec.eq_of_getLsbD_eq
  intro j hj
  rw [immField, BitVec.getLsbD_extractLsb', getLsbD_headerWord, Nat.zero_add, if_pos hj]
  simp [hj]

/-- A header with `RSV` zero is made of its fields. -/
theorem headerWord_fields {w : Word} (h : w.extractLsb' 18 6 = 0) :
    headerWord (opcField w) (kField w) (eField w) (immField w) = w := by
  apply BitVec.eq_of_getLsbD_eq
  intro j hj
  rw [getLsbD_headerWord]
  split
  · rename_i h1; rw [immField, BitVec.getLsbD_extractLsb', Nat.zero_add]; simp [h1]
  split
  · rename_i h1; rw [h1]; rfl
  split
  · rename_i h1; rw [h1]; rfl
  split
  · have hb := congrArg (fun x : BitVec 6 => x.getLsbD (j - 18)) h
    simp only [BitVec.getLsbD_extractLsb', show j - 18 < 6 by omega, decide_true, Bool.true_and,
      show 18 + (j - 18) = j by omega] at hb
    rw [hb]; exact BitVec.getLsbD_zero.symm
  · rw [opcField, BitVec.getLsbD_extractLsb', show 24 + (j - 24) = j by omega]
    simp [show j - 24 < 8 by omega]

theorem and_allOnes_eq (w : Word) : w &&& 0xFFFFFFFF = w := by
  have : (0xFFFFFFFF : Word) = BitVec.allOnes 32 := by decide
  rw [this, BitVec.and_allOnes]

/-- R85: INIT's mask leaves `K`, `E` and `IMM` free. -/
theorem init_header_iff (w : Word) :
    w &&& 0xFFFC0000 = 0x02000000 ↔ opcField w = 2 ∧ w.extractLsb' 18 6 = 0 := by
  have h : w &&& 0xFFFC0000 = (opcField w ++ w.extractLsb' 18 6 ++ (0 : BitVec 18) : BitVec 32) := by
    apply BitVec.eq_of_getLsbD_eq
    intro j hj
    have hm : (0xFFFC0000 : Word) = ((BitVec.allOnes 14) ++ (0 : BitVec 18) : BitVec 32) := by decide
    rw [hm, BitVec.getLsbD_and, BitVec.getLsbD_append, BitVec.getLsbD_append, BitVec.getLsbD_append, opcField,
      BitVec.getLsbD_extractLsb', BitVec.getLsbD_extractLsb', BitVec.getLsbD_allOnes]
    by_cases h1 : j < 18
    · rw [if_pos h1, if_pos h1]; simp
    rw [if_neg h1, if_neg h1]
    by_cases h2 : j - 18 < 6
    · rw [if_pos h2, show 18 + (j - 18) = j by omega]
      simp [h2, show j - 18 < 14 by omega]
    · rw [if_neg h2, show 24 + (j - 18 - 6) = j by omega]
      simp [show j - 18 - 6 < 8 by omega, show j - 18 < 14 by omega]
  have h' : (0x02000000 : Word) = ((2 : BitVec 8) ++ (0 : BitVec 6) ++ (0 : BitVec 18) : BitVec 32) := by decide
  rw [h, h']
  constructor
  · intro hh
    have ho := congrArg (fun x : BitVec 32 => x.extractLsb' 24 8) hh
    have hr := congrArg (fun x : BitVec 32 => x.extractLsb' 18 6) hh
    constructor
    · rw [← show (opcField w ++ w.extractLsb' 18 6 ++ (0 : BitVec 18) : BitVec 32).extractLsb' 24 8 = opcField w by
        apply BitVec.eq_of_getLsbD_eq
        intro j hj
        rw [BitVec.getLsbD_extractLsb', BitVec.getLsbD_append, BitVec.getLsbD_append, if_neg (by omega),
          if_neg (by omega), show 24 + j - 18 - 6 = j by omega]
        simp [hj]]
      rw [hh]; decide
    · rw [← show (opcField w ++ w.extractLsb' 18 6 ++ (0 : BitVec 18) : BitVec 32).extractLsb' 18 6 =
          w.extractLsb' 18 6 by
        apply BitVec.eq_of_getLsbD_eq
        intro j hj
        rw [BitVec.getLsbD_extractLsb', BitVec.getLsbD_append, BitVec.getLsbD_append, if_neg (by omega),
          if_pos (by omega), show 18 + j - 18 = j by omega]
        simp [hj]]
      rw [hh]; decide
  · rintro ⟨h1, h2⟩
    rw [h1, h2]

/-- R85: the row a header selects: INIT's for `OPC = 2` and `RSV = 0`, another command's for its one header word. -/
theorem selectRow_eq (w : Word) :
    selectRow w =
      if w = 0x01000000 then some ⟨.newsession, 0x01000000, 0xFFFFFFFF, 0⟩
      else if opcField w = 2 ∧ w.extractLsb' 18 6 = 0 then some ⟨.init, 0x02000000, 0xFFFC0000, 6⟩
      else if w = 0x03000000 then some ⟨.feedaad, 0x03000000, 0xFFFFFFFF, 2⟩
      else if w = 0x04000000 then some ⟨.feedmsg, 0x04000000, 0xFFFFFFFF, 4⟩
      else if w = 0x05000000 then some ⟨.updsize, 0x05000000, 0xFFFFFFFF, 1⟩
      else if w = 0x06000000 then some ⟨.finsize, 0x06000000, 0xFFFFFFFF, 1⟩
      else if w = 0x07000000 then some ⟨.finalize, 0x07000000, 0xFFFFFFFF, 2⟩
      else if w = 0x08000000 then some ⟨.reset, 0x08000000, 0xFFFFFFFF, 0⟩
      else if w = 0x09000000 then some ⟨.mac, 0x09000000, 0xFFFFFFFF, 0⟩
      else if w = 0x0A000000 then some ⟨.algid, 0x0A000000, 0xFFFFFFFF, 0⟩
      else none := by
  have hrow : ∀ (r : OpcodeRow) (l : List OpcodeRow) (p : Prop) [Decidable p],
      ((w &&& r.mask == r.matchBits) = true ↔ p) →
      (r :: l).find? (fun r => w &&& r.mask == r.matchBits) =
        if p then some r else l.find? (fun r => w &&& r.mask == r.matchBits) := by
    intro r l p _ h
    split
    · exact List.find?_cons_of_pos (h.mpr ‹p›)
    · exact List.find?_cons_of_neg fun hh => ‹¬ p› (h.mp hh)
  have hfull : ∀ c : Word, (w &&& 0xFFFFFFFF == c) = true ↔ w = c := fun c => by
    rw [and_allOnes_eq, beq_iff_eq]
  have hinit : (w &&& 0xFFFC0000 == 0x02000000) = true ↔ opcField w = 2 ∧ w.extractLsb' 18 6 = 0 := by
    rw [beq_iff_eq, init_header_iff]
  rw [selectRow, opcodeTable, hrow _ _ _ (hfull _), hrow _ _ _ hinit, hrow _ _ _ (hfull _), hrow _ _ _ (hfull _),
    hrow _ _ _ (hfull _), hrow _ _ _ (hfull _), hrow _ _ _ (hfull _), hrow _ _ _ (hfull _), hrow _ _ _ (hfull _),
    hrow _ _ _ (hfull _), List.find?_nil]

theorem selectRow_init (k e : Bool) (i : BitVec 16) :
    selectRow (headerWord 0x02 k e i) = some ⟨.init, 0x02000000, 0xFFFC0000, 6⟩ := by
  have h1 := opcField_headerWord 0x02 k e i
  have h2 : (headerWord 0x02 k e i).extractLsb' 18 6 = 0 := by
    apply BitVec.eq_of_getLsbD_eq
    intro j hj
    rw [BitVec.getLsbD_extractLsb', getLsbD_headerWord, if_neg (by omega), if_neg (by omega), if_neg (by omega),
      if_pos (by omega)]
    simp
  have h3 : headerWord 0x02 k e i ≠ 0x01000000 := fun h => by rw [h] at h1; revert h1; decide
  rw [selectRow_eq, if_neg h3, if_pos ⟨h1, h2⟩]

/-! The opcode table's numbering. -/

open Sys2Proof.Safety

theorem packWords_cons (w : Word) (ws : List Word) : packWords (w :: ws) = w.toNat + 2 ^ 32 * packWords ws := rfl

theorem packWords_lt : ∀ ws : List Word, packWords ws < 2 ^ (32 * ws.length)
  | [] => by decide
  | w :: ws => by
    have h := packWords_lt ws
    have hw := w.isLt
    rw [packWords_cons, List.length_cons, Nat.mul_add, Nat.mul_one, Nat.pow_add]
    generalize 2 ^ (32 * ws.length) = m at h ⊢
    omega

theorem packWords_shift : ∀ (k : Nat) (ws : List Word), packWords ws >>> (32 * k) = packWords (ws.drop k)
  | 0, ws => by simp
  | k + 1, [] => by simp [packWords]
  | k + 1, w :: ws => by
    rw [List.drop_succ_cons, ← packWords_shift k ws, packWords_cons, Nat.mul_add, Nat.mul_one, Nat.add_comm (32 * k) 32,
      Nat.shiftRight_add]
    congr 1
    rw [Nat.shiftRight_eq_div_pow]
    have := w.isLt
    omega

theorem ofNat_packWords_cons (w : Word) (ws : List Word) : BitVec.ofNat 32 (packWords (w :: ws)) = w := by
  apply BitVec.eq_of_toNat_eq
  rw [packWords_cons, BitVec.toNat_ofNat, Nat.add_mul_mod_self_left]
  exact Nat.mod_eq_of_lt w.isLt

/-- The words of a command, out of their bits. -/
theorem tableWords_packWords {header : Word} {operands : List Word} (h : operandCount header = operands.length) :
    tableWords (32 * (header :: operands).length) (packWords (header :: operands)) = header :: operands := by
  simp only [tableWords, Nat.mod_eq_of_lt (packWords_lt (header :: operands)), ofNat_packWords_cons, h]
  congr 1
  refine List.ext_getElem (by simp) fun k hk hk' => ?_
  rw [List.getElem_map, List.getElem_range, packWords_shift, List.drop_succ_cons, List.drop_eq_getElem_cons hk',
    ofNat_packWords_cons]

end Sys2Proof
end

