-- ==== Sys2Proof/Laws/Feed.lean ====
section
/-! SUPPORT. What a FEEDAAD and a FEEDMSG that end OK do to a session, and the tail window of Decrypt mode
(spec/42_hash_lane.md R150, R154; 43_crypt_lane.md R170, R173, R176; 10_state.md R41). -/

namespace Sys2Proof.Machine

open Sys2Proof.Safety

/-- R150: when FEEDAAD ends OK: the phase, the descriptor, the counter below its end, and the state after. -/
theorem feedAad_ok {P : Platform} {inOff len : Word} {s t : State} (h : feedAadOn P inOff len s = .next t)
    (hr : t.response.rstat = .ok) :
    s.phase = .ready ∧ inOff.toNat + len.toNat ≤ P.ibufSize.val ∧
    s.hashLane.hashCount.toNat + (s.hashLane.hashPos.toNat + len.toNat) / 16 < 2 ^ 64 ∧
    t = respond 0 [] (absorb P (inputBytes s inOff len) (begin s)) := by
  rw [feedAadOn_eq] at h
  split at h
  · cases h; cases hr
  split at h
  · cases h; cases hr
  split at h
  · cases h
  · rename_i h1 h2 h3
    cases h
    exact ⟨not_not.mp h1, not_not.mp h2, by omega, rfl⟩

/-- R170: when FEEDMSG ends OK: the phase, the descriptors, the room, the counter below its end, and the state after. -/
theorem feedMsg_ok {P : Platform} {inOff len outOff outLen : Word} {s t : State}
    (h : feedMsgOn P inOff len outOff outLen s = .next t) (hr : t.response.rstat = .ok) :
    s.phase = .ready ∧ inOff.toNat + len.toNat ≤ P.ibufSize.val ∧ outLen.toNat ≤ P.obufSize.val ∧
    outOff.toNat + updsize s len.toNat ≤ outLen.toNat ∧
    s.mainLane.mainCount.toNat + updsize s len.toNat / 16 < 2 ^ 64 ∧
    t = respond (feedMain P outOff.toNat (inputBytes s inOff len) 0 (begin s)).1 []
      (feedMain P outOff.toNat (inputBytes s inOff len) 0 (begin s)).2 := by
  rw [feedMsgOn_eq] at h
  split at h
  · cases h; cases hr
  split at h
  · cases h; cases hr
  split at h
  · cases h; cases hr
  split at h
  · cases h
  · rename_i h1 h2 h3 h4
    cases h
    exact ⟨not_not.mp h1, (not_not.mp h2).1, (not_not.mp h2).2, not_not.mp h3, by omega, rfl⟩

/-- R176: the position FEEDMSG leaves and the number of bytes it reports. -/
theorem feedMsg_position {P : Platform} {inOff len outOff outLen : Word} {s t : State} (hs : SessionOk P s)
    (h : feedMsgOn P inOff len outOff outLen s = .next t) (hr : t.response.rstat = .ok) :
    t.response.rval.toNat = updsize s len.toNat ∧
    t.mainLane.mainPos.toNat + updsize s len.toNat = s.mainLane.mainPos.toNat + len.toNat ∧
    t.mode = s.mode ∧ t.tagLen = s.tagLen := by
  obtain ⟨hp, -, -, -, hc, ht⟩ := feedMsg_ok h hr
  have hl := hs.ready hp
  have h32 := (hs.inited hl.1).2.2.1
  have hw : (begin s).mainLane.mainCount.toNat + blocksDone (begin s) (inputBytes s inOff len).length < 2 ^ 64 := by
    rw [inputBytes_length]
    rw [updsize_eq, Nat.mul_div_cancel_left _ (by decide)] at hc
    exact hc
  have hm := mainCounts_feedMain P outOff.toNat (inputBytes s inOff len) 0 (s := begin s) h32 hl.2.mainPos hw
  have hn := feedMain_count P outOff.toNat (inputBytes s inOff len) 0 (s := begin s) h32 hl.2.mainPos hw
  have hpos := hm.pos
  have hle := le_mainBufLen s
  have hu := updsize_eq s len.toNat
  have hb : blocksDone (begin s) len.toNat = blocksDone s len.toNat := rfl
  rw [inputBytes_length, hb] at hpos hn
  have hlt : 16 * blocksDone s len.toNat ≤ s.mainLane.mainPos.toNat + len.toNat := by
    simp only [blocksDone]; omega
  refine ⟨?_, ?_, ?_, ?_⟩
  · have h2 : updsize s len.toNat < 2 ^ 64 := by
      have := len.isLt
      have := s.mainLane.mainPos.isLt
      omega
    rw [ht, respond_response, okResponse, hn, Nat.zero_add, ← hu, BitVec.toNat_ofNat, Nat.mod_eq_of_lt h2]
  · rw [ht, respond_mainLane, hpos, hu]
    simp only [begin_mainLane]
    omega
  · rw [ht, respond_mode, onlyMain_mode hm.only, begin_mode]
  · rw [ht, respond_tagLen, onlyMain_tagLen hm.only, begin_tagLen]

/-- R150, R154: what the hash lane holds after FEEDAAD. -/
theorem feedAad_holds {P : Platform} {inOff len : Word} {s t : State} {aad : List Byte} (hs : SessionOk P s)
    (hh : HashLaneHolds (permEnc P s.hpKey) s.lDollar aad s.hashLane) (h : feedAadOn P inOff len s = .next t)
    (hr : t.response.rstat = .ok) :
    HashLaneHolds (permEnc P s.hpKey) s.lDollar (aad ++ inputBytes s inOff len) t.hashLane := by
  obtain ⟨-, -, hc, ht⟩ := feedAad_ok h hr
  rw [ht, respond_hashLane]
  refine hashLaneHolds_absorb P (s := begin s) _ hs.ladder hh ?_
  rw [hh.count, hh.pos] at hc
  rw [inputBytes_length]
  omega

/-- R170, R173: what the crypt lane holds after FEEDMSG. -/
theorem feedMsg_holds {P : Platform} {inOff len outOff outLen : Word} {s t : State} {msg : List Byte}
    (hs : SessionOk P s)
    (hm : MainLaneHolds (payloadPerm P s.mpKey s.mode) s.lDollar s.offsetMain0 s.mode s.tagLen.toNat msg s.mainLane)
    (h : feedMsgOn P inOff len outOff outLen s = .next t) (hr : t.response.rstat = .ok) :
    MainLaneHolds (payloadPerm P s.mpKey s.mode) s.lDollar s.offsetMain0 s.mode s.tagLen.toNat
      (msg ++ inputBytes s inOff len) t.mainLane := by
  obtain ⟨hp, -, -, -, hc, ht⟩ := feedMsg_ok h hr
  have hl := hs.ready hp
  have h32 := (hs.inited hl.1).2.2.1
  have hf := (feedMain_spec P outOff.toNat (inputBytes s inOff len) 0 (s := begin s) hs.ladder).2.2.2.2
  have hlane : t.mainLane = (mainFeedOf (payloadPerm P s.mpKey s.mode) s.lDollar s.mode s.tagLen
      (bufLenOf s.mode s.tagLen.toNat) (inputBytes s inOff len) s.mainLane).2 := by
    rw [ht, respond_mainLane, hf, mainFeedIn, mainBufLen_eq]
    rfl
  rw [hlane]
  refine (mainLaneHolds_feed h32 _ _ hm ?_).2
  have hle := fedBlocks_le s.mode s.tagLen.toNat msg.length
  rw [inputBytes_length]
  cases hmode : s.mode <;> simp only [updsize, hmode, hm.pos, hm.count, fedBlocks] at * <;> omega

/-- R41, R173: the last `tagLen` bytes fed stand in front of `mainPos`. -/
theorem tail_of_holds {A : Block → Block} {lD start : Block} {tagLen : Nat} {msg : List Byte} {m : MainLane}
    (h : MainLaneHolds A lD start .decrypt tagLen msg m) (hl : tagLen ≤ msg.length) :
    tagLen ≤ m.mainPos.toNat ∧
    slice m.mainBuf (m.mainPos.toNat - tagLen) tagLen = msg.drop (msg.length - tagLen) := by
  have hpos := h.pos
  have hbuf := h.buffered
  simp only [fedBlocks] at hpos hbuf
  have h1 : tagLen ≤ m.mainPos.toNat := by omega
  refine ⟨h1, List.ext_getElem (by simp [slice_length]; omega) fun i hi hi' => ?_⟩
  rw [slice_length] at hi
  have hb := byteAt_of_slice hbuf (j := m.mainPos.toNat - tagLen + i) (by omega)
  rw [slice_getElem, hb, List.getD_eq_getElem?_getD, List.getElem?_drop, List.getElem_drop,
    show 16 * ((msg.length - tagLen) / 16) + (m.mainPos.toNat - tagLen + i) = msg.length - tagLen + i by omega,
    List.getElem?_eq_getElem (by omega), Option.getD_some]

/-- R190, R197, R198: when FINALIZE ends OK: the phase, the tag length, enough bytes for a tag, and the message closed
with the `finsize(0)` bytes it promised. -/
theorem finalize_ok {P : Platform} {outOff outLen : Word} {s t : State} (hs : SessionOk P s)
    (h : finalizeOn P outOff outLen s = .next t) (hr : t.response.rstat = .ok) :
    s.phase = .ready ∧ s.tagLen.toNat ≤ 16 ∧ dataTooShort s = false ∧
    ∃ out, MessageClosed P (begin s) t outOff.toNat (finsize s 0) out := by
  rw [finalizeOn_eq] at h
  split at h
  · cases h; cases hr
  split at h
  · cases h; cases hr
  split at h
  · cases h; cases hr
  split at h
  · cases h; cases hr
  split at h
  · cases h; cases hr
  · rename_i h1 h2 h3 h4 h5
    cases h
    have hpos := (hs.ready (not_not.mp h1)).2.mainPos
    have ht : (begin s).tagLen.toNat ≤ 16 := Nat.le_of_not_lt h3
    refine ⟨not_not.mp h1, ht, by simpa using h4, ?_⟩
    cases hm : s.mode with
    | encrypt =>
      have hp : partialLen (begin s) < 16 := by simpa [partialLen, hm, mainBufLen] using hpos
      have hc := closeMessage_encrypt P outOff.toNat (s := begin s) hm hp ht
      rw [show partialLen (begin s) + (begin s).tagLen.toNat = finsize s 0 by simp [finsize, partialLen, hm]] at hc
      exact ⟨_, hc⟩
    | decrypt =>
      have hd : s.tagLen.toNat ≤ s.mainLane.mainPos.toNat := by simpa [dataTooShort, hm] using h4
      have hp : partialLen (begin s) < 16 := by simp [partialLen, hm, mainBufLen] at *; omega
      by_cases he : expectedTag P (begin s) = candidateTag (begin s)
      · have hc := closeMessage_accept P outOff.toNat (s := begin s) hm hd hp ht he
        rw [show partialLen (begin s) = finsize s 0 by simp [finsize, partialLen, hm]] at hc
        exact ⟨_, hc⟩
      · rw [closeMessage_reject P outOff.toNat (s := begin s) hm hd hp ht he] at hr
        cases hr

/-- R190: the number FINALIZE reports is `finsize(0)`. -/
theorem finalize_rval {P : Platform} {outOff outLen : Word} {s t : State} (hs : SessionOk P s)
    (h : finalizeOn P outOff outLen s = .next t) (hr : t.response.rstat = .ok) :
    t.response.rval.toNat = finsize s 0 := by
  obtain ⟨-, -, -, out, hc⟩ := finalize_ok hs h hr
  rw [hc.frame]
  simp only [okResponse, BitVec.toNat_ofNat]
  have := s.mainLane.mainPos.isLt
  have := s.tagLen.isLt
  refine Nat.mod_eq_of_lt ?_
  cases hm : s.mode <;> simp [finsize, hm] <;> omega

/-! What the lanes hold when a message begins. -/

/-- What the lanes hold depends on the lanes and the session's parameters only. -/
theorem sessionHolds_congr {P : Platform} {aad msg : List Byte} {s t : State} (h : SessionHolds P aad msg s)
    (h1 : t.hpKey = s.hpKey) (h2 : t.mpKey = s.mpKey) (h3 : t.lDollar = s.lDollar) (h4 : t.mode = s.mode)
    (h5 : t.tagLen = s.tagLen) (h6 : t.offsetMain0 = s.offsetMain0) (h7 : t.hashLane = s.hashLane)
    (h8 : t.mainLane = s.mainLane) : SessionHolds P aad msg t := by
  constructor
  · rw [h1, h3, h7]; exact h.hash
  · rw [h2, h3, h4, h5, h6, h8]; exact h.main

/-- R224, R225: the reset procedure leaves the initial AAD in the hash lane and no message in the crypt lane. -/
theorem sessionHolds_resetProcedure (P : Platform) (m : Bool) {s : State} (h : LadderOk s.lDollar s.ladder) :
    SessionHolds P (initAADBytes s) [] (resetProcedure P m s) := by
  have ho := onlyHash_resetProcedure P m s
  have hl : (resetProcedure P m s).lDollar = (clearLanes m s).lDollar := onlyHash_lDollar ho
  have hk : (resetProcedure P m s).hpKey = (clearLanes m s).hpKey := onlyHash_hpKey ho
  constructor
  · rw [hl, hk, resetProcedure_hashLane P m h]
    have := s.initAADLen.isLt
    simpa using hashLaneHolds_foldl (initAADBytes s) [] (hashLaneHolds_zero (permEnc P s.hpKey) s.lDollar)
      (by simp [length_initAADBytes]; omega)
  · rw [hl, onlyHash_mpKey ho, onlyHash_mode ho, onlyHash_tagLen ho, onlyHash_offsetMain0 ho, onlyHash_mainLane ho]
    exact mainLaneHolds_zero ..

/-- R222: INIT leaves the lanes with its initial AAD and no message. -/
theorem sessionHolds_startSession (P : Platform) (e : Bool) (tagLenBits : BitVec 16) (key : Option Key)
    (nonce aad : List Byte) {s : State} (h : LadderOk s.lDollar s.ladder) (ha : aad.length < 2 ^ 32) :
    SessionHolds P aad [] (startSession P e tagLenBits key nonce aad s) := by
  have hk : LadderOk (keyedState P e tagLenBits key s).lDollar (keyedState P e tagLenBits key s).ladder := by
    cases key with
    | none => exact h
    | some k => exact fun n hn => absurd hn (Nat.not_lt_zero n)
  have hl : LadderOk (noncedState P e tagLenBits key nonce aad s).lDollar
      (noncedState P e tagLenBits key nonce aad s).ladder := by
    rw [onlyNonce_noncedState]; exact hk
  have hi : initAADBytes (noncedState P e tagLenBits key nonce aad s) = aad := initAADBytes_setInitAAD aad _ ha
  have hr := sessionHolds_resetProcedure P false hl
  rw [hi] at hr
  rw [startSession_eq]
  exact sessionHolds_congr hr rfl rfl rfl rfl rfl rfl rfl rfl

end Sys2Proof.Machine
end

