-- ==== Sys2Proof/Laws/PerInstr.lean ====
section
/-! SUPPORT. Laws made per command: the family `EncodedLength`, that the encoder writes the header of a row of the
opcode map and as many operand words as that row says (spec/30_encoding.md R80, R82, R85). -/

namespace Sys2Proof.Laws.EncodedLength

/-- R82: the header `encode i` begins with selects a row, and the row's number of operand words follows it. -/
def Statement (i : Instr) : Prop :=
  ∃ (header : Word) (operands : List Word) (r : OpcodeRow),
    encode i = header :: operands ∧ selectRow header = some r ∧ operands.length = r.operands

theorem newsession : Statement .newsession :=
  ⟨_, _, ⟨.newsession, 0x01000000, 0xFFFFFFFF, 0⟩, rfl, by decide, rfl⟩

theorem init (k e : Bool) (tagLenBits : BitVec 16) (keyOff keyLen nonceOff nonceLen aadOff aadLen : Word) :
    Statement (.init k e tagLenBits keyOff keyLen nonceOff nonceLen aadOff aadLen) :=
  ⟨_, _, _, rfl, selectRow_init k e tagLenBits, rfl⟩

theorem feedaad (inOff len : Word) : Statement (.feedaad inOff len) :=
  ⟨_, _, ⟨.feedaad, 0x03000000, 0xFFFFFFFF, 2⟩, rfl, by decide, rfl⟩

theorem feedmsg (inOff len outOff outLen : Word) : Statement (.feedmsg inOff len outOff outLen) :=
  ⟨_, _, ⟨.feedmsg, 0x04000000, 0xFFFFFFFF, 4⟩, rfl, by decide, rfl⟩

theorem updsize (len : Word) : Statement (.updsize len) :=
  ⟨_, _, ⟨.updsize, 0x05000000, 0xFFFFFFFF, 1⟩, rfl, by decide, rfl⟩

theorem finsize (len : Word) : Statement (.finsize len) :=
  ⟨_, _, ⟨.finsize, 0x06000000, 0xFFFFFFFF, 1⟩, rfl, by decide, rfl⟩

theorem finalize (outOff outLen : Word) : Statement (.finalize outOff outLen) :=
  ⟨_, _, ⟨.finalize, 0x07000000, 0xFFFFFFFF, 2⟩, rfl, by decide, rfl⟩

theorem reset : Statement .reset :=
  ⟨_, _, ⟨.reset, 0x08000000, 0xFFFFFFFF, 0⟩, rfl, by decide, rfl⟩

theorem mac : Statement .mac :=
  ⟨_, _, ⟨.mac, 0x09000000, 0xFFFFFFFF, 0⟩, rfl, by decide, rfl⟩

theorem algid : Statement .algid :=
  ⟨_, _, ⟨.algid, 0x0A000000, 0xFFFFFFFF, 0⟩, rfl, by decide, rfl⟩

end Sys2Proof.Laws.EncodedLength
end

