-- ==== Sys2Proof/Laws/Port.lean ====
section
/-! SUPPORT. The host's side of the machine: every command writes one string at its write position in OBUF
(spec/20_memory.md R61, R66), and what hardware reset during a command leaves (70_reset_and_hazards.md R300). -/

namespace Sys2Proof.Machine

open Sys2Proof.Safety

/-- `exec` is the meaning on the machine's platform. -/
theorem exec_eq_execOn : exec = execOn Config.platform := by
  funext i s
  cases i <;> rfl

/-- R61, R66: the bytes a command writes in OBUF are one string from its write position on. -/
theorem execOn_writes {P : Platform} {i : Instr} {s t : State} (h : execOn P i s = .next t) :
    ∃ out : List Byte, t.obuf = s.obuf.write (outputOffset i) out := by
  have none : t.obuf = s.obuf → ∃ out : List Byte, t.obuf = s.obuf.write (outputOffset i) out :=
    fun h => ⟨[], h⟩
  cases i <;> simp only [execOn] at h
  case newsession =>
    rw [newSessionOn_eq] at h
    split at h <;> cases h <;> exact none rfl
  case init =>
    rw [initOn_eq] at h
    (repeat' split at h) <;> cases h <;>
      first | exact none (by rw [respond_obuf, startSession_obuf, begin_obuf]) | exact none rfl
  case feedaad inOff len =>
    rw [feedAadOn_eq] at h
    (repeat' split at h) <;> cases h <;> first | exact none rfl | skip
    have h1 := onlyHash_obuf (onlyHash_absorb P (inputBytes s inOff len) (begin s))
    exact none h1
  case feedmsg inOff len outOff outLen =>
    rw [feedMsgOn_eq] at h
    (repeat' split at h) <;> cases h <;> first | exact none rfl | skip
    obtain ⟨out, h1, -⟩ := feedMain_writes P outOff.toNat (inputBytes s inOff len) 0 (begin s)
    exact ⟨out, h1⟩
  case updsize =>
    rw [execUpdsize_eq] at h
    split at h <;> cases h <;> exact none rfl
  case finsize =>
    rw [execFinsize_eq] at h
    split at h <;> cases h <;> exact none rfl
  case finalize outOff outLen =>
    rw [finalizeOn_eq] at h
    (repeat' split at h) <;> cases h <;> first | exact none rfl | skip
    rcases closeMessage_cases P outOff.toNat (begin s) with
      ⟨-, out, requests, hc⟩ | ⟨w, out, macBlock, macLen, requests, hashLane, ladder, -, hc⟩
    · exact ⟨out, by rw [hc]; rfl⟩
    · exact ⟨out, by rw [hc]; rfl⟩
  case reset =>
    rw [resetOn_eq] at h
    split at h <;> cases h <;> first | exact none rfl | skip
    have h1 := onlyHash_obuf (onlyHash_resetProcedure P false (begin s))
    exact none h1
  case mac =>
    rw [execMac_eq] at h
    (repeat' split at h) <;> cases h <;> exact none rfl
  case algid =>
    rw [algIdOn_eq] at h
    split at h <;> cases h <;> exact none rfl

/-- A command keeps its write position when it is cut before a wrap. -/
@[simp] theorem outputOffset_beforeWrap (i : Instr) (s : State) : outputOffset (beforeWrap i s) = outputOffset i := by
  cases i <;> rfl

/-- R300: the state hardware reset leaves part way through a command that writes `out`. -/
theorem resetPartWay_eq {s t : State} {outOff : Nat} {out : List Byte} (hw : Memory.wf s.obuf = true)
    (h : t.obuf = s.obuf.write outOff out) (made written : Nat) :
    resetPartWay outOff made written t s =
      { hardwareReset s with
        obuf := s.obuf.write outOff (out.take written), requests := t.requests.take made, draws := t.draws } := by
  rw [resetPartWay, h, Memory.upTo_write hw]

/-- R300, U5: hardware reset abandons any transaction: the register part is always that of hardware reset. -/
theorem abandonCommand_cases (run : Instr → State → Result) (words : List Word) (made written : Nat) (s : State) :
    abandonCommand run words made written s = hardwareReset s ∨
    ∃ i j t, decode words = .instr i ∧ (j = i ∨ j = beforeWrap i s) ∧ run j s = .next t ∧
      abandonCommand run words made written s = resetPartWay (outputOffset i) made written t s := by
  unfold abandonCommand
  split
  · exact .inl rfl
  · rename_i i hd
    split
    · exact .inr ⟨i, i, _, hd, .inl rfl, ‹_›, rfl⟩
    · exact .inl rfl
    · split
      · exact .inr ⟨i, _, _, hd, .inr rfl, ‹_›, rfl⟩
      · exact .inl rfl
      · exact .inl rfl

/-- U5, R308: a FEEDAAD that would wrap, cut before the wrap: the longest part that does not, and it ends OK. -/
theorem beforeWrap_feedaad {P : Platform} {inOff len : Word} {s : State} (hs : SessionOk P s)
    (h : feedAadOn P inOff len s = .fault .counterWrap) :
    ∃ k : Word, beforeWrap (.feedaad inOff len) s = .feedaad inOff k ∧ k.toNat < len.toNat ∧
      s.hashLane.hashCount.toNat + (s.hashLane.hashPos.toNat + k.toNat) / 16 = 2 ^ 64 - 1 ∧
      s.hashLane.hashCount.toNat + (s.hashLane.hashPos.toNat + (k.toNat + 1)) / 16 = 2 ^ 64 ∧
      ∃ u, feedAadOn P inOff k s = .next u ∧ u.response.rstat = .ok := by
  rw [feedAadOn_eq] at h
  split at h
  · cases h
  split at h
  · cases h
  split at h
  · rename_i h1 h2 h3
    have hp := (hs.ready (not_not.mp h1)).2.hashPos
    have hc := s.hashLane.hashCount.isLt
    have hl := len.isLt
    have hk : (BitVec.ofNat 32 (min len.toNat (hashRoom s))).toNat = hashRoom s := by
      rw [BitVec.toNat_ofNat, Nat.min_eq_right (by unfold hashRoom; omega), Nat.mod_eq_of_lt (by unfold hashRoom; omega)]
    have hn : s.hashLane.hashCount.toNat + (s.hashLane.hashPos.toNat + hashRoom s) / 16 = 2 ^ 64 - 1 := by
      unfold hashRoom; omega
    refine ⟨BitVec.ofNat 32 (min len.toNat (hashRoom s)), rfl, ?_⟩
    generalize BitVec.ofNat 32 (min len.toNat (hashRoom s)) = k at hk ⊢
    refine ⟨?_, ?_, ?_, respond 0 [] (absorb P (inputBytes s inOff k) (begin s)), ?_, rfl⟩
    · rw [hk]; unfold hashRoom; omega
    · rw [hk, hn]
    · rw [hk]; unfold hashRoom; omega
    · have hd : inOff.toNat + hashRoom s ≤ P.ibufSize.val := by
        have := not_not.mp h2
        unfold hashRoom; omega
      rw [feedAadOn_eq, if_neg h1, if_neg (by rw [hk]; exact not_not.mpr hd), if_neg (by rw [hk]; omega)]
  · cases h

/-- U5, R308: the same for FEEDMSG. -/
theorem beforeWrap_feedmsg {P : Platform} {inOff len outOff outLen : Word} {s : State} (hs : SessionOk P s)
    (h : feedMsgOn P inOff len outOff outLen s = .fault .counterWrap) :
    ∃ k : Word, beforeWrap (.feedmsg inOff len outOff outLen) s = .feedmsg inOff k outOff outLen ∧
      k.toNat < len.toNat ∧
      s.mainLane.mainCount.toNat + updsize s k.toNat / 16 = 2 ^ 64 - 1 ∧
      s.mainLane.mainCount.toNat + updsize s (k.toNat + 1) / 16 = 2 ^ 64 ∧
      ∃ u, feedMsgOn P inOff k outOff outLen s = .next u ∧ u.response.rstat = .ok := by
  rw [feedMsgOn_eq] at h
  split at h
  · cases h
  split at h
  · cases h
  split at h
  · cases h
  split at h
  · rename_i h1 h2 h3 h4
    have hp := (hs.ready (not_not.mp h1)).2.mainPos
    have hc := s.mainLane.mainCount.isLt
    have hl := len.isLt
    have hb := le_mainBufLen s
    simp only [updsize_eq, blocksDone, Nat.mul_div_cancel_left _ (show 0 < 16 by decide)] at h3 h4 ⊢
    have hk : (BitVec.ofNat 32 (min len.toNat (mainRoom s))).toNat = mainRoom s := by
      rw [BitVec.toNat_ofNat, Nat.min_eq_right (by unfold mainRoom; omega), Nat.mod_eq_of_lt (by unfold mainRoom; omega)]
    refine ⟨BitVec.ofNat 32 (min len.toNat (mainRoom s)), rfl, ?_⟩
    generalize BitVec.ofNat 32 (min len.toNat (mainRoom s)) = k at hk ⊢
    refine ⟨?_, ?_, ?_, respond (feedMain P outOff.toNat (inputBytes s inOff k) 0 (begin s)).1 []
      (feedMain P outOff.toNat (inputBytes s inOff k) 0 (begin s)).2, ?_, rfl⟩
    · rw [hk]; unfold mainRoom; omega
    · rw [hk]; unfold mainRoom; omega
    · rw [hk]; unfold mainRoom; omega
    · have hd := not_not.mp h2
      have hr := not_not.mp h3
      have hlt : mainRoom s < len.toNat := by unfold mainRoom; omega
      rw [feedMsgOn_eq, if_neg h1, if_neg (by rw [hk]; exact not_not.mpr ⟨by omega, hd.2⟩),
        if_neg (by rw [hk, updsize_eq, blocksDone]; omega),
        if_neg (by
          rw [hk, updsize_eq, blocksDone, Nat.mul_div_cancel_left _ (by decide)]
          unfold mainRoom; omega)]
  · cases h

/-- The invariants say nothing of the host's queue. -/
theorem sessionOk_withQueue {P : Platform} {s : State} (h : SessionOk P s) (q : List HostEvent) :
    SessionOk P { s with hostQueue := q } := by
  obtain ⟨h1, h2, h3, h4, h5, h6, h7, h8, h9, h10, h11⟩ := h
  exact ⟨h1, h2, h3, h4, h5, h6, h7, h8, fun h => ⟨(h9 h).1, ⟨(h9 h).2.1, (h9 h).2.2, (h9 h).2.3, (h9 h).2.4⟩⟩,
    fun h => ⟨(h10 h).1, ⟨(h10 h).2.1.1, (h10 h).2.1.2, (h10 h).2.1.3, (h10 h).2.1.4⟩, (h10 h).2.2⟩, h11⟩

end Sys2Proof.Machine
end

