-- ==== Sys2Proof/Tests/Slice0.lean ====
section
/-! SUPPORT. The tests of the model and the witnesses of its statements. The expected words are those of
spec/30_encoding.md R89, the expected values those of spec/95_test_vectors.md (sections 2 and 3, the TOY permutation, which
needs no cipher). -/

namespace Sys2Proof.Tests

set_option Elab.async false

open Sys2Proof Sys2Proof.Machine Sys2Proof.Safety

/-- A property of the next state. -/
def nextHas (r : Result) (p : State → Bool) : Bool :=
  match r with
  | .next t => p t
  | .fault _ => false
  | .refused _ => false

/-! Well-formed and ill-formed commands (R83, R87). -/

theorem test_init_keyOff_without_key : (Instr.init false true 128 1 0 0 12 0 0).wellFormed = false := by decide
theorem test_init_keyLen_without_key : (Instr.init false true 128 0 16 0 12 0 0).wellFormed = false := by decide
theorem test_init_zero_descriptor : (Instr.init false true 128 0 0 0 12 0 0).wellFormed = true := by decide

/-! Words (R85, R89) and refused headers (R86, R87). -/

theorem test_decode_newsession : decode [0b00000001000000000000000000000000] = .instr .newsession := by decide
theorem test_decode_init :
    decode [0b00000010000000110000000010000000, 0, 0x10, 0x10, 0x0C, 0, 0] =
      .instr (.init true true 128 0 16 16 12 0 0) := by decide
theorem test_decode_init_decrypt :
    decode [0b00000010000000000000000001100000, 0, 0, 0x10, 0x0C, 0x1C, 4] =
      .instr (.init false false 96 0 0 16 12 28 4) := by decide
theorem test_decode_feedaad : decode [0b00000011000000000000000000000000, 0x1C, 8] = .instr (.feedaad 28 8) := by decide
theorem test_decode_feedmsg :
    decode [0b00000100000000000000000000000000, 0x24, 8, 0, 0x40] = .instr (.feedmsg 36 8 0 64) := by decide
theorem test_decode_updsize : decode [0b00000101000000000000000000000000, 8] = .instr (.updsize 8) := by decide
theorem test_decode_finsize : decode [0b00000110000000000000000000000000, 0] = .instr (.finsize 0) := by decide
theorem test_decode_finalize :
    decode [0b00000111000000000000000000000000, 0, 0x40] = .instr (.finalize 0 64) := by decide
theorem test_decode_reset : decode [0b00001000000000000000000000000000] = .instr .reset := by decide
theorem test_decode_mac : decode [0b00001001000000000000000000000000] = .instr .mac := by decide
theorem test_decode_algid : decode [0b00001010000000000000000000000000] = .instr .algid := by decide
theorem test_reject_opcodes :
    decode [0] = .reject .reservedOpcode ∧ decode [0x0B000000, 1] = .reject .reservedOpcode ∧
      decode [0xFF000000] = .reject .reservedOpcode := by decide
theorem test_reject_bits :
    decode [0x01000001] = .reject .mustBeZero ∧ decode [0x03010000, 0, 0] = .reject .mustBeZero ∧
      decode [0x02040080, 0, 16, 16, 12, 0, 0] = .reject .mustBeZero ∧
      decode [0x02010080, 1, 0, 16, 12, 0, 0] = .reject .keyDescriptorWithoutKey := by decide
theorem test_table_word : decodeTableWord 96 0x000000080000001C03000000 = some (.feedaad 28 8) := by decide
theorem test_table_word_short : decodeTableWord 32 0x03000000 = some (.feedaad 0 0) := by decide
theorem test_step_runs_table_word :
    nextHas (step (State.reset.withFetchWord 32 0x0A000000)) fun t =>
      t == { State.reset with response := bareResponse .illegalState } := by decide +kernel

/-! GF(2^128) and `ntz` (spec/95_test_vectors.md 2.1, 2.2). -/

/-- A byte string from its hexadecimal digits read as a number. -/
def bytesOf (n x : Nat) : Bytes n := Vector.ofFn fun i => BitVec.ofNat 8 (x >>> (8 * (n - 1 - i.val)))

theorem test_double_carry :
    double (bytesOf 16 0xC0000000000000000000000000000001) = bytesOf 16 0x80000000000000000000000000000085 := by
  decide +kernel
theorem test_double_shift :
    double (bytesOf 16 0x0123456789ABCDEFFEDCBA9876543210) = bytesOf 16 0x02468ACF13579BDFFDB97530ECA86420 := by
  decide +kernel
theorem test_ntz :
    ntz 1 = 0 ∧ ntz 12 = 2 ∧ ntz 48 = 4 ∧ ntz (BitVec.ofNat 64 (2 ^ 63 + 2 ^ 10)) = 10 ∧
      ntz (BitVec.ofNat 64 (2 ^ 63)) = 63 ∧ ntz (BitVec.ofNat 64 (2 ^ 64 - 1)) = 0 ∧ ntz 0 = 64 := by
  decide +kernel

/-! The stretch of section 2.5: `bottom` 1, 8 and 63. -/

def stretch1 : Bytes 24 := bytesOf 24 0x9862B0FDEE4E2DD56DBA6433F0125AA2FAD24D13A063F8B8

theorem test_shift_1 : shiftStretch stretch1 1 = bytesOf 16 0x30C561FBDC9C5BAADB74C867E024B545 := by decide +kernel
theorem test_shift_8 : shiftStretch stretch1 8 = bytesOf 16 0x62B0FDEE4E2DD56DBA6433F0125AA2FA := by decide +kernel
theorem test_shift_63 : shiftStretch stretch1 63 = bytesOf 16 0xB6DD3219F8092D517D692689D031FC5C := by decide +kernel
theorem test_stretch :
    stretchOf (bytesOf 16 0x9862B0FDEE4E2DD56DBA6433F0125AA2) = stretch1 := by decide +kernel

/-! The TOY permutation of section 3. -/

def toyEnc (key : Key) (b : Block) : Block :=
  Vector.ofFn fun i => b[(i.val + 1) % 16]'(by omega) ^^^ key.getD i.val 0

def toyDec (key : Key) (b : Block) : Block :=
  Vector.ofFn fun i => b[(i.val + 15) % 16]'(by omega) ^^^ key.getD ((i.val + 15) % 16) 0

theorem toyDec_toyEnc (key : Key) (b : Block) : toyDec key (toyEnc key b) = b := by
  refine Vector.ext fun i hi => ?_
  simp only [toyDec, toyEnc, Vector.getElem_ofFn, BitVec.xor_assoc, BitVec.xor_self, BitVec.xor_zero]
  congr 1; omega

theorem toyEnc_toyDec (key : Key) (b : Block) : toyEnc key (toyDec key b) = b := by
  refine Vector.ext fun i hi => ?_
  have h : ((i + 1) % 16 + 15) % 16 = i := by omega
  simp only [toyDec, toyEnc, Vector.getElem_ofFn, BitVec.xor_assoc, h, BitVec.xor_self, BitVec.xor_zero]

/-- `NAME = "TOY"`. -/
def toyName : StrapName := ⟨Vector.ofFn fun i => [0x54, 0x4F, 0x59].getD i.val 0, 2⟩

/-- Buffers of 128 bytes, `IAAD_MAX = 32`, `TAGFIELD_SRC`, keys of 16 bytes. -/
def toyP : Platform :=
  { ibufSize := ⟨128, by omega⟩, obufSize := ⟨128, by omega⟩, iaadMax := ⟨32, by omega⟩
    hpBlk := 16, hpName := toyName, mpBlk := 16, mpName := toyName
    keyLenOk := fun n => n == 16
    tagField := fun t => BitVec.ofNat 8 (t * 8 * 16)
    perm := fun key => ⟨toyEnc key, toyDec key, toyDec_toyEnc key, toyEnc_toyDec key⟩ }

/-- `K1`. -/
def key1 : Key := (List.range 16).map (BitVec.ofNat 8)

/-- Bytes at consecutive addresses. -/
def placed (a : Nat) (l : List Byte) : Memory := (List.range l.length).map fun i => (a + i, l.getD i 0)

/-- IBUF of the TOY message: the key at 0, the nonce `01..05` at 16, the AAD `A0..B3` at 32, the plaintext `30..57` at
64. -/
def toyIbuf : Memory :=
  placed 0 key1 ++ placed 16 [1, 2, 3, 4, 5] ++ placed 32 ((List.range 20).map fun i => BitVec.ofNat 8 (0xA0 + i)) ++
    placed 64 ((List.range 40).map fun i => BitVec.ofNat 8 (0x30 + i))

/-- A session on the platform `P` under `K1`: IBUF, the bytes `buf` with `pos` of them fed, the offset of the message. -/
def sessionWith (ibuf : Memory) (buf : Bytes 48) (offset : Block) (P : Platform) (mode : Mode) (phase : Phase)
    (tagLen pos : BitVec 6) : State :=
  { State.reset with
    phase := phase, inited := true, keyed := true, mode := mode, tagLen := tagLen
    lStar := P.perm key1 (zeroBytes 16), lDollar := double (P.perm key1 (zeroBytes 16))
    offsetMain0 := offset
    mainLane := { MainLane.zero with mainBuf := buf, mainPos := pos, offsetMain := offset }
    macLen := if phase = .final then tagLen else 0
    hpKey := some key1, mpKey := some key1, ibuf := ibuf }

/-- The same with nothing in the buffers and the offset zero. -/
def session : Platform → Mode → Phase → BitVec 6 → BitVec 6 → State :=
  sessionWith [] (zeroBytes 48) (zeroBytes 16)

/-- `offsetMain_0` of the TOY message. -/
def toyOffset : Block := bytesOf 16 0x0020406080A0C0E101016121E121C1E0

/-- Section 3: ciphertext and tag of the TOY message. -/
def toyCipher : Bytes 48 :=
  bytesOf 48 0x155F15CB155F14E3355F75EBF5DF14E36D376D836D376CEB4D370DA38DB76CEB7D0A27E4C9BE92391F6F43BB12614D2E

/-- The tag of the empty TOY message, in `mainBuf`. -/
def toyTag : Bytes 48 := Vector.ofFn fun i => (bytesOf 8 0x2245648BAEC9E916).toList.getD i.val 0

/-- The same with the last bit flipped. -/
def forgedTag : Bytes 48 := Vector.ofFn fun i => (bytesOf 8 0x2245648BAEC9E917).toList.getD i.val 0

/-- The state after NEWSESSION, with the TOY message in IBUF. -/
def opened : State := { State.reset with phase := .uninit, ibuf := toyIbuf }

theorem test_toy :
    toyEnc key1 (Vector.ofFn fun i => BitVec.ofNat 8 i.val) = bytesOf 16 0x010301070103010F010301070103010F ∧
      toyEnc key1 (bytesOf 16 0xFF000000000000000000000000000000) =
        bytesOf 16 0x000102030405060708090A0B0C0D0EF0 := by decide +kernel

theorem test_newsession :
    nextHas (newSessionOn toyP (session toyP .encrypt .ready 8 0)) fun t =>
      t.phase == .uninit && t.response.rstat == .ok && t.hpKey == none && t.lStar == zeroBytes 16 := by decide +kernel

theorem test_newsession_block_size :
    nextHas (newSessionOn { toyP with mpBlk := 8 } opened) fun t =>
      t.phase == .noSession && t.response.rstat == .configurationError := by decide +kernel

/-- Section 3: `L_star`, `L_dollar`, Ktop and `offsetMain_0` of the TOY message. -/
theorem test_init :
    nextHas (initOn toyP true true 64 0 16 16 5 0 0 opened) fun t =>
      t.response.rstat == .ok && t.lDollar == bytesOf 16 0x00020406080A0C0E10121416181A1C1E &&
      t.ktopInput == bytesOf 16 0x00000000000000000000010102030400 &&
      t.stretch == bytesOf 24 0x000102030405060708080B090F090E0F010301070103010F &&
      t.offsetMain0 == bytesOf 16 0x0020406080A0C0E101016121E121C1E0 := by decide +kernel

/-- R262, R274: a bad tag length in an INIT with `K = 1`. -/
theorem test_init_tag_length :
    nextHas (initOn toyP true true 24 0 16 16 5 0 0 (session toyP .encrypt .ready 8 0)) fun t =>
      t.response.rstat == .invalidTagLength && t.phase == .error && !t.inited && !t.keyed &&
      t.hpKey == some key1 := by decide +kernel

/-- Section 3: the hash lane after the AAD of the TOY message. -/
theorem test_feedaad :
    nextHas (feedAadOn toyP 32 20 (sessionWith toyIbuf (zeroBytes 48) toyOffset toyP .encrypt .ready 8 0)) fun t =>
      t.hashLane.hashCount == 1 && t.hashLane.hashPos == 4 &&
      t.hashLane.offsetHash == bytesOf 16 0x0004080C1014181C2024282C3034383C &&
      t.hashLane.sum == bytesOf 16 0xA5ABADB7B5BBBD8F858B8D97959B9DAF := by decide +kernel

/-- Section 3: block 1 of the TOY message, from `offsetMain_0`. -/
theorem test_feedmsg :
    nextHas (feedMsgOn toyP 64 20 4 64 (sessionWith toyIbuf (zeroBytes 48) toyOffset toyP .encrypt .ready 8 0)) fun t =>
      t.response.rval == 16 && t.mainLane.mainPos == 4 && t.mainLane.mainCount == 1 &&
      t.mainLane.offsetMain == bytesOf 16 0x0024486C90B4D8FD2125490DD115F9DC &&
      t.mainLane.checksum == bytesOf 16 0x303132333435363738393A3B3C3D3E3F &&
      t.obuf == placed 4 (bytesOf 16 0x155F15CB155F14E3355F75EBF5DF14E3).toList := by decide +kernel

/-- R300, section 3: the same FEEDMSG, reset once five bytes of block 1 are in OBUF. -/
theorem test_reset_during_feedmsg :
    let s := sessionWith toyIbuf (zeroBytes 48) toyOffset toyP .encrypt .ready 8 0
    abandonCommand (execOn toyP) [0x04000000, 64, 20, 4, 64] 0 5 s =
      { State.reset with ibuf := toyIbuf, obuf := placed 4 [0x15, 0x5F, 0x15, 0xCB, 0x15] } := by decide +kernel

/-- A session one block below the end of both counters. -/
def nearWrap (mode : Mode) : State :=
  let s := sessionWith toyIbuf (zeroBytes 48) toyOffset toyP mode .ready 8 0
  { s with
    ladder := ladderUpTo s.lDollar 63 []
    hashLane := { s.hashLane with hashCount := BitVec.ofNat 64 (2 ^ 64 - 2) }
    mainLane := { s.mainLane with mainCount := BitVec.ofNat 64 (2 ^ 64 - 2) } }

/-- R300, U5: a FEEDMSG of 40 bytes whose second block wraps the counter stops; reset before that block leaves at most the
first block, which is block 1 of section 3, since `ntz(2^64 - 1) = ntz(1) = 0`. -/
theorem test_reset_before_wrap :
    let t := abandonCommand (execOn toyP) [0x04000000, 64, 40, 4, 64] 9 40 (nearWrap .encrypt)
    feedMsgOn toyP 64 40 4 64 (nearWrap .encrypt) = .fault .counterWrap ∧ t.phase = .noSession ∧ t.requests.length = 1 ∧
      t.obuf = placed 4 (bytesOf 16 0x155F15CB155F14E3355F75EBF5DF14E3).toList := by
  refine ⟨?_, by decide +kernel⟩
  rw [feedMsgOn_eq, if_neg (by decide +kernel), if_neg (by decide +kernel), if_neg (by decide +kernel),
    if_pos (by decide +kernel)]

/-- R300: reset during a transaction of the wrong length. -/
theorem test_reset_during_wrong_length :
    abandonCommand (execOn toyP) [0x04000000, 64] 9 40 (nearWrap .encrypt) = { State.reset with ibuf := toyIbuf } := by
  decide +kernel

/-- R264: one byte of room too few. -/
theorem test_feedmsg_room :
    nextHas (feedMsgOn toyP 64 20 4 19 (session toyP .encrypt .ready 8 0)) fun t =>
      t.response.rstat == .bufferTooSmall && t.phase == .error && t.obuf == [] := by decide +kernel

/-- Section 2.8, `tagLen = 16`: Encrypt 15 + (2^32 - 1), Decrypt 16 + 15. -/
theorem test_updsize :
    nextHas (execUpdsize 0xFFFFFFFF (session toyP .encrypt .ready 16 15)) (fun t => t.response.rval == 4294967296) &&
      nextHas (execUpdsize 15 (session toyP .decrypt .ready 16 16)) (fun t => t.response.rval == 0) := by
  decide +kernel

/-- Section 2.8, `tagLen = 16`: Encrypt 15 + (2^32 - 1), Decrypt 15 + 0. -/
theorem test_finsize :
    nextHas (execFinsize 0xFFFFFFFF (session toyP .encrypt .ready 16 15)) (fun t => t.response.rval == 4294967326) &&
      nextHas (execFinsize 0 (session toyP .decrypt .ready 16 15)) (fun t => t.response.rval == 0) := by
  decide +kernel

/-- Section 3, "more TOY results": empty AAD and message, 64-bit tag. -/
theorem test_finalize_encrypt :
    nextHas (finalizeOn toyP 0 8 (sessionWith [] (zeroBytes 48) toyOffset toyP .encrypt .ready 8 0)) fun t =>
      t.response.rval == 8 && t.phase == .final && t.macLen == 8 &&
      t.obuf == placed 0 (bytesOf 8 0x2245648BAEC9E916).toList := by decide +kernel

/-- R198: the same tag with its last bit flipped. -/
theorem test_finalize_decrypt :
    nextHas (finalizeOn toyP 0 8 (sessionWith [] forgedTag toyOffset toyP .decrypt .ready 8 8)) fun t =>
      t.response.rstat == .authenticationFailed && t.phase == .error && t.macLen == 0 && t.obuf == [] := by
  decide +kernel

theorem test_reset :
    nextHas (resetOn toyP { session toyP .encrypt .final 8 0 with offsetMain0 := bytesOf 16 5 }) fun t =>
      t.phase == .ready && t.macLen == 0 && t.mainLane.offsetMain == bytesOf 16 5 := by decide +kernel

theorem test_reset_uninit :
    nextHas (resetOn toyP opened) fun t => t.response.rstat == .illegalState && t.phase == .uninit := by decide +kernel

theorem test_mac :
    nextHas (execMac { session toyP .encrypt .final 8 0 with macBlock := Vector.ofFn fun i => BitVec.ofNat 8 i.val })
      (fun t => t.response.rlen == 8 && t.response.rdata[7] == 7 && t.response.rdata[8] == 0) &&
      nextHas (execMac opened) (fun t => t.response.rstat == .macNotReady) := by decide +kernel

/-- Section 3: the whole TOY message in the closed form of R203. -/
theorem test_closed_form :
    let E := toyEnc key1
    let l := E (zeroBytes 16)
    cryptText E E l (double l) toyOffset ((List.range 40).map fun i => BitVec.ofNat 8 (0x30 + i)) ++
      tagOf E l (double l) toyOffset 8 ((List.range 20).map fun i => BitVec.ofNat 8 (0xA0 + i))
        ((List.range 40).map fun i => BitVec.ofNat 8 (0x30 + i)) = toyCipher.toList := by decide +kernel

/-- R227: "TOY/OCB". -/
theorem test_algid :
    nextHas (algIdOn toyP opened) fun t =>
      t.response.rlen == 7 && t.response.rdata.toList.take 8 == [0x54, 0x4F, 0x59, 0x2F, 0x4F, 0x43, 0x42, 0] := by
  decide +kernel


/-! Witnesses: for every statement with hypotheses, a concrete state and operands that meet all of them. -/

theorem nextHas_next {r : Result} {p : State → Bool} (h : nextHas r p = true) : ∃ t, r = .next t ∧ p t = true := by
  cases r with
  | next t => exact ⟨t, rfl, h⟩
  | fault f => exact absurd h Bool.false_ne_true
  | refused r => exact absurd h Bool.false_ne_true

theorem reset_ok (P : Platform) (phase : Phase) (hp : phase = .noSession ∨ phase = .uninit) (ibuf : Memory)
    (q : List HostEvent) :
    SessionOk P { State.reset with phase := phase, ibuf := ibuf, hostQueue := q } where
  sameKey := rfl
  keyed h := by cases h
  ktop h := by cases h
  ladder n h := by cases h
  ladderLen := by show 0 ≤ 64; decide
  inited h := by cases h
  noSession _ := ⟨rfl, rfl, rfl⟩
  uninit _ := ⟨rfl, rfl⟩
  ready h := by rcases hp with rfl | rfl <;> cases h
  final h := by rcases hp with rfl | rfl <;> cases h
  noMac _ := rfl

theorem session_ok (ibuf : Memory) (buf : Bytes 48) (offset : Block) (P : Platform) (mode : Mode) (phase : Phase)
    (tagLen pos : BitVec 6) (hp : phase = .ready ∨ phase = .final) (h4 : 4 ≤ tagLen.toNat) (h16 : tagLen.toNat ≤ 16)
    (hpos : pos.toNat < 16 ∨ (mode = .decrypt ∧ pos.toNat < 16 + tagLen.toNat)) :
    SessionOk P (sessionWith ibuf buf offset P mode phase tagLen pos) := by
  have hl : LanesOk (sessionWith ibuf buf offset P mode phase tagLen pos) := by
    refine ⟨by show (0 : BitVec 5).toNat < 16; decide, ?_, by show (0 : BitVec 64).toNat < 2 ^ 0; decide,
      by show (0 : BitVec 64).toNat < 2 ^ 0; decide⟩
    show pos.toNat < mainBufLen (sessionWith ibuf buf offset P mode phase tagLen pos)
    cases mode with
    | encrypt => rcases hpos with h | ⟨h, _⟩
                 · exact h
                 · cases h
    | decrypt => show pos.toNat < 16 + tagLen.toNat
                 omega
  exact
    { sameKey := rfl
      keyed := fun _ => ⟨key1, rfl, rfl, rfl⟩
      ktop := fun h => by cases h
      ladder := fun n h => by cases h
      ladderLen := by show 0 ≤ 64; decide
      inited := fun _ => ⟨rfl, h4, by show tagLen.toNat ≤ 32; omega, by show (0 : BitVec 32).toNat ≤ 0; decide⟩
      noSession := fun h => by rcases hp with rfl | rfl <;> cases h
      uninit := fun h => by rcases hp with rfl | rfl <;> cases h
      ready := fun _ => ⟨rfl, hl⟩
      final := fun h => ⟨rfl, hl, if_pos h, h16⟩
      noMac := fun h => if_neg h }

/-- A READY session. -/
theorem ready_ok (P : Platform) (mode : Mode) : SessionOk P (session P mode .ready 8 0) :=
  session_ok _ _ _ P mode .ready 8 0 (.inl rfl) (by decide) (by decide) (.inl (by decide))

/-- A FINAL session. -/
theorem final_ok (P : Platform) (mode : Mode) : SessionOk P (session P mode .final 8 0) :=
  session_ok _ _ _ P mode .final 8 0 (.inr rfl) (by decide) (by decide) (.inl (by decide))

theorem empty_buffers (P : Platform) (mode : Mode) (phase : Phase) (tagLen pos : BitVec 6) :
    BuffersOk P (session P mode phase tagLen pos) := ⟨rfl, rfl, rfl, rfl⟩

/-- The state after NEWSESSION, with IBUF holding `ibuf`. -/
def openedWith (ibuf : Memory) : State := { State.reset with phase := .uninit, ibuf := ibuf }

theorem opened_ok (P : Platform) (ibuf : Memory) : SessionOk P (openedWith ibuf) :=
  reset_ok P .uninit (.inr rfl) ibuf []

theorem witness_EncodeThenDecode :
    (Instr.init true true 256 0xFFFFFFFF 16 16 12 0 0).wellFormed = true ∧
      (Instr.feedmsg 0xFFFFFFFF 0 1 2).wellFormed = true := by decide

theorem witness_DecodeThenEncode : decode [0x0203FFFF, 1, 2, 3, 4, 5, 0xFFFFFFFF] =
    .instr (.init true true 0xFFFF 1 2 3 4 5 0xFFFFFFFF) := by decide

theorem witness_TableBitsDecode : (Instr.init false true 128 0 0 16 12 28 4).wellFormed = true := by decide

theorem witness_OpcodeRowsDisjoint :
    ∃ r ∈ opcodeTable, ∃ r' ∈ opcodeTable, (0x0203FFFF : Word) &&& r.mask = r.matchBits ∧
      (0x0203FFFF : Word) &&& r'.mask = r'.matchBits :=
  ⟨⟨.init, 0x02000000, 0xFFFC0000, 6⟩, by decide, ⟨.init, 0x02000000, 0xFFFC0000, 6⟩, by decide, by decide, by decide⟩

theorem witness_ReservedOpcodeIsIllegalCommand :
    (opcField 0x00FFFFFF).toNat = 0 ∧ 11 ≤ (opcField 0x0B000000).toNat ∧ 11 ≤ (opcField 0xFF000000).toNat := by decide

theorem witness_MustBeZeroBits :
    ((0x02040080 : Word).extractLsb' 18 6 ≠ 0) ∧ ((0x02800080 : Word).extractLsb' 18 6 ≠ 0) ∧
    (opcField 0x01000001 ≠ 2 ∧ (0x01000001 : Word).extractLsb' 0 18 ≠ 0) ∧
    (opcField 0x0A020000 ≠ 2 ∧ (0x0A020000 : Word).extractLsb' 0 18 ≠ 0) := by decide

theorem witness_MustBeZeroBits_key :
    opcField 0x02010080 = 2 ∧ kField 0x02010080 = false ∧ ((0 : Word) ≠ 0 ∨ (1 : Word) ≠ 0) := by decide

theorem witness_MustBeZeroBits_operands :
    (⟨.feedaad, 0x03000000, 0xFFFFFFFF, 2⟩ : OpcodeRow) ∈ opcodeTable ∧
      (0x03000000 : Word) &&& 0xFFFFFFFF = 0x03000000 ∧ [(0xFFFFFFFF : Word), 0xFFFFFFFF].length = 2 ∧
      (Opcode.feedaad = Opcode.init → kField 0x03000000 = true) := by decide

theorem witness_StepRunsTheDecodedCommand :
    { State.reset with hostQueue := [.command [0x0A000000], .hardwareReset] }.hostQueue =
        [.command [0x0A000000], .hardwareReset] ∧
      decode [0x0A000000] = .instr .algid ∧ decodeTableWord 32 0x0A000000 = some .algid :=
  ⟨rfl, by decide, by decide⟩

theorem witness_StepTakesTheHostsEvents :
    State.reset.hostQueue = [] ∧
      { State.reset with hostQueue := [.writeIbuf 0 1] }.hostQueue = [.writeIbuf 0 1] ∧
      { State.reset with hostQueue := [.writeObuf 0xFFFFFFFF 1] }.hostQueue = [.writeObuf 0xFFFFFFFF 1] ∧
      { State.reset with hostQueue := [.hardwareReset] }.hostQueue = [.hardwareReset] := ⟨rfl, rfl, rfl, rfl⟩

theorem witness_WrongLengthTransactionStops :
    { State.reset with hostQueue := [.command []] }.hostQueue = [.command []] ∧
      { State.reset with hostQueue := [.command [0x0A000000, 0]] }.hostQueue = [.command [0x0A000000, 0]] ∧
      (⟨.algid, 0x0A000000, 0xFFFFFFFF, 0⟩ : OpcodeRow) ∈ opcodeTable ∧
      (0x0A000000 : Word) &&& 0xFFFFFFFF = 0x0A000000 ∧ [(0 : Word)].length ≠ 0 :=
  ⟨rfl, rfl, by decide, by decide, by decide⟩

theorem witness_ResponsesHaveTheirShape :
    SessionOk Config.platform (session Config.platform .encrypt .ready 8 0) ∧
      (∃ t, exec (.updsize 8) (session Config.platform .encrypt .ready 8 0) = .next t ∧ t.response.rstat = .ok) ∧
      (∃ t, exec (.finsize 8) (session Config.platform .encrypt .ready 8 0) = .next t ∧ t.response.rstat = .ok) ∧
      (∃ t, exec .reset (session Config.platform .encrypt .ready 8 0) = .next t ∧ t.response.rstat = .ok) ∧
      (∃ t, exec .algid (session Config.platform .encrypt .ready 8 0) = .next t ∧ t.response.rstat = .ok) :=
  ⟨ready_ok _ _, ⟨_, rfl, rfl⟩, ⟨_, rfl, rfl⟩, ⟨_, rfl, rfl⟩, ⟨_, rfl, rfl⟩⟩

/-- A feed of nothing, which fits on every platform. -/
theorem feedmsg_nothing (mode : Mode) :
    ∃ t, exec (.feedmsg 0 0 0 0) (session Config.platform mode .ready 8 0) = .next t ∧ t.response.rstat = .ok := by
  refine ⟨respond 0 [] (begin (session Config.platform mode .ready 8 0)), ?_, rfl⟩
  have h0 : exec (.feedmsg 0 0 0 0) (session Config.platform mode .ready 8 0) =
      feedMsgOn Config.platform 0 0 0 0 (session Config.platform mode .ready 8 0) := rfl
  have h : (inputFits Config.platform 0 0 && outputFits Config.platform 0) = true := by simp [inputFits, outputFits]
  rw [h0, feedMsgOn]
  simp only [h]
  cases mode <;> rfl

theorem witness_ResponsesHaveTheirShape_data :
    SessionOk Config.platform (session Config.platform .encrypt .final 8 0) ∧
      (∃ t, exec .mac (session Config.platform .encrypt .final 8 0) = .next t ∧ t.response.rstat = .ok) ∧
      (∃ t, exec (.feedmsg 0 0 0 0) (session Config.platform .encrypt .ready 8 0) = .next t ∧ t.response.rstat = .ok) :=
  ⟨final_ok _ _, ⟨_, rfl, rfl⟩, feedmsg_nothing _⟩

theorem witness_RefusalsChangeNothing :
    ∃ t, exec .mac (session Config.platform .encrypt .ready 8 0) = .next t ∧ isRefusal t.response.rstat = true :=
  ⟨_, rfl, rfl⟩

theorem witness_ErrorsEnterErrorPhase :
    (∃ t, exec (.init true true 24 0 0 0 1 0 0) (session Config.platform .encrypt .ready 8 0) = .next t ∧
      isSessionError t.response.rstat = true) ∧
    (∃ t, exec (.init false true 128 0 0 0 16 0 0) (session Config.platform .encrypt .ready 8 0) = .next t ∧
      isSessionError t.response.rstat = true) :=
  ⟨⟨_, rfl, rfl⟩, ⟨_, rfl, rfl⟩⟩

theorem witness_ErrorsEnterErrorPhase_finalize :
    ∃ t, exec (.finalize 0 0) (session Config.platform .decrypt .ready 8 7) = .next t ∧
      isSessionError t.response.rstat = true := by
  refine ⟨raiseError .dataTooShort (begin (session Config.platform .decrypt .ready 8 7)), ?_, rfl⟩
  have h0 : exec (.finalize 0 0) (session Config.platform .decrypt .ready 8 7) =
      finalizeOn Config.platform 0 0 (session Config.platform .decrypt .ready 8 7) := rfl
  have h : outputFits Config.platform 0 = true := by simp [outputFits]
  rw [h0, finalizeOn]
  simp only [h]
  rfl

theorem witness_PhaseTable :
    (Instr.updsize 8).wellFormed = true ∧
    (∃ t, exec (.updsize 8) (session Config.platform .encrypt .final 8 0) = .next t ∧
      phaseAfter (.updsize 8) .final true true = some .final ∧ t.response.rstat = .ok) ∧
    (∃ t, exec .mac (session Config.platform .encrypt .ready 8 0) = .next t ∧
      phaseAfter .mac .ready true true = none) ∧
    (∃ t, exec (.init true true 24 0 0 0 1 0 0) (session Config.platform .encrypt .ready 8 0) = .next t ∧
      isSessionError t.response.rstat = true) :=
  ⟨rfl, ⟨_, rfl, rfl, rfl⟩, ⟨_, rfl, rfl⟩, ⟨_, rfl, rfl⟩⟩

theorem witness_ChecksFireInOrder :
    decode [0x02000080, 1, 0, 0, 12, 0, 0] = .reject .keyDescriptorWithoutKey ∧
      Reject.keyDescriptorWithoutKey ≠ .commandLength := by decide

theorem witness_OutputStaysInItsWindow :
    Inv Config.platform (session Config.platform .encrypt .ready 8 0) ∧
      ∃ t, exec (.feedmsg 0 0 0 0) (session Config.platform .encrypt .ready 8 0) = .next t ∧ t.response.rstat = .ok :=
  ⟨⟨ready_ok _ _, empty_buffers _ _ _ _ _⟩, feedmsg_nothing _⟩

theorem witness_SessionParametersAreFixedAtInit :
    ∃ t, exec .reset (session Config.platform .encrypt .final 8 0) = .next t ∧ t.response.rstat = .ok :=
  ⟨_, rfl, rfl⟩

theorem witness_KeyStateIsFixedAtInit :
    ∃ t, exec .reset (session Config.platform .decrypt .final 8 0) = .next t ∧ t.response.rstat = .ok :=
  ⟨_, rfl, rfl⟩

theorem toyReady_ok (mode : Mode) : SessionOk toyP (sessionWith toyIbuf (zeroBytes 48) toyOffset toyP mode .ready 8 0) :=
  session_ok _ _ _ toyP mode .ready 8 0 (.inl rfl) (by decide) (by decide) (.inl (by decide))

/-- A FEEDMSG of the 40 bytes of the TOY message makes requests and ends OK. -/
theorem witness_RequestCounts :
    SessionOk toyP (sessionWith toyIbuf (zeroBytes 48) toyOffset toyP .encrypt .ready 8 0) ∧
      ∃ t, execOn toyP (.feedmsg 64 40 0 64) (sessionWith toyIbuf (zeroBytes 48) toyOffset toyP .encrypt .ready 8 0) =
          .next t ∧ t.response.rstat = .ok := by
  obtain ⟨t, h, ht⟩ := nextHas_next (r := execOn toyP (.feedmsg 64 40 0 64)
    (sessionWith toyIbuf (zeroBytes 48) toyOffset toyP .encrypt .ready 8 0))
    (p := fun t => t.response.rstat == .ok) (by decide +kernel)
  exact ⟨toyReady_ok _, t, h, eq_of_beq ht⟩

theorem witness_PortRequestsRespectTheMode :
    SessionOk toyP (sessionWith toyIbuf (zeroBytes 48) toyOffset toyP .decrypt .ready 8 0) ∧
      ∃ t, execOn toyP (.feedmsg 64 40 0 64) (sessionWith toyIbuf (zeroBytes 48) toyOffset toyP .decrypt .ready 8 0) =
          .next t ∧ t.requests ≠ [] := by
  obtain ⟨t, h, ht⟩ := nextHas_next (r := execOn toyP (.feedmsg 64 40 0 64)
    (sessionWith toyIbuf (zeroBytes 48) toyOffset toyP .decrypt .ready 8 0))
    (p := fun t => decide (t.requests ≠ [])) (by decide +kernel)
  exact ⟨toyReady_ok _, t, h, of_decide_eq_true ht⟩

theorem witness_NtzCountsTrailingZeros : BitVec.ofNat 64 (2 ^ 63) ≠ 0 ∧ (1 : BitVec 64) ≠ 0 := by decide

theorem witness_LsubIsTheClosedForm :
    LadderOk (zeroBytes 16) [] ∧ LadderOk (zeroBytes 16) [double (zeroBytes 16)] := by
  refine ⟨fun n h => (nomatch h), fun n h => ?_⟩
  have : n = 0 := by simpa using h
  subst this; rfl

theorem witness_FormattedNonceBytes :
    (1 ≤ [(0xFF : Byte)].length ∧ [(0xFF : Byte)].length ≤ 15) ∧
      (1 ≤ (List.replicate 15 (0xFF : Byte)).length ∧ (List.replicate 15 (0xFF : Byte)).length ≤ 15) := by decide

theorem witness_InitialOffsetIsTheShiftedStretch : (0 ≤ 63) ∧ (63 ≤ 63) := by decide

/-- With an empty cache, and with a filled one. -/
theorem witness_KtopCacheIsInvisible :
    ((session toyP .encrypt .ready 8 0).ktopValid = true → KtopOk toyP (session toyP .encrypt .ready 8 0)) ∧
      KtopOk toyP { session toyP .encrypt .ready 8 0 with
        ktopValid := true, stretch := stretchOf (toyEnc key1 (zeroBytes 16)) } :=
  ⟨fun h => (nomatch h), key1, rfl, rfl⟩

theorem witness_InitStartsTheSession :
    SessionOk toyP opened ∧ opened.phase ≠ .noSession ∧ toyP.keyLenOk (16 : Word).toNat = true ∧
      32 ≤ (256 : BitVec 16).toNat ∧ (256 : BitVec 16).toNat ≤ 256 ∧ (256 : BitVec 16).toNat % 8 = 0 ∧
      1 ≤ (15 : Word).toNat ∧ (15 : Word).toNat ≤ 15 ∧ (0 : Word).toNat + (16 : Word).toNat ≤ toyP.ibufSize.val ∧
      (113 : Word).toNat + (15 : Word).toNat ≤ toyP.ibufSize.val ∧
      (32 : Word).toNat + (32 : Word).toNat ≤ toyP.ibufSize.val ∧ (32 : Word).toNat ≤ toyP.iaadMax.val :=
  ⟨opened_ok _ _, by decide +kernel⟩

/-- `K = 0`: the key state of an earlier INIT. -/
theorem witness_InitStartsTheSession_keep :
    SessionOk toyP (session toyP .encrypt .final 8 0) ∧ (session toyP .encrypt .final 8 0).phase ≠ .noSession ∧
      (false = false → (session toyP .encrypt .final 8 0).keyed = true ∧ (0 : Word) = 0 ∧ (0 : Word) = 0) ∧
      (false = true → toyP.keyLenOk (0 : Word).toNat = true) ∧
      32 ≤ (32 : BitVec 16).toNat ∧ (32 : BitVec 16).toNat ≤ 256 ∧ (32 : BitVec 16).toNat % 8 = 0 ∧
      1 ≤ (1 : Word).toNat ∧ (1 : Word).toNat ≤ 15 ∧
      (127 : Word).toNat + (1 : Word).toNat ≤ toyP.ibufSize.val ∧ (0 : Word).toNat + (0 : Word).toNat ≤ toyP.ibufSize.val ∧
      (0 : Word).toNat ≤ toyP.iaadMax.val :=
  ⟨final_ok _ _, by decide, fun _ => ⟨rfl, rfl, rfl⟩, fun h => (nomatch h), by decide +kernel⟩

/-- The INIT of the TOY message with its AAD as the initial one. -/
theorem witness_InitialAadIsFedAsByFeedaad :
    SessionOk toyP opened ∧ ∃ t u v,
      initOn toyP true true 64 0 16 16 5 32 20 opened = .next t ∧ t.response.rstat = .ok ∧
      initOn toyP true true 64 0 16 16 5 0 0 opened = .next u ∧ feedAadOn toyP 32 20 u = .next v := by
  obtain ⟨t, ht, ht'⟩ := nextHas_next (r := initOn toyP true true 64 0 16 16 5 32 20 opened)
    (p := fun t => t.response.rstat == .ok) (by decide +kernel)
  obtain ⟨u, hu, hu'⟩ := nextHas_next (r := initOn toyP true true 64 0 16 16 5 0 0 opened)
    (p := fun u => nextHas (feedAadOn toyP 32 20 u) fun _ => true) (by decide +kernel)
  obtain ⟨v, hv, -⟩ := nextHas_next hu'
  exact ⟨opened_ok _ _, t, u, v, ht, eq_of_beq ht', hu, hv⟩

theorem witness_ResetRebuildsTheLanes :
    LadderOk (session Config.platform .encrypt .final 8 0).lDollar (session Config.platform .encrypt .final 8 0).ladder ∧
      (session Config.platform .encrypt .final 8 0).phase = .final ∧
      (session Config.platform .encrypt .ready 8 0).phase = .ready ∧
      { session Config.platform .encrypt .ready 8 0 with phase := .error }.phase = .error ∧
      { session Config.platform .encrypt .ready 8 0 with phase := .error }.inited = true :=
  ⟨fun _ h => (nomatch h), rfl, rfl, rfl, rfl⟩

/-- INIT with the AAD, then FEEDAAD, then RESET. -/
theorem witness_ResetRestoresInitsLanes :
    SessionOk toyP opened ∧ (∀ c ∈ [Instr.feedaad 32 20], changesSession c = false) ∧ ∃ t u v,
      initOn toyP true true 64 0 16 16 5 32 20 opened = .next t ∧ t.response.rstat = .ok ∧
      runOn toyP [.feedaad 32 20] t = some u ∧ resetOn toyP u = .next v := by
  obtain ⟨t, ht, ht'⟩ := nextHas_next (r := initOn toyP true true 64 0 16 16 5 32 20 opened)
    (p := fun t => t.response.rstat == .ok &&
      nextHas (feedAadOn toyP 32 20 t) fun u => nextHas (resetOn toyP u) fun _ => true) (by decide +kernel)
  obtain ⟨h1, h2⟩ := Bool.and_eq_true_iff.mp ht'
  obtain ⟨u, hu, hu'⟩ := nextHas_next h2
  obtain ⟨v, hv, -⟩ := nextHas_next hu'
  refine ⟨opened_ok _ _, by decide, t, u, v, ht, eq_of_beq h1, ?_, hv⟩
  show (match feedAadOn toyP 32 20 t with
    | .next t => runOn toyP [] t
    | .fault _ => none
    | .refused _ => none) = some u
  rw [hu]; rfl

theorem witness_AlgidAnswersTheName :
    (session Config.platform .encrypt .ready 8 0).phase ≠ .noSession ∧ State.reset.phase = .noSession := by decide

theorem witness_FeedaadAppendsToTheAad :
    SessionOk toyP (sessionWith toyIbuf (zeroBytes 48) toyOffset toyP .encrypt .ready 8 0) ∧
      (32 : Word).toNat + (96 : Word).toNat ≤ toyP.ibufSize.val ∧
      (0 : BitVec 64).toNat + ((0 : BitVec 5).toNat + (96 : Word).toNat) / 16 < 2 ^ 64 ∧
      HashLaneHolds (permEnc toyP (some key1)) (double (toyEnc key1 (zeroBytes 16))) [] HashLane.zero :=
  ⟨toyReady_ok _, by decide +kernel, by decide, rfl, rfl, rfl, rfl, rfl⟩

theorem witness_FeedaadChunking :
    SessionOk toyP (sessionWith toyIbuf (zeroBytes 48) toyOffset toyP .encrypt .ready 8 0) ∧
      (32 : Word).toNat + (7 : Word).toNat + (89 : Word).toNat ≤ toyP.ibufSize.val ∧
      (7 : Word).toNat + (89 : Word).toNat < 2 ^ 32 ∧ (32 : Word).toNat + (7 : Word).toNat < 2 ^ 32 ∧
      (0 : BitVec 64).toNat + ((0 : BitVec 5).toNat + (7 : Word).toNat + (89 : Word).toNat) / 16 < 2 ^ 64 :=
  ⟨toyReady_ok _, by decide +kernel⟩

theorem witness_FeedmsgAppendsToTheMessage :
    let s := sessionWith toyIbuf (zeroBytes 48) toyOffset toyP .decrypt .ready 8 0
    SessionOk toyP s ∧ s.phase = .ready ∧ (64 : Word).toNat + (64 : Word).toNat ≤ toyP.ibufSize.val ∧
      (128 : Word).toNat ≤ toyP.obufSize.val ∧ (80 : Word).toNat + updsize s (64 : Word).toNat ≤ (128 : Word).toNat ∧
      s.mainLane.mainCount.toNat + updsize s (64 : Word).toNat / 16 < 2 ^ 64 ∧
      MainLaneHolds (payloadPerm toyP s.mpKey s.mode) s.lDollar s.offsetMain0 s.mode s.tagLen.toNat [] s.mainLane :=
  ⟨toyReady_ok _, rfl, by decide +kernel, by decide +kernel, by decide +kernel, by decide +kernel,
    rfl, rfl, rfl, rfl, rfl⟩

/-- With `tagLen = 8`: one byte fewer than the window (23), a filled window (24: one block gone, 8 kept), and the last
message that holds no whole tag (7) and the first that does (8). -/
theorem witness_TailWindow :
    let s := sessionWith toyIbuf (zeroBytes 48) toyOffset toyP .decrypt .ready 8 0
    SessionOk toyP s ∧ s.phase = .ready ∧ s.mode = .decrypt ∧
      MainLaneHolds (payloadPerm toyP s.mpKey s.mode) s.lDollar s.offsetMain0 s.mode s.tagLen.toNat [] s.mainLane ∧
      ∀ len ∈ [(7 : Word), 8, 23, 24],
        ∃ t, feedMsgOn toyP 64 len 0 64 s = .next t ∧ (t.response.rstat == .ok) = true := by
  refine ⟨toyReady_ok _, rfl, rfl, ⟨rfl, rfl, rfl, rfl, rfl⟩, fun len h => nextHas_next ?_⟩
  simp only [List.mem_cons, List.not_mem_nil, or_false] at h
  rcases h with rfl | rfl | rfl | rfl <;> decide +kernel

theorem witness_FeedmsgChunking :
    let s := sessionWith toyIbuf (zeroBytes 48) toyOffset toyP .encrypt .ready 8 0
    SessionOk toyP s ∧ s.phase = .ready ∧
      (64 : Word).toNat + (7 : Word).toNat + (57 : Word).toNat ≤ toyP.ibufSize.val ∧
      (7 : Word).toNat + (57 : Word).toNat < 2 ^ 32 ∧ (64 : Word).toNat + (7 : Word).toNat < 2 ^ 32 ∧
      (128 : Word).toNat ≤ toyP.obufSize.val ∧
      (64 : Word).toNat + updsize s ((7 : Word).toNat + (57 : Word).toNat) ≤ (128 : Word).toNat ∧
      s.mainLane.mainCount.toNat + updsize s ((7 : Word).toNat + (57 : Word).toNat) / 16 < 2 ^ 64 :=
  ⟨toyReady_ok _, rfl, by decide +kernel⟩

theorem witness_LanesDoNotInteract :
    let s := sessionWith toyIbuf (zeroBytes 48) toyOffset toyP .encrypt .ready 8 0
    SessionOk toyP s ∧ ∃ t u t' u', feedAadOn toyP 32 20 s = .next t ∧ t.response.rstat = .ok ∧
      feedMsgOn toyP 64 40 0 64 t = .next u ∧ u.response.rstat = .ok ∧
      feedMsgOn toyP 64 40 0 64 s = .next t' ∧ feedAadOn toyP 32 20 t' = .next u' := by
  intro s
  obtain ⟨t, ht, ht'⟩ := nextHas_next (r := feedAadOn toyP 32 20 s)
    (p := fun t => t.response.rstat == .ok && nextHas (feedMsgOn toyP 64 40 0 64 t) fun u => u.response.rstat == .ok)
    (by decide +kernel)
  obtain ⟨h1, h2⟩ := Bool.and_eq_true_iff.mp ht'
  obtain ⟨u, hu, hu'⟩ := nextHas_next h2
  obtain ⟨t', h3, h4⟩ := nextHas_next (r := feedMsgOn toyP 64 40 0 64 s)
    (p := fun t => nextHas (feedAadOn toyP 32 20 t) fun _ => true) (by decide +kernel)
  obtain ⟨u', h5, -⟩ := nextHas_next h4
  exact ⟨toyReady_ok _, t, u, t', u', ht, eq_of_beq h1, hu, eq_of_beq hu', h3, h5⟩

theorem witness_UpdsizeAnswers :
    (session Config.platform .encrypt .ready 8 0).phase = .ready ∧
      (session Config.platform .decrypt .final 8 0).phase = .final ∧
      State.reset.phase ≠ .ready ∧ State.reset.phase ≠ .final := by
  exact ⟨rfl, rfl, by decide, by decide⟩

theorem witness_FinsizeAnswers :
    (session Config.platform .encrypt .ready 8 15).phase = .ready ∧
      (session Config.platform .decrypt .final 8 0).phase = .final ∧
      State.reset.phase ≠ .ready ∧ State.reset.phase ≠ .final := by
  exact ⟨rfl, rfl, by decide, by decide⟩

theorem witness_LongTagsAreNotFinalized :
    (session Config.platform .encrypt .ready 17 0).phase = .ready ∧
      (0 : Word).toNat ≤ Config.platform.obufSize.val ∧
      16 < (session Config.platform .encrypt .ready 17 0).tagLen.toNat := ⟨rfl, Nat.zero_le _, by decide⟩

theorem witness_FinalizeEncrypts :
    let s := session toyP .encrypt .ready 16 15
    SessionOk toyP s ∧ s.phase = .ready ∧ s.mode = .encrypt ∧ s.tagLen.toNat ≤ 16 ∧
      (31 : Word).toNat ≤ toyP.obufSize.val ∧
      (0 : Word).toNat + (s.mainLane.mainPos.toNat + s.tagLen.toNat) ≤ (31 : Word).toNat :=
  ⟨session_ok _ _ _ toyP .encrypt .ready 16 15 (.inl rfl) (by decide) (by decide) (.inl (by decide)), rfl, rfl,
    by decide, by decide +kernel, by decide⟩

/-- The tag of the empty TOY message is accepted. -/
theorem witness_FinalizeDecrypts_accept :
    let s := sessionWith [] toyTag toyOffset toyP .decrypt .ready 8 8
    SessionOk toyP s ∧ s.phase = .ready ∧ s.mode = .decrypt ∧ s.tagLen.toNat ≤ 16 ∧
      s.tagLen.toNat ≤ s.mainLane.mainPos.toNat ∧ (0 : Word).toNat ≤ toyP.obufSize.val ∧
      (0 : Word).toNat + (s.mainLane.mainPos.toNat - s.tagLen.toNat) ≤ (0 : Word).toNat ∧
      expectedTag toyP s = candidateTag s :=
  ⟨session_ok _ _ _ toyP .decrypt .ready 8 8 (.inl rfl) (by decide) (by decide) (.inl (by decide)), rfl, rfl,
    by decide, by decide, by decide +kernel, by decide, by decide +kernel⟩

/-- With its last bit flipped it is not. -/
theorem witness_FinalizeDecrypts_reject :
    let s := sessionWith [] forgedTag toyOffset toyP .decrypt .ready 8 8
    SessionOk toyP s ∧ s.phase = .ready ∧ s.mode = .decrypt ∧ s.tagLen.toNat ≤ 16 ∧
      s.tagLen.toNat ≤ s.mainLane.mainPos.toNat ∧ (0 : Word).toNat ≤ toyP.obufSize.val ∧
      (0 : Word).toNat + (s.mainLane.mainPos.toNat - s.tagLen.toNat) ≤ (0 : Word).toNat ∧
      expectedTag toyP s ≠ candidateTag s :=
  ⟨session_ok _ _ _ toyP .decrypt .ready 8 8 (.inl rfl) (by decide) (by decide) (.inl (by decide)), rfl, rfl,
    by decide, by decide, by decide +kernel, by decide, by decide +kernel⟩

theorem witness_TagIsTheClosedForm :
    let s := session toyP .encrypt .ready 16 0
    SessionOk toyP s ∧ s.phase = .ready ∧ s.tagLen.toNat ≤ 16 ∧ (16 : Word).toNat ≤ toyP.obufSize.val ∧
      s.mode = .encrypt ∧ SessionHolds toyP [] [] s ∧ (0 : Word).toNat + 0 % 16 + s.tagLen.toNat ≤ (16 : Word).toNat :=
  ⟨session_ok _ _ _ toyP .encrypt .ready 16 0 (.inl rfl) (by decide) (by decide) (.inl (by decide)), rfl, by decide,
    by decide +kernel, rfl, ⟨⟨rfl, rfl, rfl, rfl, rfl⟩, ⟨rfl, rfl, rfl, rfl, rfl⟩⟩, by decide⟩

/-- The candidate tag that is right, and one that is not. -/
theorem witness_TagIsTheClosedForm_decrypt :
    let s := sessionWith [] toyTag toyOffset toyP .decrypt .ready 8 8
    let f := sessionWith [] forgedTag toyOffset toyP .decrypt .ready 8 8
    let tag := (bytesOf 8 0x2245648BAEC9E916).toList
    let forged := (bytesOf 8 0x2245648BAEC9E917).toList
    let right := tagOf (permEnc toyP s.hpKey) s.lStar s.lDollar s.offsetMain0 s.tagLen.toNat []
      (cryptText (permDec toyP s.hpKey) (permEnc toyP s.hpKey) s.lStar s.lDollar s.offsetMain0 [])
    SessionOk toyP s ∧ SessionOk toyP f ∧ s.phase = .ready ∧ f.phase = .ready ∧ s.mode = .decrypt ∧ f.mode = .decrypt ∧
      tag.length = s.tagLen.toNat ∧ forged.length = f.tagLen.toNat ∧
      (0 : Word).toNat ≤ toyP.obufSize.val ∧ (0 : Word).toNat + ([] : List Byte).length % 16 ≤ (0 : Word).toNat ∧
      SessionHolds toyP [] ([] ++ tag) s ∧ SessionHolds toyP [] ([] ++ forged) f ∧ tag = right ∧ forged ≠ right :=
  ⟨session_ok _ _ _ toyP .decrypt .ready 8 8 (.inl rfl) (by decide) (by decide) (.inl (by decide)),
    session_ok _ _ _ toyP .decrypt .ready 8 8 (.inl rfl) (by decide) (by decide) (.inl (by decide)),
    rfl, rfl, rfl, rfl, by decide, by decide, by decide +kernel, by decide,
    ⟨⟨rfl, rfl, rfl, rfl, rfl⟩, ⟨by decide +kernel, by decide +kernel, by decide +kernel, by decide +kernel,
      by decide +kernel⟩⟩,
    ⟨⟨rfl, rfl, rfl, rfl, rfl⟩, ⟨by decide +kernel, by decide +kernel, by decide +kernel, by decide +kernel,
      by decide +kernel⟩⟩,
    by decide +kernel, by decide +kernel⟩

/-- Two forged tags that differ in the last byte only. -/
theorem witness_AuthenticationFailureRevealsNothing :
    let s := sessionWith [] forgedTag toyOffset toyP .decrypt .ready 8 8
    let buf : Bytes 48 := setByte toyTag 0 0
    SessionOk toyP s ∧
      (∀ i (h : i < 48), i < s.mainLane.mainPos.toNat - s.tagLen.toNat → buf[i] = s.mainLane.mainBuf[i]) ∧
      ∃ t t', finalizeOn toyP 0 0 s = .next t ∧ t.response.rstat = .authenticationFailed ∧
        finalizeOn toyP 0 0 { s with mainLane := { s.mainLane with mainBuf := buf } } = .next t' ∧
        t'.response.rstat = .authenticationFailed := by
  intro s buf
  obtain ⟨t, ht, h⟩ := nextHas_next (r := finalizeOn toyP 0 0 s)
    (p := fun t => t.response.rstat == .authenticationFailed) (by decide +kernel)
  obtain ⟨t', ht', h'⟩ := nextHas_next
    (r := finalizeOn toyP 0 0 { s with mainLane := { s.mainLane with mainBuf := buf } })
    (p := fun t => t.response.rstat == .authenticationFailed) (by decide +kernel)
  refine ⟨session_ok _ _ _ toyP .decrypt .ready 8 8 (.inl rfl) (by decide) (by decide) (.inl (by decide)),
    fun i _ hi => absurd hi ?_, t, t', ht, eq_of_beq h, ht', eq_of_beq h'⟩
  show ¬ i < 8 - 8
  omega

theorem witness_MacAnswersTheTag :
    (session Config.platform .encrypt .final 8 0).phase = .final ∧ State.reset.phase = .noSession ∧
      opened.phase = .uninit ∧ (session Config.platform .encrypt .ready 8 0).phase = .ready ∧
      { session Config.platform .encrypt .ready 8 0 with phase := .error }.phase = .error := ⟨rfl, rfl, rfl, rfl, rfl⟩

/-- Two sessions that differ in the buffered bytes and the offset. -/
theorem witness_ResponsesKeepTheSecrets :
    let s := session toyP .encrypt .ready 8 0
    let s' := sessionWith [] toyTag toyOffset toyP .encrypt .ready 8 0
    SessionOk toyP s ∧ SessionOk toyP s' ∧ (Instr.finalize 0 8 ≠ .mac) ∧ s.mode = .encrypt ∧
      s' = { s with
        hpKey := s'.hpKey, mpKey := s'.mpKey, lStar := s'.lStar, lDollar := s'.lDollar, ladder := s'.ladder
        ktopValid := s'.ktopValid, ktopInput := s'.ktopInput, stretch := s'.stretch, offsetMain0 := s'.offsetMain0
        macBlock := s'.macBlock
        hashLane := { s'.hashLane with hashPos := s.hashLane.hashPos, hashCount := s.hashLane.hashCount }
        mainLane := { s'.mainLane with mainPos := s.mainLane.mainPos, mainCount := s.mainLane.mainCount } } ∧
      ∃ t t', execOn toyP (.finalize 0 8) s = .next t ∧ execOn toyP (.finalize 0 8) s' = .next t' := by
  intro s s'
  obtain ⟨t, ht, -⟩ := nextHas_next (r := execOn toyP (.finalize 0 8) s) (p := fun _ => true) (by decide +kernel)
  obtain ⟨t', ht', -⟩ := nextHas_next (r := execOn toyP (.finalize 0 8) s') (p := fun _ => true) (by decide +kernel)
  exact ⟨ready_ok _ _,
    session_ok _ _ _ toyP .encrypt .ready 8 0 (.inl rfl) (by decide) (by decide) (.inl (by decide)),
    by decide, rfl, rfl, t, t', ht, ht'⟩

theorem witness_EncryptWholeMessage :
    Inv toyP opened ∧ opened.phase ≠ .noSession ∧ toyP.keyLenOk (16 : Word).toNat = true ∧
      32 ≤ (64 : BitVec 16).toNat ∧ (64 : BitVec 16).toNat ≤ 128 ∧ (64 : BitVec 16).toNat % 8 = 0 ∧
      1 ≤ (5 : Word).toNat ∧ (5 : Word).toNat ≤ 15 ∧
      (0 : Word).toNat + (16 : Word).toNat ≤ toyP.ibufSize.val ∧ (16 : Word).toNat + (5 : Word).toNat ≤ toyP.ibufSize.val ∧
      (32 : Word).toNat + (20 : Word).toNat ≤ toyP.ibufSize.val ∧
      (64 : Word).toNat + (40 : Word).toNat ≤ toyP.ibufSize.val ∧
      (80 : Word).toNat + (40 : Word).toNat + (64 : BitVec 16).toNat / 8 ≤ (128 : Word).toNat ∧
      (128 : Word).toNat ≤ toyP.obufSize.val :=
  ⟨⟨opened_ok _ _, by decide +kernel, rfl, by decide +kernel, rfl⟩, by decide +kernel⟩

/-- IBUF of the TOY message as it is decrypted. -/
def toyCipherIbuf : Memory :=
  placed 0 key1 ++ placed 16 [1, 2, 3, 4, 5] ++ placed 32 ((List.range 20).map fun i => BitVec.ofNat 8 (0xA0 + i)) ++
    placed 64 toyCipher.toList

/-- The TOY message: the ciphertext and tag of section 3 are those of its plaintext. -/
theorem witness_DecryptInvertsEncrypt :
    let s := openedWith toyCipherIbuf
    let p : List Byte := (List.range 40).map fun i => BitVec.ofNat 8 (0x30 + i)
    Inv toyP s ∧ s.phase ≠ .noSession ∧ toyP.keyLenOk (16 : Word).toNat = true ∧
      32 ≤ (64 : BitVec 16).toNat ∧ (64 : BitVec 16).toNat ≤ 128 ∧ (64 : BitVec 16).toNat % 8 = 0 ∧
      1 ≤ (5 : Word).toNat ∧ (5 : Word).toNat ≤ 15 ∧ (0 : Word).toNat + (16 : Word).toNat ≤ toyP.ibufSize.val ∧
      (16 : Word).toNat + (5 : Word).toNat ≤ toyP.ibufSize.val ∧
      (32 : Word).toNat + (20 : Word).toNat ≤ toyP.ibufSize.val ∧ (128 : Word).toNat ≤ toyP.obufSize.val ∧
      (64 : Word).toNat + (48 : Word).toNat ≤ toyP.ibufSize.val ∧ (88 : Word).toNat + p.length ≤ (128 : Word).toNat ∧
      (let E := toyP.perm (inputBytes s 0 16)
       let lStar := E (zeroBytes 16)
       let lDollar := double lStar
       let start := initialOffset toyP E (64 / 8) (inputBytes s 16 5)
       inputBytes s 64 48 =
        cryptText E E lStar lDollar start p ++ tagOf E lStar lDollar start (64 / 8) (inputBytes s 32 20) p) :=
  ⟨⟨opened_ok _ _, by decide +kernel, rfl, by decide +kernel, rfl⟩, by decide +kernel⟩

/-- NEWSESSION as the first command after reset. -/
theorem witness_StepKeepsTheInvariant :
    Inv Config.platform { State.reset with hostQueue := [.command [0x01000000]] } ∧
      ∃ t, step { State.reset with hostQueue := [.command [0x01000000]] } = .next t :=
  ⟨⟨reset_ok _ .noSession (.inl rfl) [] _, rfl, rfl, rfl, rfl⟩, _, rfl⟩

theorem witness_StepKeepsKeysAccepted :
    KeyAccepted Config.platform { State.reset with hostQueue := [.command [0x01000000]] } ∧
      ∃ t, step { State.reset with hostQueue := [.command [0x01000000]] } = .next t :=
  ⟨fun _ h => (nomatch h), _, rfl⟩

theorem witness_BufferReadsAndWrites :
    Memory.wf { State.reset with obuf := [(0, 1), (5, 2)] }.obuf = true ∧ 0 < 1 := by decide

theorem sessionOk_full {P : Platform} {s : State} (h : SessionOk P s) (hp : s.phase = .ready) {l : List Block}
    (hl : LadderOk s.lDollar l) (h64 : l.length = 64) (c d : BitVec 64) :
    SessionOk P { s with
      ladder := l, hashLane := { s.hashLane with hashCount := c }
      mainLane := { s.mainLane with mainCount := d } } := by
  obtain ⟨h1, h2, h3, -, -, h6, h7, h8, h9, -, h11⟩ := h
  refine ⟨h1, h2, h3, hl, Nat.le_of_eq h64, h6, h7, h8, fun h => ⟨(h9 h).1, (h9 h).2.1, (h9 h).2.2, ?_, ?_⟩,
    fun h => absurd (hp.symm.trans h) (by decide), h11⟩
  · show c.toNat < 2 ^ l.length
    rw [h64]; exact c.isLt
  · show d.toNat < 2 ^ l.length
    rw [h64]; exact d.isLt

theorem nearWrap_ok (mode : Mode) : SessionOk toyP (nearWrap mode) :=
  sessionOk_full (toyReady_ok mode) rfl (ladderOk_ladderUpTo 63 (ladderOk_nil _)) (length_ladderUpTo _ _ _) _ _

theorem wraps_feedaad (mode : Mode) : feedAadOn toyP 32 32 (nearWrap mode) = .fault .counterWrap := by
  cases mode <;>
    rw [feedAadOn_eq, if_neg (by decide +kernel), if_neg (by decide +kernel), if_pos (by decide +kernel)]

theorem wraps_feedmsg (mode : Mode) : feedMsgOn toyP 64 40 0 64 (nearWrap mode) = .fault .counterWrap := by
  cases mode <;> rw [feedMsgOn_eq, if_neg (by decide +kernel), if_neg (by decide +kernel), if_neg (by decide +kernel),
    if_pos (by decide +kernel)]

/-- A reset during ALGID, during a feed that would wrap, and during transactions that are no command. -/
theorem witness_ResetAbandonsTheCommand :
    let s := { State.reset with hostQueue := [.resetDuring [0x0A000000] 0 0] }
    s.hostQueue = .resetDuring [0x0A000000] 0 0 :: [] ∧ Memory.wf s.obuf = true ∧
      decode [0x0A000000] = .instr .algid ∧ (∃ t, execOn toyP .algid s = .next t) ∧
      Memory.wf (nearWrap .encrypt).obuf = true ∧ decode [0x03000000, 32, 32] = .instr (.feedaad 32 32) ∧
      execOn toyP (.feedaad 32 32) (nearWrap .encrypt) = .fault .counterWrap ∧
      (∃ t, execOn toyP (beforeWrap (.feedaad 32 32) (nearWrap .encrypt)) (nearWrap .encrypt) = .next t) ∧
      decode [0] = .reject .reservedOpcode ∧ decode [0x03000000] = .reject .commandLength := by
  obtain ⟨k, h1, -, -, -, u, h2, -⟩ := beforeWrap_feedaad (nearWrap_ok .encrypt) (wraps_feedaad .encrypt)
  exact ⟨rfl, rfl, by decide, ⟨_, rfl⟩, rfl, by decide, wraps_feedaad .encrypt, ⟨u, by rw [h1]; exact h2⟩, by decide,
    by decide⟩

/-- The clause on a feed that cannot be cut short of its wrap: one of no bytes, in a state no run reaches (`hashPos = 16`). -/
theorem witness_ResetAbandonsTheCommand_stop :
    let s := { nearWrap .encrypt with
      hashLane := { HashLane.zero with hashPos := 16, hashCount := BitVec.ofNat 64 (2 ^ 64 - 1) } }
    Memory.wf s.obuf = true ∧ decode [0x03000000, 0, 0] = .instr (.feedaad 0 0) ∧
      execOn toyP (.feedaad 0 0) s = .fault .counterWrap ∧
      execOn toyP (beforeWrap (.feedaad 0 0) s) s = .fault .counterWrap := by
  intro s
  have h : execOn toyP (.feedaad 0 0) s = .fault .counterWrap := by
    rw [execOn, feedAadOn_eq, if_neg (by decide +kernel), if_neg (by decide +kernel), if_pos (by decide +kernel)]
  have hb : beforeWrap (.feedaad 0 0) s = .feedaad 0 0 := by decide +kernel
  exact ⟨rfl, by decide, h, by rw [hb]; exact h⟩

theorem witness_BeforeWrapIsTheLongestPart :
    SessionOk toyP (nearWrap .decrypt) ∧ feedAadOn toyP 32 32 (nearWrap .decrypt) = .fault .counterWrap ∧
      feedMsgOn toyP 64 40 0 64 (nearWrap .decrypt) = .fault .counterWrap ∧
      feedMsgOn toyP 64 40 0 64 (nearWrap .encrypt) = .fault .counterWrap :=
  ⟨nearWrap_ok _, wraps_feedaad _, wraps_feedmsg _, wraps_feedmsg _⟩

/-- RESET in `FINAL`: a message that begins anew. -/
theorem witness_StepKeepsWhatWasFed :
    let s := { session Config.platform .decrypt .final 8 0 with hostQueue := [.command [0x08000000]] }
    Inv Config.platform s ∧ SessionHolds Config.platform [] [] s ∧ ∃ t, step s = .next t ∧ InMessage t :=
  ⟨⟨sessionOk_withQueue (session_ok [] _ _ Config.platform .decrypt .final 8 0 (.inr rfl) (by decide) (by decide)
      (.inl (by decide))) _, rfl, rfl, rfl, rfl⟩,
    ⟨⟨rfl, rfl, rfl, rfl, rfl⟩, ⟨rfl, rfl, rfl, rfl, rfl⟩⟩, _, rfl, .inl rfl⟩

/-- FINSIZE, FEEDMSG of 20 bytes, FINALIZE. -/
theorem witness_FinsizeIsWhatIsProduced :
    let s := sessionWith toyIbuf (zeroBytes 48) toyOffset toyP .encrypt .ready 8 0
    SessionOk toyP s ∧ ∃ q t u, exec (.finsize 20) s = .next q ∧ q.response.rstat = .ok ∧
      feedMsgOn toyP 64 20 0 64 s = .next t ∧ t.response.rstat = .ok ∧
      finalizeOn toyP 16 64 t = .next u ∧ u.response.rstat = .ok := by
  intro s
  obtain ⟨q, hq, h1⟩ := nextHas_next (r := exec (.finsize 20) s) (p := fun q => q.response.rstat == .ok)
    (by decide +kernel)
  obtain ⟨t, ht, h2⟩ := nextHas_next (r := feedMsgOn toyP 64 20 0 64 s)
    (p := fun t => t.response.rstat == .ok && nextHas (finalizeOn toyP 16 64 t) fun u => u.response.rstat == .ok)
    (by decide +kernel)
  obtain ⟨h3, h4⟩ := Bool.and_eq_true_iff.mp h2
  obtain ⟨u, hu, h5⟩ := nextHas_next h4
  exact ⟨toyReady_ok _, q, t, u, hq, eq_of_beq h1, ht, eq_of_beq h3, hu, eq_of_beq h5⟩

end Sys2Proof.Tests
end

/-! PROOFS. One step on the host's next command (spec/00_scope.md R9, 20_memory.md R71). -/

namespace Sys2Proof.Machine

/-- R8, R323: the first event of the queue is taken, and nothing else of the state changes. -/
theorem takeEvent_eq_some {s : State} {e : HostEvent} {rest : List HostEvent} (h : s.hostQueue = e :: rest) :
    takeEvent s = some (e, { s with hostQueue := rest }) := by
  rw [takeEvent, h]

/-- R9, R71: a step on a transaction is what its words do, begun without the event. -/
theorem step_eq_runCommand {s : State} {words : List Word} {rest : List HostEvent}
    (h : s.hostQueue = .command words :: rest) : step s = runCommand words { s with hostQueue := rest } := by
  rw [step, takeEvent_eq_some h]

/-- R9: words that decode run as their command. -/
theorem runCommand_eq_exec {words : List Word} {i : Instr} (h : decode words = .instr i) (s : State) :
    runCommand words s = exec i s := by
  rw [runCommand, h]

/-- The table's bits stand for a command exactly when the transaction they number decodes to it. -/
theorem decodeTableWord_eq_some_iff {nbits w : Nat} {i : Instr} :
    decodeTableWord nbits w = some i ↔ decode (tableWords nbits w) = .instr i := by
  rw [decodeTableWord]
  cases decode (tableWords nbits w) <;> simp

/-- `withFetchWord` puts the transaction of the table's bits in front of the queue (log entry 1). -/
@[simp] theorem State.withFetchWord_hostQueue (s : State) (nbits w : Nat) :
    (s.withFetchWord nbits w).hostQueue = .command (tableWords nbits w) :: s.hostQueue := rfl

/-- A step on words that decode is their command, begun without the event. -/
theorem step_eq_exec {s : State} {words : List Word} {rest : List HostEvent} {i : Instr}
    (hq : s.hostQueue = .command words :: rest) (hd : decode words = .instr i) :
    step s = exec i { s with hostQueue := rest } :=
  (step_eq_runCommand hq).trans (runCommand_eq_exec hd _)

/-- Settles O8: a step takes the event and runs its words; the event `withFetchWord` adds is the one taken, which
leaves the state before it. -/
theorem stepRunsTheDecodedCommand : Obligations.StepRunsTheDecodedCommand :=
  ⟨fun _ _ _ _ hq hd => step_eq_exec hq hd,
    fun s nbits w _ h => step_eq_exec (State.withFetchWord_hostQueue s nbits w) (decodeTableWord_eq_some_iff.mp h)⟩

end Sys2Proof.Machine

/-! PROOFS. How a command can end, and what no command but INIT and NEWSESSION writes (spec/10_state.md R21 to R44,
60_exceptions.md R273, R274, R276). -/

namespace Sys2Proof.Machine

open Sys2Proof.Safety

/-- How the command `i`, begun in `s`, has ended when its next state is `t`. -/
inductive CommandEnd (P : Platform) (s t : State) : Instr → Prop
  /-- R273, R88: a refusal, or the answer of a query, which feeds nothing: only the response and the trace change. -/
  | responded {i : Instr} (r : Response) (hfed : r.rstat = .ok → ∀ fed, fedAfter i s fed = fed)
      (ht : t = { s with response := r, requests := [] }) : CommandEnd P s t i
  /-- R274: an error found by a check of FEEDMSG or FINALIZE. -/
  | failed {i : Instr} (st : Status) (ht : t = raiseError st (begin s)) : CommandEnd P s t i
  /-- R274: an error of INIT. -/
  | initFailed {k e : Bool} {tagLenBits : BitVec 16} {keyOff keyLen nonceOff nonceLen aadOff aadLen : Word}
      (st : Status) (hst : st ≠ .ok) (ht : t = raiseInitError st k (begin s)) :
      CommandEnd P s t (.init k e tagLenBits keyOff keyLen nonceOff nonceLen aadOff aadLen)
  /-- R221: NEWSESSION, whether the straps agree or not. -/
  | opened (phase : Phase) (r : Response) (hp : phase = .noSession ∨ phase = .uninit)
      (ht : t = { zeroize s with phase := phase, response := r }) : CommandEnd P s t .newsession
  /-- R222: INIT, its checks passed. -/
  | started {k e : Bool} {tagLenBits : BitVec 16} {keyOff keyLen nonceOff nonceLen aadOff aadLen : Word}
      (hkeyed : k = true ∨ s.keyed = true) (h32 : 32 ≤ tagLenBits.toNat) (h256 : tagLenBits.toNat ≤ 256)
      (hlen : k = true → P.keyLenOk keyLen.toNat = true)
      (ht : t = respond 0 [] (startSession P e tagLenBits (if k then some (inputBytes s keyOff keyLen) else none)
        (inputBytes s nonceOff nonceLen) (inputBytes s aadOff aadLen) (begin s))) :
      CommandEnd P s t (.init k e tagLenBits keyOff keyLen nonceOff nonceLen aadOff aadLen)
  /-- R150: FEEDAAD, its bytes absorbed. -/
  | aadFed {inOff len : Word} (h : feedAadOn P inOff len s = .next t) (hr : t.response.rstat = .ok) :
      CommandEnd P s t (.feedaad inOff len)
  /-- R170: FEEDMSG, its bytes fed. -/
  | msgFed {inOff len outOff outLen : Word} (h : feedMsgOn P inOff len outOff outLen s = .next t)
      (hr : t.response.rstat = .ok) : CommandEnd P s t (.feedmsg inOff len outOff outLen)
  /-- R190: FINALIZE, its checks passed; the tags may still differ. -/
  | closed {outOff outLen : Word} (hp : s.phase = .ready) (hout : outLen.toNat ≤ P.obufSize.val)
      (htag : s.tagLen.toNat ≤ 16) (hd : dataTooShort s = false)
      (hroom : outOff.toNat + finsize s 0 ≤ outLen.toNat) (ht : t = closeMessage P outOff.toNat (begin s)) :
      CommandEnd P s t (.finalize outOff outLen)
  /-- R226: RESET, accepted. -/
  | replayed (hp : s.phase = .ready ∨ s.phase = .final ∨ (s.phase = .error ∧ s.inited = true))
      (ht : t = respond 0 [] { resetProcedure P false (begin s) with phase := .ready }) : CommandEnd P s t .reset

variable {P : Platform} {i : Instr} {s t : State}

/-- R273: a refusal is an end of any command. -/
theorem CommandEnd.refused (P : Platform) (i : Instr) (s : State) {st : Status} (hst : st ≠ .ok) :
    CommandEnd P s { s with response := bareResponse st, requests := [] } i :=
  .responded (bareResponse st) (fun h => absurd h hst) rfl

/-- A command that has a next state has ended in one of the ways of `CommandEnd`. -/
theorem commandEnd_of_execOn (h : execOn P i s = .next t) : CommandEnd P s t i := by
  cases i <;> simp only [execOn] at h
  case newsession =>
    rw [newSessionOn_eq] at h
    split at h <;> cases h
    · exact .opened .uninit _ (.inr rfl) rfl
    · exact .opened .noSession _ (.inl rfl) rfl
  case init =>
    rw [initOn_eq] at h
    split at h
    · cases h; exact .refused P _ s (by decide)
    split at h
    · cases h; exact .refused P _ s (by decide)
    split at h
    · cases h; exact .initFailed .invalidTagLength (by decide) rfl
    split at h
    · cases h; exact .initFailed .invalidNonce (by decide) rfl
    split at h
    · cases h; exact .refused P _ s (by decide)
    split at h
    · cases h; exact .refused P _ s (by decide)
    · rename_i _ hallowed htag _ _ hlen
      cases h
      obtain ⟨-, hkeyed⟩ := not_not.mp hallowed
      obtain ⟨h32, h256, -⟩ := not_not.mp htag
      exact .started hkeyed h32 h256 (not_not.mp hlen) rfl
  case feedaad =>
    have h' := h
    rw [feedAadOn_eq] at h
    split at h
    · cases h; exact .refused P _ s (by decide)
    split at h
    · cases h; exact .refused P _ s (by decide)
    split at h
    · cases h
    · cases h; exact .aadFed h' rfl
  case feedmsg =>
    have h' := h
    rw [feedMsgOn_eq] at h
    split at h
    · cases h; exact .refused P _ s (by decide)
    split at h
    · cases h; exact .refused P _ s (by decide)
    split at h
    · cases h; exact .failed .bufferTooSmall rfl
    split at h
    · cases h
    · cases h; exact .msgFed h' rfl
  case updsize =>
    rw [execUpdsize_eq] at h
    split at h <;> cases h
    · exact .responded _ (fun _ _ => rfl) rfl
    · exact .refused P _ s (by decide)
  case finsize =>
    rw [execFinsize_eq] at h
    split at h <;> cases h
    · exact .responded _ (fun _ _ => rfl) rfl
    · exact .refused P _ s (by decide)
  case finalize =>
    rw [finalizeOn_eq] at h
    split at h
    · cases h; exact .refused P _ s (by decide)
    split at h
    · cases h; exact .refused P _ s (by decide)
    split at h
    · cases h; exact .refused P _ s (by decide)
    split at h
    · cases h; exact .failed .dataTooShort rfl
    split at h
    · cases h; exact .failed .bufferTooSmall rfl
    · rename_i hp hout htag hd hroom
      cases h
      exact .closed (not_not.mp hp) (not_not.mp hout) (Nat.le_of_not_lt htag) (by simpa using hd) (not_not.mp hroom) rfl
  case reset =>
    rw [resetOn_eq] at h
    split at h <;> cases h
    · exact .replayed ‹_› rfl
    · exact .refused P _ s (by decide)
  case mac =>
    rw [execMac_eq] at h
    split at h
    · cases h; exact .refused P _ s (by decide)
    split at h <;> cases h
    · exact .refused P _ s (by decide)
    · exact .responded _ (fun _ _ => rfl) rfl
  case algid =>
    rw [algIdOn_eq] at h
    split at h <;> cases h
    · exact .refused P _ s (by decide)
    · exact .responded _ (fun _ _ => rfl) rfl

/-! What no command but INIT and NEWSESSION writes. -/

/-- `t` is `s` but for the phase, the two flags, the lanes, the tag, the response, OBUF, the trace and the draws; the
ladder may have grown. -/
structure SessionKept (s t : State) : Prop where
  frame : t = { s with
    phase := t.phase, inited := t.inited, keyed := t.keyed, ladder := t.ladder
    hashLane := t.hashLane, mainLane := t.mainLane, macBlock := t.macBlock, macLen := t.macLen
    response := t.response, obuf := t.obuf, requests := t.requests, draws := t.draws }
  grown : s.ladder <+: t.ladder

theorem sessionKept_trans {s t u : State} (h : SessionKept s t) (h' : SessionKept t u) : SessionKept s u :=
  ⟨by rw [h'.frame, h.frame], h.grown.trans h'.grown⟩

/-- R153: the hash lane's byte loop keeps the session. -/
theorem sessionKept_absorb (P : Platform) (bytes : List Byte) (s : State) : SessionKept s (absorb P bytes s) :=
  ⟨by rw [onlyHash_absorb P bytes s], prefix_absorb P bytes s⟩

/-- R170: the crypt lane's byte loop keeps the session. -/
theorem sessionKept_feedMain (P : Platform) (outOff : Nat) (bytes : List Byte) (w : Nat) (s : State) :
    SessionKept s (feedMain P outOff bytes w s).2 := by
  obtain ⟨ho, hg⟩ := onlyMain_feedMain P outOff bytes w s
  exact ⟨by rw [ho], hg⟩

/-- R225: the reset procedure keeps the session it rebuilds the lanes of. -/
theorem sessionKept_resetProcedure (P : Platform) (m : Bool) (s : State) : SessionKept s (resetProcedure P m s) :=
  sessionKept_trans (t := clearLanes m s) ⟨rfl, List.prefix_refl _⟩ (sessionKept_absorb P _ _)

/-- R190: FINALIZE keeps the session, whether the tags agree or not. -/
theorem sessionKept_closeMessage (P : Platform) (outOff : Nat) (s : State) :
    SessionKept s (closeMessage P outOff s) := by
  rcases closeMessage_cases P outOff s with ⟨-, out, requests, h⟩ | ⟨w, out, mac, len, requests, hash, ladder, hg, h⟩
  · rw [h]; exact ⟨rfl, List.prefix_refl _⟩
  · rw [h]; exact ⟨rfl, hg⟩

/-- Every command keeps the session but NEWSESSION, which forgets the keys, and an INIT that ends OK. -/
theorem sessionKept_or_replaced (h : CommandEnd P s t i) :
    SessionKept s t ∨ (i = .newsession ∧ t.hpKey = none ∧ t.mpKey = none) ∨
    ∃ k e tagLenBits keyOff keyLen nonceOff nonceLen aadOff aadLen,
      i = .init k e tagLenBits keyOff keyLen nonceOff nonceLen aadOff aadLen ∧
      (k = true → P.keyLenOk keyLen.toNat = true) ∧
      t = respond 0 [] (startSession P e tagLenBits (if k then some (inputBytes s keyOff keyLen) else none)
        (inputBytes s nonceOff nonceLen) (inputBytes s aadOff aadLen) (begin s)) := by
  have hbegin : SessionKept s (begin s) := ⟨rfl, List.prefix_refl _⟩
  cases h with
  | responded r _ ht => subst ht; exact .inl ⟨rfl, List.prefix_refl _⟩
  | failed st ht => subst ht; exact .inl ⟨rfl, List.prefix_refl _⟩
  | initFailed st _ ht => subst ht; exact .inl ⟨rfl, List.prefix_refl _⟩
  | opened phase r _ ht => subst ht; exact .inr (.inl ⟨rfl, rfl, rfl⟩)
  | started _ _ _ hlen ht => exact .inr (.inr ⟨_, _, _, _, _, _, _, _, _, rfl, hlen, ht⟩)
  | aadFed h hr =>
    obtain ⟨-, -, -, ht⟩ := feedAad_ok h hr
    subst ht
    exact .inl (sessionKept_trans hbegin (sessionKept_trans (sessionKept_absorb P _ _) ⟨rfl, List.prefix_refl _⟩))
  | msgFed h hr =>
    obtain ⟨-, -, -, -, -, ht⟩ := feedMsg_ok h hr
    subst ht
    exact .inl (sessionKept_trans hbegin (sessionKept_trans (sessionKept_feedMain P _ _ _ _) ⟨rfl, List.prefix_refl _⟩))
  | closed _ _ _ _ _ ht =>
    subst ht
    exact .inl (sessionKept_trans hbegin (sessionKept_closeMessage P _ _))
  | replayed _ ht =>
    subst ht
    exact .inl (sessionKept_trans hbegin
      (sessionKept_trans (sessionKept_resetProcedure P false _) ⟨rfl, List.prefix_refl _⟩))

/-- R44: a command that is no INIT and no NEWSESSION keeps the session. -/
theorem sessionKept_of_commandEnd (h : CommandEnd P s t i) (hi : changesSession i = false) : SessionKept s t := by
  rcases sessionKept_or_replaced h with hk | ⟨rfl, -⟩ | ⟨k, e, bits, ko, kl, no, nl, ao, al, rfl, -⟩
  · exact hk
  · cases hi
  · cases hi

/-- Settles O19: what is kept of the session is all these registers. -/
theorem sessionParametersAreFixedAtInit : Obligations.SessionParametersAreFixedAtInit := by
  intro i s t h
  rw [exec_eq_execOn] at h
  rcases sessionKept_or_replaced (commandEnd_of_execOn h) with
    hk | ⟨hi, -⟩ | ⟨k, e, bits, keyOff, keyLen, nonceOff, nonceLen, aadOff, aadLen, hi, -, ht⟩
  · rw [hk.frame]
    exact .inl ⟨rfl, rfl, rfl, rfl, rfl, rfl, rfl, rfl⟩
  · exact .inr (.inl hi)
  · subst hi ht
    exact .inr (.inr ⟨rfl, rfl⟩)

/-! The key state (R40). -/

/-- R223: an INIT with `K = 0` keeps the keys, what was made from them, and every ladder entry. -/
theorem startSession_keeps_keys (P : Platform) (e : Bool) (tagLenBits : BitVec 16) (nonce aad : List Byte) (s : State) :
    let t := startSession P e tagLenBits none nonce aad s
    t.hpKey = s.hpKey ∧ t.mpKey = s.mpKey ∧ t.lStar = s.lStar ∧ t.lDollar = s.lDollar ∧ s.ladder <+: t.ladder := by
  intro t
  have hf : t = _ := startSession_frame P e tagLenBits none nonce aad s
  refine ⟨by rw [hf]; rfl, by rw [hf]; rfl, by rw [hf]; rfl, by rw [hf]; rfl, ?_⟩
  have hn : (noncedState P e tagLenBits none nonce aad s).ladder = s.ladder := by
    rw [onlyNonce_noncedState]; rfl
  rw [hf, ← hn]
  exact (sessionKept_resetProcedure P false _).grown

/-- R223: an INIT with `K = 1` loads its key into `HP` and `MP`. -/
theorem startSession_loads_key (P : Platform) (e : Bool) (tagLenBits : BitVec 16) (key : Key) (nonce aad : List Byte)
    (s : State) :
    (startSession P e tagLenBits (some key) nonce aad s).hpKey = some key ∧
    (startSession P e tagLenBits (some key) nonce aad s).mpKey = some key := by
  rw [startSession_frame]
  exact ⟨rfl, rfl⟩

/-- Settles O20: the session's frame, and for INIT the two cases of `K`. -/
theorem keyStateIsFixedAtInit : Obligations.KeyStateIsFixedAtInit := by
  intro i s t h
  rw [exec_eq_execOn] at h
  rcases sessionKept_or_replaced (commandEnd_of_execOn h) with
    hk | ⟨hi, -⟩ | ⟨k, e, bits, keyOff, keyLen, nonceOff, nonceLen, aadOff, aadLen, hi, -, ht⟩
  · refine .inl ⟨?_, ?_, ?_, ?_, hk.grown⟩ <;> rw [hk.frame]
  · exact .inr (.inl hi)
  · subst hi ht
    cases k with
    | false => exact .inl (startSession_keeps_keys _ e bits _ _ (begin s))
    | true => exact .inr (.inr ⟨⟨e, bits, keyOff, keyLen, nonceOff, nonceLen, aadOff, aadLen, rfl⟩, rfl⟩)

/-- R272: the keys a command leaves are accepted: those it found, none, or the one it has just checked. -/
theorem keyAccepted_of_commandEnd (h : CommandEnd P s t i) (hs : KeyAccepted P s) : KeyAccepted P t := by
  rcases sessionKept_or_replaced h with
    hk | ⟨-, hh, hm⟩ | ⟨k, e, bits, keyOff, keyLen, nonceOff, nonceLen, aadOff, aadLen, -, hlen, ht⟩
  · rw [hk.frame]
    exact hs
  · rw [KeyAccepted, hh, hm]
    exact fun key hkey => absurd hkey (by simp)
  · subst ht
    cases k with
    | false =>
      obtain ⟨hh, hm, -⟩ := startSession_keeps_keys P e bits (inputBytes s nonceOff nonceLen)
        (inputBytes s aadOff aadLen) (begin s)
      intro key hkey
      exact hs key (hkey.imp hh.symm.trans hm.symm.trans)
    | true =>
      obtain ⟨hh, hm⟩ := startSession_loads_key P e bits (inputBytes s keyOff keyLen) (inputBytes s nonceOff nonceLen)
        (inputBytes s aadOff aadLen) (begin s)
      intro key hkey
      obtain rfl : inputBytes s keyOff keyLen = key :=
        hkey.elim (fun hk => Option.some.inj (hh.symm.trans hk)) (fun hk => Option.some.inj (hm.symm.trans hk))
      rw [inputBytes_length]
      exact hlen rfl

end Sys2Proof.Machine

/-! PROOFS. How a step can end, the keys it leaves (spec/10_state.md R40), and the tail window of Decrypt mode
(43_crypt_lane.md R173). -/

namespace Sys2Proof.Machine

open Sys2Proof.Safety

/-! One step (R9, R300, R323). -/

/-- How a step ends. `s` with its first event taken is written out where the event acts on it. -/
inductive StepEnd (s t : State) : Prop
  /-- R323: no event. -/
  | idle (hq : s.hostQueue = []) (ht : t = s)
  /-- R9: a command. -/
  | commanded {words : List Word} {rest : List HostEvent} {i : Instr} (hq : s.hostQueue = .command words :: rest)
      (hd : decode words = .instr i) (he : CommandEnd Config.platform { s with hostQueue := rest } t i)
  /-- R267: a transaction that is refused with IllegalCommand. -/
  | notDecoded {words : List Word} {rest : List HostEvent} {why : Reject} (hq : s.hostQueue = .command words :: rest)
      (hd : decode words = .reject why) (ht : t = illegalCommand { s with hostQueue := rest })
  /-- R60: a byte into IBUF. -/
  | wroteIbuf {addr : Word} {byte : Byte} {rest : List HostEvent} (hq : s.hostQueue = .writeIbuf addr byte :: rest)
      (ha : addr.toNat < Config.platform.ibufSize.val)
      (ht : t = { s with hostQueue := rest, ibuf := s.ibuf.set addr.toNat byte })
  /-- R60: a byte into OBUF. -/
  | wroteObuf {addr : Word} {byte : Byte} {rest : List HostEvent} (hq : s.hostQueue = .writeObuf addr byte :: rest)
      (ha : addr.toNat < Config.platform.obufSize.val)
      (ht : t = { s with hostQueue := rest, obuf := s.obuf.set addr.toNat byte })
  /-- R300: hardware reset, between commands or during one whose output it cuts short. -/
  | zeroized {rest : List HostEvent} (obuf : Memory) (requests : List PermRequest) (draws : Nat)
      (hob : obuf = s.obuf ∨ ∃ i u off n, CommandEnd Config.platform { s with hostQueue := rest } u i ∧
        obuf = Memory.upTo s.obuf u.obuf off n)
      (ht : t = { hardwareReset { s with hostQueue := rest } with obuf := obuf, requests := requests, draws := draws })

variable {P : Platform} {i : Instr} {s t : State}

/-- R300: a step on a reset during a command. -/
theorem stepEnd_abandonCommand (s : State) (words : List Word) (made written : Nat) (rest : List HostEvent) :
    StepEnd s (abandonCommand exec words made written { s with hostQueue := rest }) := by
  rcases abandonCommand_cases exec words made written { s with hostQueue := rest } with
    h | ⟨i, j, u, -, -, hu, h⟩
  · exact .zeroized (rest := rest) s.obuf [] s.draws (.inl rfl) h
  · rw [exec_eq_execOn] at hu
    exact .zeroized (rest := rest) _ _ _ (.inr ⟨j, u, _, _, commandEnd_of_execOn hu, rfl⟩) h

/-- A step that has a next state has ended in one of the ways of `StepEnd`. -/
theorem stepEnd_of_step (h : step s = .next t) : StepEnd s t := by
  cases hq : s.hostQueue with
  | nil =>
    rw [step, takeEvent, hq] at h
    cases h
    exact .idle hq rfl
  | cons e rest =>
    rw [step, takeEvent_eq_some hq] at h
    cases e with
    | command words =>
      cases hd : decode words with
      | instr i =>
        simp only [runCommand_eq_exec hd, exec_eq_execOn] at h
        exact .commanded hq hd (commandEnd_of_execOn h)
      | reject why =>
        simp only [runCommand, hd] at h
        cases why <;> cases h <;> exact .notDecoded hq hd rfl
    | writeIbuf addr byte =>
      simp only [hostWriteIbuf] at h
      split at h <;> cases h
      exact .wroteIbuf hq ‹_› rfl
    | writeObuf addr byte =>
      simp only [hostWriteObuf] at h
      split at h <;> cases h
      exact .wroteObuf hq ‹_› rfl
    | hardwareReset =>
      cases h
      exact .zeroized (rest := rest) s.obuf [] s.draws (.inl rfl) rfl
    | resetDuring words made written =>
      cases h
      exact stepEnd_abandonCommand s words made written rest

/-- Settles O54: of the host's events only a command or a reset touches a key, and a reset forgets both. -/
theorem stepKeepsKeysAccepted : Obligations.StepKeepsKeysAccepted := by
  intro s t hs h
  cases stepEnd_of_step h with
  | idle _ ht => exact ht ▸ hs
  | commanded _ _ he => exact keyAccepted_of_commandEnd he hs
  | notDecoded _ _ ht => subst ht; exact hs
  | wroteIbuf _ _ ht => subst ht; exact hs
  | wroteObuf _ _ ht => subst ht; exact hs
  | zeroized _ _ _ _ ht => subst ht; exact fun key hkey => hkey.elim (nomatch ·) (nomatch ·)

/-! The tail window (R41, R173). -/

/-- R173: where a lane of Decrypt mode stands once `msg` has been fed. -/
theorem position_of_holds {A : Block → Block} {lD start : Block} {tagLen : Nat} {msg : List Byte} {m : MainLane}
    (h : MainLaneHolds A lD start .decrypt tagLen msg m) :
    (msg.length < 16 + tagLen →
      m.mainPos.toNat = msg.length ∧ m.mainCount.toNat = 0 ∧ slice m.mainBuf 0 msg.length = msg) ∧
    (16 + tagLen ≤ msg.length →
      m.mainPos.toNat = tagLen + (msg.length - tagLen) % 16 ∧ m.mainCount.toNat = (msg.length - tagLen) / 16 ∧
      slice m.mainBuf 0 m.mainPos.toNat = msg.drop (msg.length - m.mainPos.toNat)) := by
  obtain ⟨hpos, hcount, -, -, hbuf⟩ := h
  simp only [fedBlocks] at hpos hcount hbuf
  constructor
  · intro hlt
    have h0 : (msg.length - tagLen) / 16 = 0 := by omega
    rw [h0, Nat.mul_zero] at hpos hbuf
    rw [hpos, List.drop_zero, Nat.sub_zero] at hbuf
    exact ⟨hpos, hcount.trans h0, hbuf⟩
  · intro hle
    refine ⟨by omega, hcount, ?_⟩
    rw [hbuf]
    congr 1
    omega

/-- Settles O38: R173 for the string the lane holds after FEEDMSG. -/
theorem tailWindow : Obligations.TailWindow := by
  intro P inOff len outOff outLen msg s t hs hp hm hholds h hr fed n tagLen
  obtain ⟨-, -, -, htag⟩ := feedMsg_position hs h hr
  have hafter := feedMsg_holds hs hholds h hr
  rw [hm] at hafter
  have hn : fed.length = n := by simp [fed, n]
  obtain ⟨hshort, hlong⟩ := position_of_holds hafter
  have htail := tail_of_holds hafter
  rw [← hn]
  exact ⟨fun hP => by rw [exec_eq_execOn, ← hP]; exact h, htag, hshort, hlong, htail⟩

/-! Hardware reset (R48, R300). -/

/-- Settles O11: the reset state is written out with these values. -/
theorem resetStateValues : Obligations.ResetStateValues := by
  simp [Obligations.ResetStateValues, State.reset, HashLane.zero, MainLane.zero, Response.zero, State.ladderLen,
    Phase.code, Mode.code, Status.code]

end Sys2Proof.Machine

/-! PROOFS. The invariant (spec/10_state.md R41 to R43, 20_memory.md R60) and what the lanes hold (10_state.md R41,
42_hash_lane.md R154, 43_crypt_lane.md R173): a command keeps them, and so does a step. -/

namespace Sys2Proof.Machine

open Sys2Proof.Safety

variable {P : Platform} {i : Instr} {s t : State}

/-! The invariant taken apart: the ladder, the key state, the phase. -/

/-- R27, R115, R116: the ladder's entries are the closed form, and there are at most 64. -/
def LadderFits (s : State) : Prop := LadderOk s.lDollar s.ladder ∧ s.ladder.length ≤ 64

/-- The part of the invariant that speaks of the keys and of what was made from them. -/
structure KeysOk (P : Platform) (s : State) : Prop where
  sameKey : s.hpKey = s.mpKey
  keyed : s.keyed = true → KeyedOk P s
  ktop : s.ktopValid = true → KtopOk P s
  ladder : LadderFits s

/-- The part of the invariant that speaks of the phase, for a state that NEWSESSION or a reset has not just left. -/
inductive MessagePhase (s : State) : Prop
  | error (hp : s.phase = .error) (hm : s.macLen = 0)
  | ready (hp : s.phase = .ready) (hi : s.inited = true) (hl : LanesOk s) (hm : s.macLen = 0)
  | final (hp : s.phase = .final) (hi : s.inited = true) (hl : LanesOk s) (hm : s.macLen = s.tagLen)
    (ht : s.tagLen.toNat ≤ 16)

theorem keysOk_of_sessionOk (h : SessionOk P s) : KeysOk P s := ⟨h.sameKey, h.keyed, h.ktop, h.ladder, h.ladderLen⟩

theorem ladderFits_of_sessionOk (h : SessionOk P s) : LadderFits s := ⟨h.ladder, h.ladderLen⟩

/-- R22: the tag length of a session that takes feeds. -/
theorem tagLen_le_of_ready (h : SessionOk P s) (hp : s.phase = .ready) : s.tagLen.toNat ≤ 32 := by
  obtain ⟨hin, -⟩ := h.ready hp
  obtain ⟨-, -, h32, -⟩ := h.inited hin
  exact h32

theorem sessionOk_of_parts (hk : KeysOk P s)
    (hi : s.inited = true →
      s.keyed = true ∧ 4 ≤ s.tagLen.toNat ∧ s.tagLen.toNat ≤ 32 ∧ s.initAADLen.toNat ≤ s.initAAD.length)
    (hm : MessagePhase s) : SessionOk P s := by
  have other : ∀ {p q : Phase} {C : Prop}, s.phase = p → p ≠ q → s.phase = q → C :=
    fun hp hne hq => absurd (hp.symm.trans hq) hne
  obtain ⟨hsame, hkeyed, hktop, hladder, hlen⟩ := hk
  cases hm with
  | error hp hm =>
    exact ⟨hsame, hkeyed, hktop, hladder, hlen, hi, other hp (by decide), other hp (by decide), other hp (by decide),
      other hp (by decide), fun _ => hm⟩
  | ready hp hin hl hm =>
    exact ⟨hsame, hkeyed, hktop, hladder, hlen, hi, other hp (by decide), other hp (by decide), fun _ => ⟨hin, hl⟩,
      other hp (by decide), fun _ => hm⟩
  | final hp hin hl hm ht =>
    exact ⟨hsame, hkeyed, hktop, hladder, hlen, hi, other hp (by decide), other hp (by decide), other hp (by decide),
      fun _ => ⟨hin, hl, hm, ht⟩, fun hne => absurd hp hne⟩

/-- A session that is kept keeps its keys, as long as the ladder fits and no key is claimed that was not there. -/
theorem keysOk_of_kept (hs : KeysOk P s) (hk : SessionKept s t) (hl : LadderFits t)
    (hkeyed : t.keyed = true → s.keyed = true) : KeysOk P t := by
  refine ⟨?_, fun h => ?_, fun h => ?_, hl⟩
  · rw [hk.frame]; exact hs.sameKey
  · have := hs.keyed (hkeyed h)
    rw [hk.frame]; exact this
  · have h' : s.ktopValid = true := by rw [hk.frame] at h; exact h
    have := hs.ktop h'
    rw [hk.frame]; exact this

/-- A command that keeps the session keeps its invariant, once its ladder, its flags and its phase are right. -/
theorem sessionOk_of_kept (hs : SessionOk P s) (hk : SessionKept s t) (hl : LadderFits t)
    (hkeyed : t.keyed = true → s.keyed = true)
    (hi : t.inited = true → s.inited = true ∧ t.keyed = s.keyed) (hm : MessagePhase t) : SessionOk P t := by
  refine sessionOk_of_parts (keysOk_of_kept (keysOk_of_sessionOk hs) hk hl hkeyed) (fun h => ?_) hm
  obtain ⟨h1, h2⟩ := hi h
  have := hs.inited h1
  rw [h2, hk.frame]
  exact this

/-- What the lanes' bounds depend on. -/
theorem lanesOk_congr (h : LanesOk s) (h1 : t.hashLane = s.hashLane) (h2 : t.mainLane = s.mainLane)
    (h3 : t.ladder = s.ladder) (h4 : t.mode = s.mode) (h5 : t.tagLen = s.tagLen) : LanesOk t := by
  obtain ⟨hash, main, hashLadder, mainLadder⟩ := h
  rw [mainBufLen_eq, ← h4, ← h5, ← mainBufLen_eq] at main
  exact ⟨by rw [h1]; exact hash, by rw [h2]; exact main, by rw [h1, h3]; exact hashLadder,
    by rw [h2, h3]; exact mainLadder⟩

/-- The session's invariant says nothing of the response, the buffer spaces, the trace and the host's queue. -/
theorem sessionOk_withPorts (h : SessionOk P s) (r : Response) (ibuf obuf : Memory) (requests : List PermRequest)
    (q : List HostEvent) :
    SessionOk P { s with response := r, ibuf := ibuf, obuf := obuf, requests := requests, hostQueue := q } := by
  obtain ⟨h1, h2, h3, h4, h5, h6, h7, h8, hready, hfinal, h11⟩ := h
  have lanes : ∀ {s : State}, LanesOk s →
      LanesOk { s with response := r, ibuf := ibuf, obuf := obuf, requests := requests, hostQueue := q } :=
    fun h => lanesOk_congr h rfl rfl rfl rfl rfl
  exact ⟨h1, h2, h3, h4, h5, h6, h7, h8, fun hp => (hready hp).imp id lanes,
    fun hp => (hfinal hp).imp id (And.imp lanes id), h11⟩

/-- R41 to R43 after hardware reset, or after NEWSESSION: nothing is keyed and nothing is initialised. -/
theorem sessionOk_zeroize (P : Platform) (s : State) {phase : Phase} (hp : phase = .noSession ∨ phase = .uninit)
    (r : Response) (obuf : Memory) (requests : List PermRequest) (draws : Nat) :
    SessionOk P { zeroize s with
      phase := phase, response := r, obuf := obuf, requests := requests, draws := draws } := by
  refine ⟨rfl, nofun, nofun, ladderOk_nil _, Nat.zero_le 64, nofun, fun _ => ⟨rfl, rfl, rfl⟩, fun _ => ⟨rfl, rfl⟩,
    fun h => ?_, fun h => ?_, fun _ => rfl⟩ <;>
  · change phase = _ at h
    rcases hp with rfl | rfl <;> cases h

/-- Settles O52: the reset state is the zeroized one, and its buffer spaces list nothing. -/
theorem resetMeetsTheInvariant : Obligations.ResetMeetsTheInvariant := fun P =>
  ⟨sessionOk_zeroize P State.reset (.inl rfl) Response.zero [] [] 0, rfl, rfl, rfl, rfl⟩

/-! The parts of a command. -/

/-- R225: the reset procedure leaves a ladder that fits. -/
theorem ladderFits_resetProcedure (m : Bool) (h : LadderFits s) : LadderFits (resetProcedure P m s) := by
  obtain ⟨hl, h64⟩ := h
  refine ⟨?_, (hashCounts_resetProcedure P m s).short h64⟩
  rw [onlyHash_lDollar (onlyHash_resetProcedure P m s)]
  exact ladderOk_absorb P _ (s := clearLanes m s) hl

/-- R41, R42: FEEDAAD's bytes leave the lanes in their bounds and the ladder long enough. -/
theorem absorb_bounds {bytes : List Byte} (hl : LanesOk s) (hf : LadderFits s)
    (hw : s.hashLane.hashCount.toNat + (s.hashLane.hashPos.toNat + bytes.length) / 16 < 2 ^ 64) :
    LanesOk (absorb P bytes s) ∧ LadderFits (absorb P bytes s) := by
  have ho := onlyHash_absorb P bytes s
  have hc := hashCounts_absorb P bytes hl.hashPos hw
  refine ⟨⟨?_, ?_, hc.ladder hl.hashLadder, ?_⟩, ?_, hc.short hf.2⟩
  · rw [hc.pos]; exact Nat.mod_lt _ (by decide)
  · rw [mainBufLen_eq, onlyHash_mode ho, onlyHash_tagLen ho, onlyHash_mainLane ho, ← mainBufLen_eq]
    exact hl.mainPos
  · rw [onlyHash_mainLane ho]
    exact Nat.lt_of_lt_of_le hl.mainLadder (Nat.pow_le_pow_right (by decide) hc.grown.length_le)
  · rw [onlyHash_lDollar ho]
    exact ladderOk_absorb P bytes hf.1

/-- R41, R42: so do FEEDMSG's. -/
theorem feedMain_bounds {bytes : List Byte} (outOff w : Nat) (hl : LanesOk s) (hf : LadderFits s)
    (ht : s.tagLen.toNat ≤ 32) (hw : s.mainLane.mainCount.toNat + blocksDone s bytes.length < 2 ^ 64) :
    LanesOk (feedMain P outOff bytes w s).2 ∧ LadderFits (feedMain P outOff bytes w s).2 := by
  have hc := mainCounts_feedMain P outOff bytes w ht hl.mainPos hw
  have hlad := (feedMain_spec P outOff bytes w hf.1).2.1
  refine ⟨⟨?_, ?_, ?_, hc.ladder hl.mainLadder⟩, ?_, hc.short hf.2⟩
  · rw [onlyMain_hashLane hc.only]; exact hl.hashPos
  · have := le_mainBufLen s
    rw [onlyMain_mainBufLen hc.only, hc.pos, blocksDone]
    omega
  · rw [onlyMain_hashLane hc.only]
    exact Nat.lt_of_lt_of_le hl.hashLadder (Nat.pow_le_pow_right (by decide) hc.grown.length_le)
  · rw [onlyMain_lDollar hc.only]; exact hlad

/-! INIT (R222). -/

/-- R223: the key state INIT goes on with is one that is keyed. -/
theorem keysOk_keyedState (hs : KeysOk P s) (e : Bool) (tagLenBits : BitVec 16) {key : Option Key}
    (hkey : key = none → s.keyed = true) :
    KeysOk P (keyedState P e tagLenBits key s) ∧ (keyedState P e tagLenBits key s).keyed = true := by
  cases key with
  | none => exact ⟨⟨hs.sameKey, hs.keyed, hs.ktop, hs.ladder⟩, hkey rfl⟩
  | some k =>
    rw [keyedState, rekey_eq]
    exact ⟨⟨rfl, fun _ => ⟨k, rfl, rfl, rfl⟩, nofun, ladderOk_nil _, Nat.zero_le 64⟩, rfl⟩

/-- R43, R137: the nonce expander leaves a cache of the session's key. -/
theorem keysOk_nonceExpander (nonce : List Byte) (hs : KeysOk P s) (hk : s.keyed = true) :
    KeysOk P (nonceExpander P nonce s) := by
  have ho := onlyNonce_nonceExpander P nonce s
  obtain ⟨hstretch, hinput, -⟩ : (nonceExpander P nonce s).stretch = _ ∧ (nonceExpander P nonce s).ktopInput = _ ∧ _ :=
    fillKtop_stretch hs.ktop (maskBottom (formatNonce P s.tagLen.toNat nonce))
  obtain ⟨k, hhp, hkeyed⟩ := hs.keyed hk
  have hkey : (nonceExpander P nonce s).hpKey = some k := by rw [ho]; exact hhp
  refine ⟨?_, fun _ => ⟨k, hkey, ?_⟩, fun _ => ⟨k, hkey, ?_⟩, ?_⟩
  · rw [ho]; exact hs.sameKey
  · rw [ho]; exact hkeyed
  · rw [hstretch, hinput, hhp]; rfl
  · rw [ho]; exact hs.ladder

/-- R38: the retained AAD is no part of the key state. -/
theorem keysOk_setInitAAD (bytes : List Byte) (h : KeysOk P s) : KeysOk P (setInitAAD bytes s) :=
  ⟨h.sameKey, h.keyed, h.ktop, h.ladder⟩

/-- R222: the state INIT's reset procedure starts from is that of a keyed session. -/
theorem keysOk_noncedState (hs : KeysOk P s) (e : Bool) (tagLenBits : BitVec 16) {key : Option Key}
    (hkey : key = none → s.keyed = true) (nonce aad : List Byte) :
    KeysOk P (noncedState P e tagLenBits key nonce aad s) ∧
    (noncedState P e tagLenBits key nonce aad s).keyed = true := by
  obtain ⟨hk, hkeyed⟩ := keysOk_keyedState hs e tagLenBits hkey
  refine ⟨keysOk_setInitAAD aad (keysOk_nonceExpander nonce hk hkeyed), ?_⟩
  rw [onlyNonce_noncedState]
  exact hkeyed

/-- R22, R262: the tag length INIT stores is that of its header. -/
theorem keyedState_tagLen (e : Bool) (tagLenBits : BitVec 16) (key : Option Key) (s : State)
    (h : tagLenBits.toNat ≤ 256) : (keyedState P e tagLenBits key s).tagLen.toNat = tagLenBits.toNat / 8 := by
  have : (keyedState P e tagLenBits key s).tagLen = BitVec.ofNat 6 (tagLenBits.toNat / 8) := by cases key <;> rfl
  rw [this, BitVec.toNat_ofNat]
  omega

/-- R222, R225: INIT leaves a session with its invariant. -/
theorem sessionOk_startSession (hs : SessionOk P s) (e : Bool) {tagLenBits : BitVec 16} (h32 : 32 ≤ tagLenBits.toNat)
    (h256 : tagLenBits.toNat ≤ 256) {key : Option Key} (hkey : key = none → s.keyed = true) (nonce aad : List Byte) :
    SessionOk P (startSession P e tagLenBits key nonce aad s) := by
  obtain ⟨hk, hkeyed⟩ := keysOk_noncedState (keysOk_of_sessionOk hs) e tagLenBits hkey nonce aad
  have htag : (noncedState P e tagLenBits key nonce aad s).tagLen.toNat = tagLenBits.toNat / 8 := by
    rw [onlyNonce_noncedState]
    exact keyedState_tagLen e tagLenBits key s h256
  have haad : (noncedState P e tagLenBits key nonce aad s).initAADLen.toNat ≤
      (noncedState P e tagLenBits key nonce aad s).initAAD.length := by
    simp only [noncedState, setInitAAD_initAADLen, setInitAAD_initAAD, BitVec.toNat_ofNat, List.length_append]
    exact Nat.le_trans (Nat.mod_le _ _) (Nat.le_add_right _ _)
  rw [startSession_eq]
  generalize noncedState P e tagLenBits key nonce aad s = v at *
  have ho := onlyHash_resetProcedure P false v
  have hkept := sessionKept_trans (u := { resetProcedure P false v with inited := true, phase := .ready })
    (sessionKept_resetProcedure P false v) ⟨rfl, List.prefix_refl _⟩
  refine sessionOk_of_parts
    (keysOk_of_kept hk hkept (ladderFits_resetProcedure (P := P) false hk.ladder) fun _ => hkeyed) (fun _ => ?_)
    (.ready rfl rfl (lanesOk_congr (lanesOk_resetProcedure P false v) rfl rfl rfl rfl rfl) (onlyHash_macLen ho))
  rw [hkept.frame]
  exact ⟨(onlyHash_keyed ho).trans hkeyed, by simp only [htag]; omega, by simp only [htag]; omega, haad⟩

/-! FINALIZE (R190). -/

/-- R190, R198: FINALIZE, its checks passed, closes the message or is AuthenticationFailed; it has written no more than
`finsize(0)` bytes. -/
theorem closeMessage_ends (outOff : Nat) (hl : s.mainLane.mainPos.toNat < mainBufLen s) (ht : s.tagLen.toNat ≤ 16)
    (hd : dataTooShort s = false) :
    ∃ out : List Byte, out.length = finsize s 0 ∧
      (MessageClosed P s (closeMessage P outOff s) outOff out.length out ∨
        ∃ requests, closeMessage P outOff s =
          { raiseError .authenticationFailed s with obuf := s.obuf.write outOff out, requests := requests }) := by
  have hp : partialLen s < 16 := by
    cases hm : s.mode <;> simp only [mainBufLen, partialLen, hm] at hl ⊢ <;> omega
  have hpart := length_partialOut P hp
  cases hm : s.mode with
  | encrypt =>
    have hlen : (partialOut P s ++ expectedTag P s).length = partialLen s + s.tagLen.toNat := by
      rw [List.length_append, hpart, length_expectedTag P ht]
    refine ⟨partialOut P s ++ expectedTag P s, ?_, .inl ?_⟩
    · simp only [hlen, partialLen, finsize, hm, Nat.add_zero]
    · rw [hlen]; exact closeMessage_encrypt P outOff hm hp ht
  | decrypt =>
    have hge : s.tagLen.toNat ≤ s.mainLane.mainPos.toNat := by simpa [dataTooShort, hm] using hd
    have hfin : partialLen s = finsize s 0 := by simp only [partialLen, finsize, hm, Nat.add_zero]
    by_cases he : expectedTag P s = candidateTag s
    · refine ⟨partialOut P s, hpart.trans hfin, .inl ?_⟩
      rw [hpart]; exact closeMessage_accept P outOff hm hge hp ht he
    · refine ⟨freeWindow s.draws (partialLen s), by rw [← hfin]; simp [freeWindow],
        .inr ⟨_, closeMessage_reject P outOff hm hge hp ht he⟩⟩

/-! The invariant over the operations of a command. -/

theorem sessionOk_begin (hs : SessionOk P s) : SessionOk P (begin s) :=
  sessionOk_withPorts hs s.response s.ibuf s.obuf [] s.hostQueue

theorem sessionOk_respond (hs : SessionOk P s) (val : Nat) (data : List Byte) : SessionOk P (respond val data s) :=
  sessionOk_withPorts hs (okResponse val data) s.ibuf s.obuf s.requests s.hostQueue

/-- R41, R42: a feed keeps the session's invariant, once its lanes and its ladder are in their bounds. -/
theorem sessionOk_of_fed (hs : SessionOk P s) (hp : s.phase = .ready) (hk : SessionKept s t) (hp' : t.phase = s.phase)
    (hi : t.inited = s.inited) (hkeyed : t.keyed = s.keyed) (hm : t.macLen = s.macLen) (hl : LanesOk t)
    (hf : LadderFits t) : SessionOk P t := by
  have hmac : s.macLen = 0 := hs.noMac (by rw [hp]; decide)
  exact sessionOk_of_kept hs hk hf (fun h => by rw [← hkeyed, h]) (fun h => ⟨by rw [← hi, h], hkeyed⟩)
    (.ready (hp'.trans hp) (hi.trans (hs.ready hp).1) hl (hm.trans hmac))

/-- R150: FEEDAAD's bytes. -/
theorem sessionOk_absorb {bytes : List Byte} (hs : SessionOk P s) (hp : s.phase = .ready)
    (hw : s.hashLane.hashCount.toNat + (s.hashLane.hashPos.toNat + bytes.length) / 16 < 2 ^ 64) :
    SessionOk P (absorb P bytes s) := by
  have ho := onlyHash_absorb P bytes s
  obtain ⟨hl, hf⟩ := absorb_bounds (P := P) (hs.ready hp).2 (ladderFits_of_sessionOk hs) hw
  exact sessionOk_of_fed hs hp (sessionKept_absorb P bytes s) (onlyHash_phase ho) (onlyHash_inited ho)
    (onlyHash_keyed ho) (onlyHash_macLen ho) hl hf

/-- R170: FEEDMSG's bytes. -/
theorem sessionOk_feedMain {bytes : List Byte} (outOff w : Nat) (hs : SessionOk P s) (hp : s.phase = .ready)
    (hw : s.mainLane.mainCount.toNat + blocksDone s bytes.length < 2 ^ 64) :
    SessionOk P (feedMain P outOff bytes w s).2 := by
  obtain ⟨ho, -⟩ := onlyMain_feedMain P outOff bytes w s
  obtain ⟨hl, hf⟩ := feedMain_bounds (P := P) outOff w (hs.ready hp).2 (ladderFits_of_sessionOk hs)
    (tagLen_le_of_ready hs hp) hw
  exact sessionOk_of_fed hs hp (sessionKept_feedMain P outOff bytes w s) (onlyMain_phase ho) (onlyMain_inited ho)
    (onlyMain_keyed ho) (onlyMain_macLen ho) hl hf

/-- R199, R201: FINALIZE, whether the tags agree or not. -/
theorem sessionOk_closeMessage (outOff : Nat) (hs : SessionOk P s) (hp : s.phase = .ready) (ht : s.tagLen.toNat ≤ 16)
    (hd : dataTooShort s = false) : SessionOk P (closeMessage P outOff s) := by
  obtain ⟨hin, hlanes⟩ := hs.ready hp
  have hk := sessionKept_closeMessage P outOff s
  have hfits := ladderFits_of_sessionOk hs
  obtain ⟨out, -, hc | ⟨requests, hc⟩⟩ := closeMessage_ends (P := P) outOff hlanes.mainPos ht hd
  · have hphase : (closeMessage P outOff s).phase = .final := by rw [hc.frame]
    have hin' : (closeMessage P outOff s).inited = s.inited := by rw [hc.frame]
    have hkeyed : (closeMessage P outOff s).keyed = s.keyed := by rw [hc.frame]
    have htag : (closeMessage P outOff s).tagLen = s.tagLen := by rw [hc.frame]
    have hmac : (closeMessage P outOff s).macLen = s.tagLen := by rw [hc.frame]
    have hlD : (closeMessage P outOff s).lDollar = s.lDollar := by rw [hc.frame]
    exact sessionOk_of_kept hs hk ⟨by rw [hlD]; exact (hc.hash hfits.1).1, hc.short hfits.2⟩
      (fun h => by rw [← hkeyed, h]) (fun _ => ⟨hin, hkeyed⟩)
      (.final hphase (hin'.trans hin) hc.lanes (hmac.trans htag.symm) (by rw [htag]; exact ht))
  · rw [hc] at hk ⊢
    exact sessionOk_of_kept hs hk hfits id (fun h => ⟨h, rfl⟩) (.error rfl rfl)

/-- R226: RESET, accepted. -/
theorem sessionOk_replay (hs : SessionOk P s)
    (hp : s.phase = .ready ∨ s.phase = .final ∨ (s.phase = .error ∧ s.inited = true)) :
    SessionOk P { resetProcedure P false s with phase := .ready } := by
  have hin : s.inited = true := by
    rcases hp with hp | hp | ⟨-, hi⟩
    · exact (hs.ready hp).1
    · exact (hs.final hp).1
    · exact hi
  have ho := onlyHash_resetProcedure P false s
  have hkeyed : (resetProcedure P false s).keyed = s.keyed := by rw [onlyHash_keyed ho, clearLanes_keyed]
  have hk : SessionKept s { resetProcedure P false s with phase := .ready } :=
    sessionKept_trans (sessionKept_resetProcedure P false s) ⟨rfl, List.prefix_refl _⟩
  have hf : LadderFits (resetProcedure P false s) := ladderFits_resetProcedure false (ladderFits_of_sessionOk hs)
  exact sessionOk_of_kept hs hk hf (fun h => hkeyed.symm.trans h) (fun _ => ⟨hin, hkeyed⟩)
    (.ready rfl ((onlyHash_inited ho).trans hin)
      (lanesOk_congr (lanesOk_resetProcedure P false s) rfl rfl rfl rfl rfl) (onlyHash_macLen ho))

/-! Every command. -/

/-- R170, U5: the counter FEEDMSG has checked, in the blocks its loop will count. -/
theorem mainCount_lt {len : Word} {bytes : List Byte} (hb : bytes.length = len.toNat)
    (hc : s.mainLane.mainCount.toNat + updsize s len.toNat / 16 < 2 ^ 64) :
    (begin s).mainLane.mainCount.toNat + blocksDone (begin s) bytes.length < 2 ^ 64 := by
  rw [updsize_eq, Nat.mul_div_cancel_left _ (by decide)] at hc
  rw [hb]
  exact hc

/-- R22, R27, R37, R40 to R43: every command keeps the session's invariant. -/
theorem sessionOk_of_commandEnd (hs : SessionOk P s) (h : CommandEnd P s t i) : SessionOk P t := by
  have hb := sessionOk_begin hs
  have hfits := ladderFits_of_sessionOk hs
  cases h with
  | responded r _ ht => subst ht; exact sessionOk_withPorts hs r s.ibuf s.obuf [] s.hostQueue
  | failed st ht =>
    subst ht
    exact sessionOk_of_kept hs ⟨rfl, List.prefix_refl _⟩ hfits id (fun h => ⟨h, rfl⟩) (.error rfl rfl)
  | @initFailed k _ _ _ _ _ _ _ _ st _ ht =>
    subst ht
    refine sessionOk_of_kept hs ⟨rfl, List.prefix_refl _⟩ hfits (fun h => ?_) nofun (.error rfl rfl)
    cases k with
    | false => exact h
    | true => cases h
  | opened phase r hp ht => subst ht; exact sessionOk_zeroize P s hp r s.obuf [] s.draws
  | @started k e _ keyOff keyLen nonceOff nonceLen aadOff aadLen hkeyed h32 h256 _ ht =>
    subst ht
    have hkey : (if k then some (inputBytes s keyOff keyLen) else none) = none → s.keyed = true := by
      cases k with
      | false => exact fun _ => hkeyed.resolve_left Bool.false_ne_true
      | true => nofun
    exact sessionOk_respond (sessionOk_startSession hb e h32 h256 hkey _ _) 0 []
  | aadFed h hr =>
    obtain ⟨hp, -, hc, ht⟩ := feedAad_ok h hr
    subst ht
    exact sessionOk_respond (sessionOk_absorb hb hp (by rw [inputBytes_length]; exact hc)) 0 []
  | msgFed h hr =>
    obtain ⟨hp, -, -, -, hc, ht⟩ := feedMsg_ok h hr
    subst ht
    exact sessionOk_respond (sessionOk_feedMain _ 0 hb hp (mainCount_lt (inputBytes_length ..) hc)) _ []
  | closed hp _ htag hd _ ht => subst ht; exact sessionOk_closeMessage _ hb hp htag hd
  | replayed hp ht => subst ht; exact sessionOk_respond (sessionOk_replay hb hp) 0 []

/-- R60, R66: a command leaves IBUF alone, and what it writes in OBUF starts at its write position and stays inside the
space. -/
theorem output_of_commandEnd (hs : SessionOk P s) (h : CommandEnd P s t i) :
    t.ibuf = s.ibuf ∧ ∃ out : List Byte, t.obuf = s.obuf.write (outputOffset i) out ∧
      (out = [] ∨ outputOffset i + out.length ≤ P.obufSize.val) := by
  have silent : t.ibuf = s.ibuf → t.obuf = s.obuf → t.ibuf = s.ibuf ∧ ∃ out : List Byte,
      t.obuf = s.obuf.write (outputOffset i) out ∧ (out = [] ∨ outputOffset i + out.length ≤ P.obufSize.val) :=
    fun hi ho => ⟨hi, [], ho, .inl rfl⟩
  cases h with
  | responded r _ ht => subst ht; exact silent rfl rfl
  | failed st ht => subst ht; exact silent rfl rfl
  | initFailed st _ ht => subst ht; exact silent rfl rfl
  | opened phase r _ ht => subst ht; exact silent rfl rfl
  | @started k _ _ _ _ _ _ _ _ _ _ _ _ ht =>
    subst ht
    refine silent ?_ (startSession_obuf ..)
    rw [respond_ibuf, startSession_frame]
    cases k <;> rfl
  | @aadFed inOff len h hr =>
    obtain ⟨-, -, -, ht⟩ := feedAad_ok h hr
    subst ht
    have ho := onlyHash_absorb P (inputBytes s inOff len) (begin s)
    have hi := onlyHash_ibuf ho
    have hout := onlyHash_obuf ho
    exact silent hi hout
  | @msgFed inOff len outOff outLen h hr =>
    obtain ⟨hp, -, hout, hroom, hc, ht⟩ := feedMsg_ok h hr
    subst ht
    obtain ⟨ho, -, hcount, hobuf, -⟩ := feedMain_spec P outOff.toNat (inputBytes s inOff len) 0 (s := begin s) hs.ladder
    have hn := feedMain_count P outOff.toNat (inputBytes s inOff len) 0 (s := begin s)
      (tagLen_le_of_ready (sessionOk_begin hs) hp) (hs.ready hp).2.mainPos (mainCount_lt (inputBytes_length ..) hc)
    rw [inputBytes_length, ← updsize_eq, updsize_begin] at hn
    have hi := onlyMain_ibuf ho
    refine ⟨hi, _, hobuf, .inr ?_⟩
    simp only [outputOffset]
    omega
  | @closed outOff outLen hp hout htag hd hroom ht =>
    obtain ⟨out, hlen, hc⟩ :=
      closeMessage_ends (P := P) (s := begin s) outOff.toNat (hs.ready hp).2.mainPos htag hd
    rw [finsize_begin] at hlen
    rw [← ht] at hc
    have hfits : outOff.toNat + out.length ≤ P.obufSize.val := by omega
    rcases hc with hc | ⟨requests, hc⟩
    · rw [hc.frame]
      exact ⟨rfl, out, rfl, .inr hfits⟩
    · rw [hc]
      exact ⟨rfl, out, rfl, .inr hfits⟩
  | replayed _ ht =>
    subst ht
    have ho := onlyHash_resetProcedure P false (begin s)
    have hi := onlyHash_ibuf ho
    have hout := onlyHash_obuf ho
    exact silent hi hout

/-- R60: every command leaves the buffer spaces in canonical form and inside their sizes. -/
theorem buffersOk_of_commandEnd (hs : Inv P s) (h : CommandEnd P s t i) : BuffersOk P t := by
  obtain ⟨hiw, how, hib, hob⟩ := hs.buffers
  obtain ⟨hi, out, ho, hout⟩ := output_of_commandEnd hs.session h
  refine ⟨hi ▸ hiw, ho ▸ Memory.wf_write out _ how, hi ▸ hib, ?_⟩
  rw [ho]
  rcases hout with rfl | hle
  · exact hob
  · exact Memory.below_write out _ hle hob

theorem inv_of_commandEnd (hs : Inv P s) (h : CommandEnd P s t i) : Inv P t :=
  ⟨sessionOk_of_commandEnd hs.session h, buffersOk_of_commandEnd hs h⟩

/-! Every step. -/

/-- Taking the host's next event keeps the invariant. -/
theorem inv_withQueue (hs : Inv P s) (q : List HostEvent) : Inv P { s with hostQueue := q } := by
  obtain ⟨hiw, how, hib, hob⟩ := hs.buffers
  exact ⟨sessionOk_withQueue hs.session q, hiw, how, hib, hob⟩

/-- Settles O53: a command keeps the invariant; a host write keeps its buffer space in form; a reset leaves the reset
state, with OBUF as it was or cut short of what a command leaves. -/
theorem stepKeepsTheInvariant : Obligations.StepKeepsTheInvariant := by
  intro s t hs h
  have hsession := hs.session
  obtain ⟨hiw, how, hib, hob⟩ := hs.buffers
  cases stepEnd_of_step h with
  | idle _ ht => exact ht ▸ hs
  | @commanded _ rest _ _ _ he => exact inv_of_commandEnd (inv_withQueue hs rest) he
  | @notDecoded _ rest _ _ _ ht =>
    subst ht
    exact ⟨sessionOk_withPorts hsession (bareResponse .illegalCommand) s.ibuf s.obuf [] rest, hiw, how, hib, hob⟩
  | @wroteIbuf _ _ rest _ ha ht =>
    subst ht
    exact ⟨sessionOk_withPorts hsession s.response _ s.obuf s.requests rest, Memory.wf_set _ _ hiw, how,
      Memory.below_set _ ha hib, hob⟩
  | @wroteObuf _ _ rest _ ha ht =>
    subst ht
    exact ⟨sessionOk_withPorts hsession s.response s.ibuf _ s.requests rest, hiw, Memory.wf_set _ _ how, hib,
      Memory.below_set _ ha hob⟩
  | @zeroized rest obuf requests draws hcut ht =>
    subst ht
    have hbuf : Memory.wf obuf = true ∧ Memory.below Config.platform.obufSize.val obuf = true := by
      rcases hcut with rfl | ⟨i, u, off, n, he, rfl⟩
      · exact ⟨how, hob⟩
      · have hu := buffersOk_of_commandEnd (inv_withQueue hs rest) he
        exact ⟨Memory.wf_upTo how u.obuf off n, Memory.below_upTo hob hu.obufBelow off n⟩
    exact ⟨sessionOk_zeroize _ { s with hostQueue := rest } (.inl rfl) Response.zero obuf requests draws,
      hiw, hbuf.1, hib, hbuf.2⟩

/-! What the lanes hold (R41, R154, R173, R224, R225). -/

/-- R224, R225, R199: an accepted FINALIZE leaves the initial AAD in the hash lane and no message in the crypt lane. -/
theorem sessionHolds_of_messageClosed {outOff w : Nat} {out : List Byte} (hl : LadderOk s.lDollar s.ladder)
    (h : MessageClosed P s t outOff w out) : SessionHolds P (initAADBytes s) [] t := by
  have hmain : t.mainLane = { MainLane.zero with offsetMain := s.offsetMain0 } := by rw [h.frame]
  have hr := sessionHolds_resetProcedure P true hl
  have ho := onlyHash_resetProcedure P true s
  refine sessionHolds_congr hr ?_ ?_ ?_ ?_ ?_ ?_ ?_ ?_
  · rw [h.frame, onlyHash_hpKey ho]; rfl
  · rw [h.frame, onlyHash_mpKey ho]; rfl
  · rw [h.frame, onlyHash_lDollar ho]; rfl
  · rw [h.frame, onlyHash_mode ho]; rfl
  · rw [h.frame, onlyHash_tagLen ho]; rfl
  · rw [h.frame, onlyHash_offsetMain0 ho]; rfl
  · rw [(h.hash hl).2, resetProcedure_hashLane P true hl]
  · rw [hmain, onlyHash_mainLane ho]; rfl

/-- What has been fed once a command has ended: a command that does not end OK feeds nothing. -/
def fedAfterEnd (i : Instr) (s t : State) (fed : Fed) : Fed := if t.response.rstat = .ok then fedAfter i s fed else fed

/-- R41, R154, R173, R199, R224, R225: after a command the lanes hold what has been fed since the last reset. -/
theorem sessionHolds_of_commandEnd {fed : Fed} (hs : SessionOk P s)
    (hh : InMessage s → SessionHolds P fed.aad fed.msg s) (h : CommandEnd P s t i) (ht : InMessage t) :
    SessionHolds P (fedAfterEnd i s t fed).aad (fedAfterEnd i s t fed).msg t := by
  have hkept := sessionKept_of_commandEnd h
  have outside : ∀ {phase : Phase} {C : Prop}, t.phase = phase → phase ≠ .ready → phase ≠ .final → C :=
    fun hp hr hf => absurd ht fun hm => hm.elim (fun h => hr (hp.symm.trans h)) (fun h => hf (hp.symm.trans h))
  cases h with
  | responded r hfed hr =>
    subst hr
    have hsame : fedAfterEnd i s { s with response := r, requests := [] } fed = fed := by
      unfold fedAfterEnd
      split
      · exact hfed ‹_› fed
      · rfl
    rw [hsame]
    exact sessionHolds_congr (hh ht) rfl rfl rfl rfl rfl rfl rfl rfl
  | failed st he => exact outside (by rw [he]; rfl) (phase := .error) (by decide) (by decide)
  | initFailed st _ he => exact outside (by rw [he]; rfl) (phase := .error) (by decide) (by decide)
  | opened phase r hp he =>
    rcases hp with rfl | rfl
    · exact outside (by rw [he]) (phase := .noSession) (by decide) (by decide)
    · exact outside (by rw [he]) (phase := .uninit) (by decide) (by decide)
  | @started k e bits keyOff keyLen nonceOff nonceLen aadOff aadLen _ _ _ _ he =>
    subst he
    have hr := sessionHolds_startSession P e bits (if k then some (inputBytes s keyOff keyLen) else none)
      (inputBytes s nonceOff nonceLen) (inputBytes s aadOff aadLen) (s := begin s) hs.ladder
      (by rw [inputBytes_length]; exact aadLen.isLt)
    exact sessionHolds_congr hr rfl rfl rfl rfl rfl rfl rfl rfl
  | @aadFed inOff len h hr =>
    obtain ⟨hp, -, -, he⟩ := feedAad_ok h hr
    have hold := hh (.inl hp)
    have ho := onlyHash_absorb P (inputBytes s inOff len) (begin s)
    have hmain : t.mainLane = s.mainLane := by
      rw [he, respond_mainLane, onlyHash_mainLane ho, begin_mainLane]
    rw [fedAfterEnd, if_pos hr]
    have hk := hkept rfl
    have haad := feedAad_holds hs hold.hash h hr
    constructor
    · rw [hk.frame]; exact haad
    · rw [hmain, hk.frame]; exact hold.main
  | @msgFed inOff len outOff outLen h hr =>
    obtain ⟨hp, -, -, -, -, he⟩ := feedMsg_ok h hr
    have hold := hh (.inl hp)
    obtain ⟨ho, -⟩ := onlyMain_feedMain P outOff.toNat (inputBytes s inOff len) 0 (begin s)
    have hhash : t.hashLane = s.hashLane := by
      rw [he, respond_hashLane, onlyMain_hashLane ho, begin_hashLane]
    rw [fedAfterEnd, if_pos hr]
    have hk := hkept rfl
    have hmsg := feedMsg_holds hs hold.main h hr
    constructor
    · rw [hhash, hk.frame]; exact hold.hash
    · rw [hk.frame]; exact hmsg
  | @closed outOff outLen hp _ htag hd _ he =>
    obtain ⟨out, -, hc | ⟨requests, hc⟩⟩ :=
      closeMessage_ends (P := P) (s := begin s) outOff.toNat (hs.ready hp).2.mainPos htag hd
    · rw [← he] at hc
      have hok : t.response.rstat = .ok := by rw [hc.frame]; rfl
      rw [fedAfterEnd, if_pos hok]
      exact sessionHolds_of_messageClosed (s := begin s) hs.ladder hc
    · exact outside (by rw [he, hc]; rfl) (phase := .error) (by decide) (by decide)
  | replayed _ he =>
    subst he
    exact sessionHolds_congr (sessionHolds_resetProcedure P false (s := begin s) hs.ladder) rfl rfl rfl rfl rfl rfl rfl rfl

/-- After a step the lanes hold what has been fed since the last reset. -/
theorem sessionHolds_of_stepEnd {fed : Fed} (hs : Inv Config.platform s)
    (hh : InMessage s → SessionHolds Config.platform fed.aad fed.msg s) (h : StepEnd s t) (ht : InMessage t) :
    SessionHolds Config.platform (fedAfterStep s t fed).aad (fedAfterStep s t fed).msg t := by
  cases h with
  | idle hq he => subst he; rw [fedAfterStep, hq]; exact hh ht
  | @commanded words rest i hq hd he =>
    have := sessionHolds_of_commandEnd (fed := fed) (inv_withQueue hs rest).session
      (fun hm => sessionHolds_congr (hh hm) rfl rfl rfl rfl rfl rfl rfl rfl) he ht
    rw [fedAfterStep, hq]
    simp only [hd]
    exact this
  | notDecoded hq hd he =>
    subst he; rw [fedAfterStep, hq]; simp only [hd]
    exact sessionHolds_congr (hh ht) rfl rfl rfl rfl rfl rfl rfl rfl
  | wroteIbuf hq _ he =>
    subst he; rw [fedAfterStep, hq]
    exact sessionHolds_congr (hh ht) rfl rfl rfl rfl rfl rfl rfl rfl
  | wroteObuf hq _ he =>
    subst he; rw [fedAfterStep, hq]
    exact sessionHolds_congr (hh ht) rfl rfl rfl rfl rfl rfl rfl rfl
  | zeroized _ _ _ _ he => subst he; exact ht.elim nofun nofun

/-- Settles O57: the lanes hold what has been fed, and what stands in front of `mainPos` in Decrypt mode follows. -/
theorem stepKeepsWhatWasFed : Obligations.StepKeepsWhatWasFed := by
  intro s t fed hs hh h ht fed'
  have hold := sessionHolds_of_stepEnd hs hh (stepEnd_of_step h) ht
  refine ⟨hold, fun hm hlen => ?_⟩
  have hmain := hold.main
  rw [hm] at hmain
  exact tail_of_holds hmain hlen

end Sys2Proof.Machine

/-! PROOFS. The host's side of a step (spec/20_memory.md R60, R71, 30_encoding.md R82, 70_reset_and_hazards.md R300,
R323) and the buffer spaces (20_memory.md R61). -/

namespace Sys2Proof.Machine

/-! The host's events (R60, R300, R323). -/

/-- Settles O9: an event is taken from the queue, and what it then does is its own operation. -/
theorem stepTakesTheHostsEvents : Obligations.StepTakesTheHostsEvents := by
  refine ⟨fun s hq => ?_, fun s rest a b hq => ?_, fun s rest a b hq => ?_, fun s rest hq => ?_⟩
  · rw [step, takeEvent, hq]
  · rw [step, takeEvent_eq_some hq]; rfl
  · rw [step, takeEvent_eq_some hq]; rfl
  · rw [step, takeEvent_eq_some hq]; rfl

/-! Transactions of the wrong length (log entry 3). -/

/-- R82: how many operand words follow the header of a command. -/
def operandWords : Opcode → Nat
  | .newsession | .reset | .mac | .algid => 0
  | .updsize | .finsize => 1
  | .feedaad | .finalize => 2
  | .feedmsg => 4
  | .init => 6

/-- The opcode map gives each command its number of operand words. -/
theorem operands_eq_operandWords : ∀ r ∈ opcodeTable, r.operands = operandWords r.op := by decide

/-- Only a command's own number of operand words is read as its operands. -/
theorem decodeOperands_of_length_ne {op : Opcode} {header : Word} {operands : List Word}
    (h : operands.length ≠ operandWords op) : decodeOperands op header operands = .reject .commandLength := by
  cases op with
  | newsession | reset | mac | algid =>
    match operands, h with
    | [], h => exact absurd rfl h
    | _ :: _, _ => rfl
  | updsize | finsize =>
    match operands, h with
    | [_], h => exact absurd rfl h
    | [], _ | _ :: _ :: _, _ => rfl
  | feedaad | finalize =>
    match operands, h with
    | [_, _], h => exact absurd rfl h
    | [], _ | [_], _ | _ :: _ :: _ :: _, _ => rfl
  | feedmsg =>
    match operands, h with
    | [_, _, _, _], h => exact absurd rfl h
    | [], _ | [_], _ | [_, _], _ | [_, _, _], _ | _ :: _ :: _ :: _ :: _ :: _, _ => rfl
  | init =>
    match operands, h with
    | [_, _, _, _, _, _], h => exact absurd rfl h
    | [], _ | [_], _ | [_, _], _ | [_, _, _], _ | [_, _, _, _], _ | [_, _, _, _, _], _
    | _ :: _ :: _ :: _ :: _ :: _ :: _ :: _, _ => rfl

/-- R84, R85: a header that matches a row of the opcode map selects it. -/
theorem selectRow_of_mem {header : Word} {r : OpcodeRow} (hr : r ∈ opcodeTable)
    (hm : header &&& r.mask = r.matchBits) : selectRow header = some r := by
  have fixed : ∀ {c : Word}, header &&& 0xFFFFFFFF = c → header = c := fun h => and_allOnes_eq header ▸ h
  simp only [opcodeTable, List.mem_cons, List.not_mem_nil, or_false] at hr
  rcases hr with rfl | rfl | rfl | rfl | rfl | rfl | rfl | rfl | rfl | rfl
  case inr.inl =>
    have hinit := (init_header_iff header).mp hm
    have hne : header ≠ 0x01000000 := by
      rintro rfl
      exact absurd hinit.1 (by decide)
    rw [selectRow_eq, if_neg hne, if_pos hinit]
  all_goals rw [fixed hm]; rfl

/-- Settles O10: without a header there is no row, and a row reads no other number of operand words than its own. -/
theorem wrongLengthTransactionStops : Obligations.WrongLengthTransactionStops := by
  refine ⟨fun s rest hq => ?_, fun s header operands rest r hq hr hm hlen => ?_⟩
  · rw [step_eq_runCommand hq]; rfl
  · have hd : decode (header :: operands) = .reject .commandLength := by
      rw [decode, selectRow_of_mem hr hm]
      exact decodeOperands_of_length_ne (operands_eq_operandWords r hr ▸ hlen)
    rw [step_eq_runCommand hq, runCommand, hd]
    rfl

/-! Buffer reads and writes (R61). -/

/-- R61: outside the bytes a write puts, OBUF reads as before. -/
theorem readObuf_of_write_outside {s t : State} {a x : Nat} {v : List Byte} (hw : Memory.wf s.obuf = true)
    (ht : t.obuf = s.obuf.write a v) (hx : ¬ (a ≤ x ∧ x < a + v.length)) : readObuf t x = readObuf s x := by
  rw [readObuf, readObuf, ht, Memory.get?_write_of_not_mem v hw hx]

/-- R61: a byte of OBUF after a write: the byte of the string that belongs there, or the one that was there. -/
theorem readObuf_memWriteObuf {s : State} (hw : Memory.wf s.obuf = true) (a : Nat) (v : List Byte) (x : Nat) :
    readObuf (memWriteObuf a v s) x = if a ≤ x ∧ x < a + v.length then v.getD (x - a) 0 else readObuf s x := by
  split
  · rename_i h
    obtain ⟨i, rfl⟩ := Nat.exists_eq_add_of_le h.1
    have hi : i < v.length := by omega
    rw [readObuf, memWriteObuf_obuf, Memory.get?_write_of_lt v hw a hi, Nat.add_sub_cancel_left,
      List.getD_eq_getElem?_getD, List.getElem?_eq_getElem hi, Option.getD_some, Option.getD_some]
  · exact readObuf_of_write_outside hw rfl ‹_›

/-- R61: byte `i` of what is read is the byte at address `a + i`. -/
theorem memReadIbuf_getD (s : State) (a : Nat) {i n : Nat} (h : i < n) :
    (memReadIbuf s a n).getD i 0 = readIbuf s (a + i) := by
  simp [memReadIbuf, h]

/-- Settles O55: a read after a write, the canonical form, and the bytes of a read in the order of their addresses. -/
theorem bufferReadsAndWrites : Obligations.BufferReadsAndWrites :=
  ⟨fun _ a v hw => ⟨Memory.wf_write v a hw, readObuf_memWriteObuf hw a v⟩,
    fun s a n => ⟨memReadIbuf_length s a n, fun _ => memReadIbuf_getD s a⟩⟩

/-! Hardware reset during a command (R66, R300). -/

section Abandon
variable {run : Instr → State → Result} {words : List Word} {i : Instr} {s u : State} (made written : Nat)

/-- R300: a command in progress is cut short where it stood. -/
theorem abandonCommand_of_next (hd : decode words = .instr i) (hr : run i s = .next u) :
    abandonCommand run words made written s = resetPartWay (outputOffset i) made written u s := by
  simp only [abandonCommand, hd, hr]

/-- U5: a feed whose counter would wrap is cut short where it stood before the wrap. -/
theorem abandonCommand_of_wrap {f : Fault} (hd : decode words = .instr i) (hr : run i s = .fault f)
    (hb : run (beforeWrap i s) s = .next u) :
    abandonCommand run words made written s = resetPartWay (outputOffset i) made written u s := by
  simp only [abandonCommand, hd, hr, hb]

/-- A command that has no next state even without its wrap has done nothing when the reset comes. -/
theorem abandonCommand_of_fault {f f' : Fault} (hd : decode words = .instr i) (hr : run i s = .fault f)
    (hb : run (beforeWrap i s) s = .fault f') : abandonCommand run words made written s = hardwareReset s := by
  simp only [abandonCommand, hd, hr, hb]

/-- Log entry 3: neither has a transaction that is no command. -/
theorem abandonCommand_of_reject {why : Reject} (hd : decode words = .reject why) :
    abandonCommand run words made written s = hardwareReset s := by
  simp only [abandonCommand, hd]

end Abandon

/-- Settles O56: a command, left alone or cut before its wrap, writes one string, and the reset keeps the part of it that
had been written. -/
theorem resetAbandonsTheCommand : Obligations.ResetAbandonsTheCommand := by
  refine ⟨fun s rest words made written hq => ?_, fun P s words made written hw => ⟨?_, ?_, ?_, ?_⟩⟩
  · rw [step, takeEvent_eq_some hq, exec_eq_execOn]
  · intro i u hd hr
    obtain ⟨out, hout⟩ := execOn_writes hr
    exact ⟨out, hout, (abandonCommand_of_next made written hd hr).trans (resetPartWay_eq hw hout made written)⟩
  · intro i f u hd hr hb
    obtain ⟨out, hout⟩ := execOn_writes hb
    rw [outputOffset_beforeWrap] at hout
    exact ⟨out, hout, (abandonCommand_of_wrap made written hd hr hb).trans (resetPartWay_eq hw hout made written)⟩
  · exact fun i f f' hd hr hb => abandonCommand_of_fault made written hd hr hb
  · exact fun why hd => abandonCommand_of_reject made written hd

end Sys2Proof.Machine

/-! PROOFS. What OBUF holds decides nothing (spec/20_memory.md R60, R66; 43_crypt_lane.md R176): every operation of the
engine commutes with exchanging it, but for the bytes the operation itself writes. -/

namespace Sys2Proof.Machine

open Sys2Proof.Safety

/-- The state `s` with the output space exchanged for `m`. -/
def putObuf (m : Memory) (s : State) : State := { s with obuf := m }

@[simp] theorem putObuf_self (s : State) : putObuf s.obuf s = s := rfl

variable (P : Platform) (m : Memory) (s : State)

/-! The lanes and the session. -/

theorem absorbByte_putObuf (b : Byte) : absorbByte P (putObuf m s) b = putObuf m (absorbByte P s b) := by
  rw [absorbByte_eq, absorbByte_eq, apply_ite (putObuf m)]
  rfl

/-- R153: FEEDAAD's byte loop. -/
theorem absorb_putObuf (bytes : List Byte) : absorb P bytes (putObuf m s) = putObuf m (absorb P bytes s) :=
  List.foldl_hom (putObuf m) fun s b => absorbByte_putObuf P m s b

/-- R225: the reset procedure. -/
theorem resetProcedure_putObuf (preserveMac : Bool) :
    resetProcedure P preserveMac (putObuf m s) = putObuf m (resetProcedure P preserveMac s) :=
  absorb_putObuf P m (clearLanes preserveMac s) (initAADBytes s)

/-- R130 to R135: the nonce expander. -/
theorem nonceExpander_putObuf (nonce : List Byte) :
    nonceExpander P nonce (putObuf m s) = putObuf m (nonceExpander P nonce s) := by
  have hfill (n : Block) : fillKtop P n (putObuf m s) = putObuf m (fillKtop P n s) := by
    rw [fillKtop_eq, fillKtop_eq, apply_ite (putObuf m)]
    rfl
  rw [nonceExpander, hfill]
  rfl

/-- R222: INIT once its checks have passed. -/
theorem startSession_putObuf (e : Bool) (tagLenBits : BitVec 16) (key : Option Key) (nonce aad : List Byte) :
    startSession P e tagLenBits key nonce aad (putObuf m s) =
      putObuf m (startSession P e tagLenBits key nonce aad s) := by
  have hkey : keyedState P e tagLenBits key (putObuf m s) = putObuf m (keyedState P e tagLenBits key s) := by
    cases key <;> rfl
  have hnonce : noncedState P e tagLenBits key nonce aad (putObuf m s) =
      putObuf m (noncedState P e tagLenBits key nonce aad s) := by
    rw [noncedState, hkey, nonceExpander_putObuf]
    rfl
  rw [startSession_eq, startSession_eq, hnonce, resetProcedure_putObuf]
  rfl

/-! FEEDMSG's byte loop. -/

/-- R170, R176: the byte loop writes one string, the same whatever OBUF holds, and counts its bytes. -/
theorem feedMain_putObuf (outOff : Nat) : ∀ (bytes : List Byte) (w : Nat) (s : State),
    ∃ out : List Byte, (feedMain P outOff bytes w s).1 = w + out.length ∧
      ∀ m : Memory, feedMain P outOff bytes w (putObuf m s) =
        ((feedMain P outOff bytes w s).1, putObuf (m.write (outOff + w) out) (feedMain P outOff bytes w s).2)
  | [], _, _ => ⟨[], rfl, fun _ => rfl⟩
  | b :: bytes, w, s => by
    by_cases hfull : (s.mainLane.mainPos + 1).toNat = mainBufLen s
    · obtain ⟨blk, u, hu⟩ : ∃ blk u, processFullMainBlock P (bufferMainByte b s) = (blk, u) := ⟨_, _, rfl⟩
      have hblock (m : Memory) : processFullMainBlock P (bufferMainByte b (putObuf m s)) = (blk, putObuf m u) := by
        rw [processFullMainBlock_eq] at hu ⊢
        cases hu
        rfl
      have hstep (m : Memory) : feedMain P outOff (b :: bytes) w (putObuf m s) =
          feedMain P outOff bytes (w + 16) (putObuf (m.write (outOff + w) blk.toList) u) := by
        rw [feedMain_cons, hblock]
        exact if_pos hfull
      obtain ⟨out, hlen, hout⟩ := feedMain_putObuf outOff bytes (w + 16) u
      have hfeed := (hstep s.obuf).trans (hout _)
      rw [putObuf_self] at hfeed
      refine ⟨blk.toList ++ out, ?_, fun m => ?_⟩
      · rw [hfeed, hlen, List.length_append, Vector.length_toList, Nat.add_assoc]
      · rw [hfeed, hstep, hout, Memory.write_append, Vector.length_toList, Nat.add_assoc]
        rfl
    · have hstep (m : Memory) : feedMain P outOff (b :: bytes) w (putObuf m s) =
          feedMain P outOff bytes w (putObuf m (bufferMainByte b s)) := if_neg hfull
      obtain ⟨out, hlen, hout⟩ := feedMain_putObuf outOff bytes w (bufferMainByte b s)
      have hfeed : feedMain P outOff (b :: bytes) w s = feedMain P outOff bytes w (bufferMainByte b s) :=
        hstep s.obuf
      exact ⟨out, hfeed ▸ hlen, fun m => by rw [hstep, hout, hfeed]⟩

/-! FINALIZE. -/

/-- R190, steps 1 to 5: the partial block and the tag. -/
theorem computeTag_putObuf :
    computeTag P (putObuf m s) = ((computeTag P s).1, putObuf m (computeTag P s).2) := by
  have hdrop : dropTag (putObuf m s) = putObuf m (dropTag s) := by
    cases hm : s.mode <;> simp only [dropTag, putObuf, hm]
  have hhash (s : State) : finalizeHash P (putObuf m s) = putObuf m (finalizeHash P s) := by
    rw [finalizeHash_eq, finalizeHash_eq, apply_ite (putObuf m)]
    rfl
  have hpart (s : State) : partialCrypt P (putObuf m s) = ((partialCrypt P s).1, putObuf m (partialCrypt P s).2) := by
    by_cases h0 : s.mainLane.mainPos = 0
    · rw [partialCrypt_zero P h0, partialCrypt_zero P (s := putObuf m s) h0]
    · cases hm : s.mode <;> simp only [partialCrypt, putObuf, hm, h0, if_false, hashPerm, logRequest]
  simp only [computeTag]
  rw [hdrop, hhash, hpart]
  rfl

/-- R199: the reset that ends FINALIZE. -/
theorem completeFinalize_putObuf (w : Nat) :
    completeFinalize P w (putObuf m s) = putObuf m (completeFinalize P w s) := by
  rw [completeFinalize_eq, completeFinalize_eq, resetProcedure_putObuf]
  rfl

/-- R190, R197, R198: the bytes FINALIZE writes: the partial block, and behind it the tag when encrypting; free bytes
when the tags differ (U7). -/
def closingOutput : List Byte :=
  match (computeTag P s).2.mode with
  | .encrypt => (computeTag P s).1 ++ macBytes (computeTag P s).2
  | .decrypt =>
    if tagDifference (computeTag P s).2.macBlock (receivedTag s) (computeTag P s).2.tagLen.toNat ≠ 0 then
      freeWindow (computeTag P s).2.draws (computeTag P s).1.length
    else (computeTag P s).1

/-- R190: FINALIZE, its checks passed, writes the same bytes whatever OBUF holds. -/
theorem closeMessage_putObuf (outOff : Nat) :
    closeMessage P outOff (putObuf m s) =
      putObuf (m.write outOff (closingOutput P s)) (closeMessage P outOff s) := by
  have htag : receivedTag (putObuf m s) = receivedTag s := rfl
  rw [closeMessage_eq, closeMessage_eq, computeTag_putObuf, closingOutput, htag]
  generalize (computeTag P s).1 = part
  generalize (computeTag P s).2 = u
  cases hm : u.mode with
  | encrypt =>
    have hm' : (putObuf m u).mode = .encrypt := hm
    simp only [hm']
    rw [← completeFinalize_putObuf, Memory.write_append]
    rfl
  | decrypt =>
    have hm' : (putObuf m u).mode = .decrypt := hm
    simp only [hm']
    by_cases hz : tagDifference u.macBlock (receivedTag s) u.tagLen.toNat ≠ 0
    · rw [if_pos hz, if_pos hz]
      exact if_pos hz
    · rw [if_neg hz, if_neg hz, ← completeFinalize_putObuf]
      exact if_neg hz

/-- R176, R197, R198: FINALIZE, its checks passed, writes `finsize(0)` bytes. -/
theorem length_closingOutput {P : Platform} {s : State} (hl : s.mainLane.mainPos.toNat < mainBufLen s)
    (ht : s.tagLen.toNat ≤ 16) (hd : dataTooShort s = false) : (closingOutput P s).length = finsize s 0 := by
  have hp : partialLen s < 16 := by
    cases hm : s.mode <;> simp only [mainBufLen, partialLen, hm] at hl ⊢ <;> omega
  have h := computeTag_spec P hd hp
  have hmode : (computeTag P s).2.mode = s.mode := by rw [h.only]
  have hpart : (computeTag P s).1.length = partialLen s := by rw [h.part, length_partialOut P hp]
  rw [closingOutput, hmode]
  cases hm : s.mode with
  | encrypt =>
    simp only [List.length_append, hpart, tagComputed_macBytes h ht, length_expectedTag P ht, finsize, partialLen, hm,
      Nat.add_zero]
  | decrypt =>
    have hfin : partialLen s = finsize s 0 := by simp only [partialLen, finsize, hm, Nat.add_zero]
    simp only
    split
    · rw [freeWindow, List.length_map, List.length_range, hpart, hfin]
    · rw [hpart, hfin]

/-! Every command. -/

@[simp] theorem begin_putObuf : begin (putObuf m s) = putObuf m (begin s) := rfl

@[simp] theorem inputBytes_putObuf (off len : Word) : inputBytes (putObuf m s) off len = inputBytes s off len := rfl

@[simp] theorem respond_putObuf (val : Nat) (data : List Byte) :
    respond val data (putObuf m s) = putObuf m (respond val data s) := rfl

/-- An outcome with the output space of its state, if it has one, exchanged for `m`. -/
def resultPutObuf : Result → Result
  | .next t => .next (putObuf m t)
  | .fault f => .fault f
  | .refused r => .refused r

/-- R60, R66: what a command other than FEEDMSG and FINALIZE does is the same whatever OBUF holds, and OBUF holds it
still. -/
theorem execOn_putObuf {i : Instr} (hmsg : ∀ inOff len outOff outLen, i ≠ .feedmsg inOff len outOff outLen)
    (hfin : ∀ outOff outLen, i ≠ .finalize outOff outLen) :
    execOn P i (putObuf m s) = resultPutObuf m (execOn P i s) := by
  cases i with
  | newsession => simp only [execOn, newSessionOn_eq, apply_ite (resultPutObuf m)]; rfl
  | init =>
    simp only [execOn, initOn_eq, begin_putObuf, inputBytes_putObuf, startSession_putObuf, respond_putObuf,
      apply_ite (resultPutObuf m)]
    rfl
  | feedaad =>
    simp only [execOn, feedAadOn_eq, begin_putObuf, inputBytes_putObuf, absorb_putObuf, respond_putObuf,
      apply_ite (resultPutObuf m)]
    rfl
  | feedmsg => exact (hmsg _ _ _ _ rfl).elim
  | updsize => simp only [execOn, execUpdsize_eq, apply_ite (resultPutObuf m)]; rfl
  | finsize => simp only [execOn, execFinsize_eq, apply_ite (resultPutObuf m)]; rfl
  | finalize => exact (hfin _ _ rfl).elim
  | reset =>
    simp only [execOn, resetOn_eq, begin_putObuf, resetProcedure_putObuf, apply_ite (resultPutObuf m)]
    rfl
  | mac => simp only [execOn, execMac_eq, apply_ite (resultPutObuf m)]; rfl
  | algid => simp only [execOn, algIdOn_eq, apply_ite (resultPutObuf m)]; rfl

/-- R60, R66, R176: the string `out` a command writes from its write position on: it is empty or inside the command's
window, and the command writes it, and does all else it does, whatever OBUF holds. -/
structure WritesInWindow (P : Platform) (i : Instr) (s t : State) (out : List Byte) : Prop where
  inside : out = [] ∨ (outputOffset i + out.length ≤ outputLength i ∧ outputLength i ≤ P.obufSize.val)
  writes : ∀ m : Memory, execOn P i (putObuf m s) = .next (putObuf (m.write (outputOffset i) out) t)

variable {P s} {t : State}

/-- R170, R176: FEEDMSG writes nothing when it is refused or fails, and else `updsize(LEN)` bytes. -/
theorem feedMsgOn_writesInWindow (hs : SessionOk P s) {inOff len outOff outLen : Word}
    (h : feedMsgOn P inOff len outOff outLen s = .next t) :
    ∃ out, WritesInWindow P (.feedmsg inOff len outOff outLen) s t out := by
  have hrun (m : Memory) := feedMsgOn_eq P inOff len outOff outLen (putObuf m s)
  rw [feedMsgOn_eq] at h
  split at h
  · rename_i hp
    cases h
    exact ⟨[], .inl rfl, fun m => (hrun m).trans (if_pos hp)⟩
  rename_i hp
  split at h
  · rename_i hd
    cases h
    exact ⟨[], .inl rfl, fun m => (hrun m).trans ((if_neg hp).trans (if_pos hd))⟩
  rename_i hd
  split at h
  · rename_i hroom
    cases h
    exact ⟨[], .inl rfl, fun m => (hrun m).trans ((if_neg hp).trans ((if_neg hd).trans (if_pos hroom)))⟩
  rename_i hroom
  split at h
  · cases h
  · rename_i hc
    cases h
    obtain ⟨out, hlen, hout⟩ := feedMain_putObuf P outOff.toNat (inputBytes s inOff len) 0 (begin s)
    have hready := not_not.mp hp
    have hcount := feedMain_count P outOff.toNat (inputBytes s inOff len) 0 (s := begin s)
      (tagLen_le_of_ready (sessionOk_begin hs) hready) (hs.ready hready).2.mainPos
      (mainCount_lt (inputBytes_length ..) (Nat.lt_of_not_le hc))
    rw [inputBytes_length, ← updsize_eq, updsize_begin] at hcount
    refine ⟨out, .inr ⟨?_, (not_not.mp hd).2⟩, fun m => ?_⟩
    · have := not_not.mp hroom
      simp only [outputOffset, outputLength]
      omega
    · refine (hrun m).trans ((if_neg hp).trans ((if_neg hd).trans ((if_neg hroom).trans ((if_neg hc).trans ?_))))
      rw [begin_putObuf, inputBytes_putObuf, hout]
      rfl

/-- R190, R197, R198: FINALIZE writes nothing when one of its checks fails, and else `finsize(0)` bytes. -/
theorem finalizeOn_writesInWindow (hs : SessionOk P s) {outOff outLen : Word}
    (h : finalizeOn P outOff outLen s = .next t) : ∃ out, WritesInWindow P (.finalize outOff outLen) s t out := by
  have hrun (m : Memory) := finalizeOn_eq P outOff outLen (putObuf m s)
  rw [finalizeOn_eq] at h
  split at h
  · rename_i hp
    cases h
    exact ⟨[], .inl rfl, fun m => (hrun m).trans (if_pos hp)⟩
  rename_i hp
  split at h
  · rename_i hd
    cases h
    exact ⟨[], .inl rfl, fun m => (hrun m).trans ((if_neg hp).trans (if_pos hd))⟩
  rename_i hd
  split at h
  · rename_i ht
    cases h
    exact ⟨[], .inl rfl, fun m => (hrun m).trans ((if_neg hp).trans ((if_neg hd).trans (if_pos ht)))⟩
  rename_i ht
  split at h
  · rename_i hshort
    cases h
    exact ⟨[], .inl rfl, fun m => (hrun m).trans
      ((if_neg hp).trans ((if_neg hd).trans ((if_neg ht).trans (if_pos hshort))))⟩
  rename_i hshort
  split at h
  · rename_i hroom
    cases h
    exact ⟨[], .inl rfl, fun m => (hrun m).trans
      ((if_neg hp).trans ((if_neg hd).trans ((if_neg ht).trans ((if_neg hshort).trans (if_pos hroom)))))⟩
  · rename_i hroom
    cases h
    have hlen := length_closingOutput (P := P) (s := begin s) (hs.ready (not_not.mp hp)).2.mainPos
      (Nat.le_of_not_lt ht) (Bool.eq_false_of_not_eq_true hshort)
    rw [finsize_begin] at hlen
    refine ⟨closingOutput P (begin s), .inr ⟨?_, not_not.mp hd⟩, fun m => ?_⟩
    · rw [hlen]
      exact not_not.mp hroom
    · refine (hrun m).trans ((if_neg hp).trans ((if_neg hd).trans ((if_neg ht).trans ((if_neg hshort).trans
        ((if_neg hroom).trans ?_)))))
      rw [begin_putObuf, closeMessage_putObuf]
      rfl

/-- R60, R66: every command that has a next state writes in its window, whatever OBUF holds. -/
theorem execOn_writesInWindow (hs : SessionOk P s) {i : Instr} (h : execOn P i s = .next t) :
    ∃ out, WritesInWindow P i s t out := by
  have silent (hm : ∀ m, execOn P i (putObuf m s) = resultPutObuf m (execOn P i s)) :
      ∃ out, WritesInWindow P i s t out := ⟨[], .inl rfl, fun m => by rw [hm, h]; rfl⟩
  cases i with
  | feedmsg => exact feedMsgOn_writesInWindow hs h
  | finalize => exact finalizeOn_writesInWindow hs h
  | _ => exact silent fun m => execOn_putObuf P m s nofun nofun

/-- Settles O18: IBUF is left alone, the output is a string in the window, and outside it OBUF reads as before. -/
theorem outputStaysInItsWindow : Obligations.OutputStaysInItsWindow := by
  intro i s t hinv h
  rw [exec_eq_execOn] at h ⊢
  obtain ⟨hibuf, -⟩ := output_of_commandEnd hinv.session (commandEnd_of_execOn h)
  obtain ⟨out, hinside, hwrites⟩ := execOn_writesInWindow hinv.session h
  have hobuf : t.obuf = s.obuf.write (outputOffset i) out := by
    have ht := hwrites s.obuf
    rw [putObuf_self, h] at ht
    exact congrArg State.obuf (Host.Outcome.next.inj ht)
  refine ⟨hibuf, ⟨out, hobuf, hinside, hwrites⟩, fun a ha => ?_⟩
  refine readObuf_of_write_outside hinv.buffers.obufWf hobuf fun hin => ?_
  rcases hinside with rfl | ⟨hend, -⟩
  · exact absurd hin.2 (Nat.not_lt.mpr hin.1)
  · omega

end Sys2Proof.Machine

/-! PROOFS. The encoding (spec/30_encoding.md): decoder and encoder undo each other (R80, R82, R85), through the opcode
table's numbering too, and what has no row or no key is IllegalCommand (R86, R87). -/

namespace Sys2Proof

open Sys2Proof.Safety Sys2Proof.Machine

/-! The rows of the opcode map (R84, R85). -/

/-- R85: the `OPC` of a command. -/
def opcodeNumber : Opcode → BitVec 8
  | .newsession => 0x01
  | .init => 0x02
  | .feedaad => 0x03
  | .feedmsg => 0x04
  | .updsize => 0x05
  | .finsize => 0x06
  | .finalize => 0x07
  | .reset => 0x08
  | .mac => 0x09
  | .algid => 0x0A

/-- The row a header selects is a row of the map that the header matches. -/
theorem mem_of_selectRow {header : Word} {r : OpcodeRow} (h : selectRow header = some r) :
    r ∈ opcodeTable ∧ header &&& r.mask = r.matchBits := by
  rw [selectRow] at h
  exact ⟨List.mem_of_find?_eq_some h, by simpa using List.find?_some h⟩

/-- Settles O4: a row that a header matches is the row the header selects. -/
theorem opcodeRowsDisjoint : Obligations.OpcodeRowsDisjoint := fun _ _ _ hr hr' hm hm' =>
  Option.some.inj ((selectRow_of_mem hr hm).symm.trans (selectRow_of_mem hr' hm'))

/-- R81, R85: the headers of each row: INIT's are those with its `OPC` and `RSV` zero, another command has one. -/
theorem header_of_selectRow {header : Word} {r : OpcodeRow} (h : selectRow header = some r) :
    (r.op = .init ∧ header = headerWord 0x02 (kField header) (eField header) (immField header)) ∨
    (r.op ≠ .init ∧ header = headerWord (opcodeNumber r.op) false false 0) := by
  obtain ⟨hr, hm⟩ := mem_of_selectRow h
  simp only [opcodeTable, List.mem_cons, List.not_mem_nil, or_false] at hr
  rcases hr with rfl | rfl | rfl | rfl | rfl | rfl | rfl | rfl | rfl | rfl
  case inr.inl =>
    obtain ⟨hopc, hrsv⟩ := (init_header_iff header).mp hm
    exact .inl ⟨rfl, by rw [← hopc, headerWord_fields hrsv]⟩
  all_goals
    rw [and_allOnes_eq] at hm
    exact .inr ⟨by decide, hm.trans (by decide)⟩

/-- R85: a header that selects a row has the `OPC` of its command. -/
theorem opcField_of_selectRow {header : Word} {r : OpcodeRow} (h : selectRow header = some r) :
    opcField header = opcodeNumber r.op := by
  rcases header_of_selectRow h with ⟨hop, hh⟩ | ⟨-, hh⟩
  · rw [hh, opcField_headerWord, hop]; rfl
  · rw [hh, opcField_headerWord]

/-- R81: the encoder's headers have `RSV` zero. -/
theorem rsv_headerWord (o : BitVec 8) (k e : Bool) (i : BitVec 16) : (headerWord o k e i).extractLsb' 18 6 = 0 := by
  apply BitVec.eq_of_getLsbD_eq
  intro j hj
  rw [BitVec.getLsbD_extractLsb', getLsbD_headerWord, if_neg (by omega), if_neg (by omega), if_neg (by omega),
    if_pos (by omega)]
  simp

/-- R81: a header without `K`, `E` and `IMM` has no bit below `RSV`. -/
theorem lowBits_headerWord (o : BitVec 8) : (headerWord o false false 0).extractLsb' 0 18 = 0 := by
  apply BitVec.eq_of_getLsbD_eq
  intro j hj
  rw [BitVec.getLsbD_extractLsb', getLsbD_headerWord, Nat.zero_add]
  obtain h | rfl | rfl : j < 16 ∨ j = 16 ∨ j = 17 := by omega
  · rw [if_pos h]; simp
  · simp
  · simp

/-! The decoder and the encoder undo each other. -/

/-- A header that selects a row is decoded by that row. -/
theorem decode_of_selectRow {header : Word} {r : OpcodeRow} (h : selectRow header = some r) (operands : List Word) :
    decode (header :: operands) = decodeOperands r.op header operands := by
  rw [decode, h]

/-- R85: so is the one header of a command that is no INIT. -/
theorem decode_headerWord {op : Opcode} (hop : op ≠ .init) (operands : List Word) :
    decode (headerWord (opcodeNumber op) false false 0 :: operands) =
      decodeOperands op (headerWord (opcodeNumber op) false false 0) operands := by
  have hrow : (selectRow (headerWord (opcodeNumber op) false false 0)).map OpcodeRow.op = some op := by
    cases op with
    | init => exact absurd rfl hop
    | _ => decide
  obtain ⟨r, hr, rfl⟩ := Option.map_eq_some_iff.mp hrow
  exact decode_of_selectRow hr operands

/-- R80, R82, R85: the decoder reads back what the encoder writes. -/
theorem decode_encode {i : Instr} (h : i.wellFormed = true) : decode (encode i) = .instr i := by
  cases i with
  | init k e bits keyOff keyLen nonceOff nonceLen aadOff aadLen =>
    have hk : keyDescriptorOk k keyOff keyLen = true := h
    rw [encode, decode_of_selectRow (selectRow_init k e bits)]
    refine (if_pos ?_).trans ?_
    · rw [kField_headerWord, hk]
    · rw [kField_headerWord, eField_headerWord, immField_headerWord]
  | newsession => exact decode_headerWord (op := .newsession) (by decide) []
  | feedaad inOff len => exact decode_headerWord (op := .feedaad) (by decide) [inOff, len]
  | feedmsg inOff len outOff outLen => exact decode_headerWord (op := .feedmsg) (by decide) [inOff, len, outOff, outLen]
  | updsize len => exact decode_headerWord (op := .updsize) (by decide) [len]
  | finsize len => exact decode_headerWord (op := .finsize) (by decide) [len]
  | finalize outOff outLen => exact decode_headerWord (op := .finalize) (by decide) [outOff, outLen]
  | reset => exact decode_headerWord (op := .reset) (by decide) []
  | mac => exact decode_headerWord (op := .mac) (by decide) []
  | algid => exact decode_headerWord (op := .algid) (by decide) []

/-- Settles O1: every header the encoder writes selects its row, and its fields are read back. -/
theorem encodeThenDecode : Obligations.EncodeThenDecode := fun _ => decode_encode

/-- R82, R85, R87: a row's own number of operand words, whatever they hold, is read as the command whose words they are,
but for a key descriptor without a key. -/
theorem decodeOperands_of_length {r : OpcodeRow} {header : Word} {operands : List Word}
    (hr : selectRow header = some r) (hlen : operands.length = operandWords r.op) :
    (∃ i, decodeOperands r.op header operands = .instr i ∧ i.wellFormed = true ∧ encode i = header :: operands) ∨
    (r.op = .init ∧ kField header = false ∧
      decodeOperands r.op header operands = .reject .keyDescriptorWithoutKey) := by
  have hh := header_of_selectRow hr
  generalize r.op = op at hlen hh ⊢
  cases op with
  | init =>
    obtain ⟨-, hh⟩ | ⟨hne, -⟩ := hh
    · match operands, hlen with
      | [keyOff, keyLen, nonceOff, nonceLen, aadOff, aadLen], _ =>
        by_cases hk : keyDescriptorOk (kField header) keyOff keyLen = true
        · exact .inl ⟨_, if_pos hk, hk, by rw [encode, ← hh]⟩
        · refine .inr ⟨rfl, ?_, if_neg hk⟩
          rw [keyDescriptorOk, Bool.or_eq_true, not_or] at hk
          exact Bool.eq_false_of_not_eq_true hk.1
    · exact absurd rfl hne
  | newsession | reset | mac | algid =>
    obtain ⟨-, rfl⟩ := hh.resolve_left nofun
    match operands, hlen with
    | [], _ => exact .inl ⟨_, rfl, rfl, rfl⟩
  | updsize | finsize =>
    obtain ⟨-, rfl⟩ := hh.resolve_left nofun
    match operands, hlen with
    | [_], _ => exact .inl ⟨_, rfl, rfl, rfl⟩
  | feedaad | finalize =>
    obtain ⟨-, rfl⟩ := hh.resolve_left nofun
    match operands, hlen with
    | [_, _], _ => exact .inl ⟨_, rfl, rfl, rfl⟩
  | feedmsg =>
    obtain ⟨-, rfl⟩ := hh.resolve_left nofun
    match operands, hlen with
    | [_, _, _, _], _ => exact .inl ⟨_, rfl, rfl, rfl⟩

/-- R85: what is read as a command has its row's number of operand words. -/
theorem length_of_decodeOperands {op : Opcode} {header : Word} {operands : List Word} {i : Instr}
    (h : decodeOperands op header operands = .instr i) : operands.length = operandWords op := by
  by_contra hne
  rw [decodeOperands_of_length_ne hne] at h
  cases h

/-- Settles O2: an accepted header selects a row, and both the header and the operands are the encoder's. -/
theorem decodeThenEncode : Obligations.DecodeThenEncode := by
  intro words i h
  cases words with
  | nil => cases h
  | cons header operands =>
    cases hr : selectRow header with
    | none => rw [decode, hr] at h; cases h
    | some r =>
      rw [decode_of_selectRow hr] at h
      rcases decodeOperands_of_length hr (length_of_decodeOperands h) with ⟨j, hj, hwf, henc⟩ | ⟨-, -, hrej⟩
      · obtain rfl := Decoded.instr.inj (hj.symm.trans h)
        exact ⟨hwf, henc⟩
      · rw [hrej] at h; cases h

/-- R80, R82: every command's header asks for the operand words the encoder writes behind it. -/
theorem encode_eq_cons (i : Instr) :
    ∃ header operands, encode i = header :: operands ∧ operandCount header = operands.length := by
  have hlen : Laws.EncodedLength.Statement i := by
    cases i with
    | newsession => exact Laws.EncodedLength.newsession
    | init => exact Laws.EncodedLength.init ..
    | feedaad => exact Laws.EncodedLength.feedaad ..
    | feedmsg => exact Laws.EncodedLength.feedmsg ..
    | updsize => exact Laws.EncodedLength.updsize ..
    | finsize => exact Laws.EncodedLength.finsize ..
    | finalize => exact Laws.EncodedLength.finalize ..
    | reset => exact Laws.EncodedLength.reset
    | mac => exact Laws.EncodedLength.mac
    | algid => exact Laws.EncodedLength.algid
  obtain ⟨header, operands, r, henc, hr, hn⟩ := hlen
  exact ⟨header, operands, henc, by rw [operandCount, hr, hn]⟩

/-- Settles O3: the table's number of a command's words gives the words back. -/
theorem tableBitsDecode : Obligations.TableBitsDecode := by
  intro i h
  obtain ⟨header, operands, henc, hcount⟩ := encode_eq_cons i
  rw [decodeTableWord_eq_some_iff, henc, tableWords_packWords hcount, ← henc]
  exact decode_encode h

/-- Settles O7: the example words are the encoder's. -/
theorem exampleWordsDecode : Obligations.ExampleWordsDecode := by
  have hword : ∀ {words : List Word} {i : Instr}, words = encode i → i.wellFormed = true → decode words = .instr i :=
    fun he h => he ▸ decode_encode h
  refine ⟨hword ?_ ?_, hword ?_ ?_, hword ?_ ?_, hword ?_ ?_, hword ?_ ?_, hword ?_ ?_, hword ?_ ?_, hword ?_ ?_,
    hword ?_ ?_, hword ?_ ?_, hword ?_ ?_⟩ <;> decide

/-! What is IllegalCommand (R86, R87, R267). -/

/-- R267: a transaction that is refused for another reason than its length is IllegalCommand. -/
theorem runCommand_of_reject {words : List Word} {why : Reject} (h : decode words = .reject why)
    (hwhy : why ≠ .commandLength) (s : State) :
    runCommand words s = .next { s with response := bareResponse .illegalCommand, requests := [] } := by
  rw [← refuse_begin, runCommand, h]
  cases why with
  | commandLength => exact absurd rfl hwhy
  | _ => rfl

/-- R86, R87: a header that selects no row is IllegalCommand, whatever words follow it. -/
theorem runCommand_of_no_row {header : Word} (h : selectRow header = none) (operands : List Word) (s : State) :
    runCommand (header :: operands) s =
      .next { s with response := bareResponse .illegalCommand, requests := [] } := by
  have hd : decode (header :: operands) = .reject (rejectHeader header) := by rw [decode, h]
  refine runCommand_of_reject hd ?_ s
  rw [rejectHeader]
  split <;> decide

/-- Settles O5: the `OPC` of a row is 1 to 10. -/
theorem reservedOpcodeIsIllegalCommand : Obligations.ReservedOpcodeIsIllegalCommand := by
  intro header operands s hopc
  refine runCommand_of_no_row (Option.eq_none_iff_forall_ne_some.mpr fun r hr => ?_) operands s
  have hrange : ∀ op, 1 ≤ (opcodeNumber op).toNat ∧ (opcodeNumber op).toNat ≤ 10 := by
    intro op; cases op <;> decide
  have := hrange r.op
  rw [opcField_of_selectRow hr] at hopc
  omega

/-- R87: a header with a must-be-zero bit selects no row. -/
theorem selectRow_of_mustBeZero {header : Word}
    (h : header.extractLsb' 18 6 ≠ 0 ∨ (opcField header ≠ 2 ∧ header.extractLsb' 0 18 ≠ 0)) :
    selectRow header = none := by
  refine Option.eq_none_iff_forall_ne_some.mpr fun r hr => ?_
  rcases header_of_selectRow hr with ⟨-, hh⟩ | ⟨-, hh⟩ <;> rw [hh] at h
  · exact h.elim (fun hrsv => hrsv (rsv_headerWord ..)) fun hlow => hlow.1 (opcField_headerWord ..)
  · exact h.elim (fun hrsv => hrsv (rsv_headerWord ..)) fun hlow => hlow.2 (lowBits_headerWord _)

/-- Settles O6: a header with such a bit has no row; INIT's row asks for a zero descriptor when `K = 0`; no row asks for
anything else. -/
theorem mustBeZeroBits : Obligations.MustBeZeroBits := by
  refine ⟨fun header operands s h => ?_, fun header keyOff keyLen nonceOff nonceLen aadOff aadLen s hopc hk hdesc => ?_,
    fun r header operands hr hm hlen hk => ?_⟩
  · have hrow := selectRow_of_mustBeZero h
    exact ⟨by rw [operandCount, hrow], runCommand_of_no_row hrow operands s⟩
  · by_cases hrsv : header.extractLsb' 18 6 = 0
    · have hrow := selectRow_of_mem (header := header) (r := ⟨.init, 0x02000000, 0xFFFC0000, 6⟩) (by decide)
        ((init_header_iff header).mpr ⟨hopc, hrsv⟩)
      have hbad : ¬ keyDescriptorOk (kField header) keyOff keyLen = true := by
        rw [hk, keyDescriptorOk, Bool.false_or, Bool.and_eq_true, beq_iff_eq, beq_iff_eq]
        tauto
      have hrej : decode [header, keyOff, keyLen, nonceOff, nonceLen, aadOff, aadLen] =
          .reject .keyDescriptorWithoutKey := (decode_of_selectRow hrow _).trans (if_neg hbad)
      exact runCommand_of_reject hrej (by decide) s
    · exact runCommand_of_no_row (selectRow_of_mustBeZero (.inl hrsv)) _ s
  · have hrow := selectRow_of_mem hr hm
    rw [decode_of_selectRow hrow]
    rcases decodeOperands_of_length hrow (hlen.trans (operands_eq_operandWords r hr)) with
      ⟨i, hi, -⟩ | ⟨hop, hzero, -⟩
    · exact ⟨i, hi⟩
    · exact absurd ((hk hop).symm.trans hzero) (by decide)

end Sys2Proof

/-! PROOFS. The shape of the response (spec/30_encoding.md R88). -/

namespace Sys2Proof.Machine

open Sys2Proof.Safety

/-! What a command answers. -/

/-- R88: the commands whose response has a value. -/
def answersValue : Instr → Bool
  | .feedmsg _ _ _ _ | .finalize _ _ | .updsize _ | .finsize _ => true
  | _ => false

/-- R88, R273, R274: the response of the command `i`, begun in `s`, whose next state is `t`: a bare one, a value, or the
data of MAC or ALGID. -/
inductive Answer (P : Platform) (s t : State) (i : Instr) : Prop
  | bare (st : Status) (h : t.response = bareResponse st)
  | value (val : Nat) (hval : answersValue i = false → val = 0) (h : t.response = okResponse val [])
  | tag (hi : i = .mac) (hp : s.phase = .final) (h : t.response = okResponse 0 (macBytes s))
  | name (hi : i = .algid) (h : t.response = okResponse 0 (P.hpName.string ++ ocbSuffix))

/-- R88 for an outcome; a command that stops has no response. -/
def Answered (P : Platform) (s : State) (i : Instr) : Result → Prop
  | .next t => Answer P s t i
  | .fault _ => True
  | .refused _ => True

/-- R190: FINALIZE, its checks passed, answers AuthenticationFailed or a value. -/
theorem answer_closeMessage (P : Platform) (s : State) (outOff outLen : Word) :
    Answer P s (closeMessage P outOff.toNat (begin s)) (.finalize outOff outLen) := by
  rcases closeMessage_cases P outOff.toNat (begin s) with
    ⟨-, out, requests, h⟩ | ⟨w, out, macBlock, macLen, requests, hashLane, ladder, -, h⟩
  · exact .bare .authenticationFailed (by rw [h])
  · exact .value w nofun (by rw [h])

/-- Each command, at each of its ends. -/
theorem answered_execOn (P : Platform) (s : State) (i : Instr) : Answered P s i (execOn P i s) := by
  cases i <;> simp only [execOn]
  case newsession =>
    rw [newSessionOn_eq]
    split
    · exact .value 0 (fun _ => rfl) rfl
    · exact .bare _ rfl
  case init =>
    rw [initOn_eq]
    iterate 6 (split; · exact .bare _ rfl)
    exact .value 0 (fun _ => rfl) rfl
  case feedaad =>
    rw [feedAadOn_eq]
    iterate 2 (split; · exact .bare _ rfl)
    split
    · exact True.intro
    · exact .value 0 (fun _ => rfl) rfl
  case feedmsg =>
    rw [feedMsgOn_eq]
    iterate 3 (split; · exact .bare _ rfl)
    split
    · exact True.intro
    · exact .value _ nofun rfl
  case updsize =>
    rw [execUpdsize_eq]
    split
    · exact .value _ nofun rfl
    · exact .bare _ rfl
  case finsize =>
    rw [execFinsize_eq]
    split
    · exact .value _ nofun rfl
    · exact .bare _ rfl
  case finalize outOff outLen =>
    rw [finalizeOn_eq]
    iterate 5 (split; · exact .bare _ rfl)
    exact answer_closeMessage P s outOff outLen
  case reset =>
    rw [resetOn_eq]
    split
    · exact .value 0 (fun _ => rfl) rfl
    · exact .bare _ rfl
  case mac =>
    rw [execMac_eq]
    iterate 2 (split; · exact .bare _ rfl)
    exact .tag rfl (not_not.mp ‹_›) rfl
  case algid =>
    rw [algIdOn_eq]
    split
    · exact .bare _ rfl
    · exact .name rfl rfl

/-! The shape. -/

theorem responseOk_bareResponse (st : Status) : ResponseOk (bareResponse st) :=
  ⟨Nat.zero_le 32, fun _ h _ => zeroBytes_getElem h, fun _ => ⟨rfl, rfl, rfl⟩⟩

theorem responseOk_okResponse (val : Nat) {data : List Byte} (h : data.length ≤ 32) :
    ResponseOk (okResponse val data) := by
  have hlen : (okResponse val data).rlen.toNat = data.length := by
    rw [okResponse, BitVec.toNat_ofNat]; omega
  refine ⟨hlen.trans_le h, fun i hi hge => ?_, fun hne => absurd rfl hne⟩
  rw [hlen] at hge
  simp only [okResponse, ofList_getElem _ hi, List.getD_eq_default _ _ hge]

/-- R37, R202: a tag that MAC answers is at most 16 bytes long. -/
theorem length_macBytes_le {P : Platform} {s : State} (hs : SessionOk P s) (hp : s.phase = .final) :
    (macBytes s).length ≤ 16 := by
  obtain ⟨-, -, hlen, h16⟩ := hs.final hp
  rw [macBytes, slice_length, hlen]
  exact h16

/-- R221, R227: ALGID's name with its suffix is at most 32 bytes long. -/
theorem length_algId_le (name : StrapName) : (name.string ++ ocbSuffix).length ≤ 32 := by
  have := name.lenLess1.isLt
  simp only [StrapName.string, ocbSuffix, List.length_append, List.length_take, List.length_cons, List.length_nil]
  omega

/-- Settles O13: a bare response is zero but for its status; a value comes without data, data without a value. -/
theorem responsesHaveTheirShape : Obligations.ResponsesHaveTheirShape := by
  intro i s t hs h
  have hanswer := answered_execOn Config.platform s i
  rw [← exec_eq_execOn, h] at hanswer
  cases hanswer with
  | bare st hr =>
    rw [hr]
    refine ⟨responseOk_bareResponse st, ?_⟩
    cases i with
    | feedmsg | finalize | updsize | finsize | mac | algid => exact rfl
    | _ => exact ⟨rfl, rfl⟩
  | value val hval hr =>
    rw [hr]
    refine ⟨responseOk_okResponse val (Nat.zero_le 32), ?_⟩
    cases i with
    | feedmsg | finalize | updsize | finsize => exact rfl
    | mac | algid => rw [hval rfl]; rfl
    | _ => rw [hval rfl]; exact ⟨rfl, rfl⟩
  | tag hi hp hr =>
    subst hi
    rw [hr]
    exact ⟨responseOk_okResponse 0 ((length_macBytes_le hs hp).trans (by decide)), rfl⟩
  | name hi hr =>
    subst hi
    rw [hr]
    exact ⟨responseOk_okResponse 0 (length_algId_le _), rfl⟩

end Sys2Proof.Machine

/-! PROOFS. Whole messages (spec/30_encoding.md R90): the expansions of ENCRYPT and DECRYPT, command by command, and the
closed form of R203 they leave in OBUF. -/

namespace Sys2Proof.Machine

open Sys2Proof.Safety

variable {P : Platform} {s t : State}

/-! The commands of a message, each with nothing to refuse (R276). -/

/-- R150: FEEDAAD, its checks passed. -/
theorem feedAadOn_completes {inOff len : Word} (hp : s.phase = .ready)
    (hin : inOff.toNat + len.toNat ≤ P.ibufSize.val)
    (hc : s.hashLane.hashCount.toNat + (s.hashLane.hashPos.toNat + len.toNat) / 16 < 2 ^ 64) :
    feedAadOn P inOff len s = .next (respond 0 [] (absorb P (inputBytes s inOff len) (begin s))) := by
  rw [feedAadOn_eq, if_neg (not_not.mpr hp), if_neg (not_not.mpr hin), if_neg (Nat.not_le.mpr hc)]

/-- R170: FEEDMSG, its checks passed. -/
theorem feedMsgOn_completes {inOff len outOff outLen : Word} (hp : s.phase = .ready)
    (hin : inOff.toNat + len.toNat ≤ P.ibufSize.val) (hout : outLen.toNat ≤ P.obufSize.val)
    (hroom : outOff.toNat + updsize s len.toNat ≤ outLen.toNat)
    (hc : s.mainLane.mainCount.toNat + updsize s len.toNat / 16 < 2 ^ 64) :
    feedMsgOn P inOff len outOff outLen s =
      .next (respond (feedMain P outOff.toNat (inputBytes s inOff len) 0 (begin s)).1 []
        (feedMain P outOff.toNat (inputBytes s inOff len) 0 (begin s)).2) := by
  rw [feedMsgOn_eq, if_neg (not_not.mpr hp), if_neg (not_not.mpr ⟨hin, hout⟩), if_neg (not_not.mpr hroom),
    if_neg (Nat.not_le.mpr hc)]

/-- R190: FINALIZE, its checks passed. -/
theorem finalizeOn_completes {outOff outLen : Word} (hp : s.phase = .ready) (hout : outLen.toNat ≤ P.obufSize.val)
    (ht : s.tagLen.toNat ≤ 16) (hd : dataTooShort s = false) (hroom : outOff.toNat + finsize s 0 ≤ outLen.toNat) :
    finalizeOn P outOff outLen s = .next (closeMessage P outOff.toNat (begin s)) := by
  rw [finalizeOn_eq, if_neg (not_not.mpr hp), if_neg (not_not.mpr hout), if_neg (Nat.not_lt.mpr ht),
    if_neg (Bool.eq_false_iff.mp hd), if_neg (not_not.mpr hroom)]

/-- R88: the value of a response that reports `w` bytes. -/
theorem okResponse_rval {w : Nat} (data : List Byte) (h : w < 2 ^ 64) : (okResponse w data).rval.toNat = w := by
  rw [okResponse, BitVec.toNat_ofNat, Nat.mod_eq_of_lt h]

/-! What a feed leaves of a session. -/

/-- A session in which `fed` has been fed since the last reset, ready for more. -/
structure SessionFed (P : Platform) (fed : Fed) (s : State) : Prop where
  ok : SessionOk P s
  ready : s.phase = .ready
  holds : SessionHolds P fed.aad fed.msg s

/-- A command that ends OK in `READY` leaves a session with what it has fed. -/
theorem sessionFed_of_commandEnd {i : Instr} {fed : Fed} (h : SessionFed P fed s) (he : CommandEnd P s t i)
    (hr : t.response.rstat = .ok) (hp : t.phase = .ready) : SessionFed P (fedAfter i s fed) t := by
  have hholds := sessionHolds_of_commandEnd h.ok (fun _ => h.holds) he (.inl hp)
  rw [fedAfterEnd, if_pos hr] at hholds
  exact ⟨sessionOk_of_commandEnd h.ok he, hp, hholds⟩

/-- R150: a FEEDAAD whose descriptor fits, far from the end of the counter. -/
theorem feedAadOn_feeds {fed : Fed} {inOff len : Word} (h : SessionFed P fed s)
    (hin : inOff.toNat + len.toNat ≤ P.ibufSize.val) (hn : fed.aad.length + len.toNat < 2 ^ 64) :
    ∃ t, feedAadOn P inOff len s = .next t ∧ t.response.rstat = .ok ∧ t.obuf = s.obuf ∧ SessionKept s t ∧
      SessionFed P ⟨fed.aad ++ inputBytes s inOff len, fed.msg⟩ t := by
  have hpos := h.holds.hash.pos
  have hcount := h.holds.hash.count
  have hrun := feedAadOn_completes h.ready hin (by omega)
  have ho := onlyHash_absorb P (inputBytes s inOff len) (begin s)
  have hobuf := onlyHash_obuf ho
  have he : CommandEnd P s _ (.feedaad inOff len) := .aadFed hrun rfl
  exact ⟨_, hrun, rfl, hobuf, sessionKept_of_commandEnd he rfl,
    sessionFed_of_commandEnd h he rfl ((onlyHash_phase ho).trans h.ready)⟩

/-- R174, R176: the bytes FEEDMSG writes are those of the blocks it completes. -/
theorem updsize_of_holds {A : Block → Block} {lD start : Block} {msg : List Byte}
    (h : MainLaneHolds A lD start s.mode s.tagLen.toNat msg s.mainLane) (n : Nat) :
    updsize s n =
      16 * (fedBlocks s.mode s.tagLen.toNat (msg.length + n) - fedBlocks s.mode s.tagLen.toNat msg.length) := by
  have hpos := h.pos
  rw [updsize_eq, blocksDone, mainBufLen_eq, fedBlocks_eq _ _ (msg.length + n), hpos]
  rw [fedBlocks_eq]
  omega

/-- R170, R203: the bytes FEEDMSG writes and counts. -/
theorem feedMain_output {msg bytes : List Byte} (outOff : Nat) (hl : LadderOk s.lDollar s.ladder)
    (ht : s.tagLen.toNat ≤ 32)
    (h : MainLaneHolds (payloadPerm P s.mpKey s.mode) s.lDollar s.offsetMain0 s.mode s.tagLen.toNat msg s.mainLane)
    (hn : msg.length + bytes.length < 2 ^ 64) :
    let out := cryptBlocks (payloadPerm P s.mpKey s.mode) s.lDollar s.offsetMain0 (msg ++ bytes)
      (fedBlocks s.mode s.tagLen.toNat msg.length) (updsize s bytes.length / 16)
    (feedMain P outOff bytes 0 s).1 = out.length ∧
      (feedMain P outOff bytes 0 s).2.obuf = s.obuf.write outOff out := by
  intro out
  obtain ⟨-, -, hcount, hobuf, -⟩ := feedMain_spec P outOff bytes 0 hl
  have hfed := fedBlocks_le s.mode s.tagLen.toNat (msg.length + bytes.length)
  obtain ⟨hout, -⟩ := mainLaneHolds_feed ht bytes msg h (by omega)
  have hblocks : updsize s bytes.length / 16 =
      fedBlocks s.mode s.tagLen.toNat (msg.length + bytes.length) - fedBlocks s.mode s.tagLen.toNat msg.length := by
    rw [updsize_of_holds h, Nat.mul_div_cancel_left _ (by decide)]
  rw [mainFeedIn, mainBufLen_eq, hout, ← hblocks] at hcount hobuf
  rw [Nat.zero_add] at hcount
  exact ⟨hcount, hobuf⟩

/-- R170, R203: a FEEDMSG whose descriptors fit, with room for the blocks it completes, far from the end of the
counter. -/
theorem feedMsgOn_feeds {fed : Fed} {inOff len outOff outLen : Word} (h : SessionFed P fed s)
    (hin : inOff.toNat + len.toNat ≤ P.ibufSize.val) (hout : outLen.toNat ≤ P.obufSize.val)
    (hroom : outOff.toNat + updsize s len.toNat ≤ outLen.toNat) (hn : fed.msg.length + len.toNat < 2 ^ 64) :
    ∃ t, feedMsgOn P inOff len outOff outLen s = .next t ∧ t.response.rstat = .ok ∧
      t.response.rval.toNat = updsize s len.toNat ∧
      t.obuf = s.obuf.write outOff.toNat (cryptBlocks (payloadPerm P s.mpKey s.mode) s.lDollar s.offsetMain0
        (fed.msg ++ inputBytes s inOff len) (fedBlocks s.mode s.tagLen.toNat fed.msg.length)
        (updsize s len.toNat / 16)) ∧
      SessionKept s t ∧ SessionFed P ⟨fed.aad, fed.msg ++ inputBytes s inOff len⟩ t := by
  have hmain := h.holds.main
  have hupd := updsize_of_holds hmain len.toNat
  have hfed := fedBlocks_le s.mode s.tagLen.toNat (fed.msg.length + len.toNat)
  have hmono := fedBlocks_mono s.mode s.tagLen.toNat (Nat.le_add_right fed.msg.length len.toNat)
  have hcount := hmain.count
  have ht := tagLen_le_of_ready h.ok h.ready
  have hrun := feedMsgOn_completes h.ready hin hout hroom (by omega)
  obtain ⟨-, hobuf⟩ := feedMain_output (s := begin s) (bytes := inputBytes s inOff len) outOff.toNat h.ok.ladder
    ht hmain (by rw [inputBytes_length]; exact hn)
  rw [inputBytes_length] at hobuf
  obtain ⟨ho, -⟩ := onlyMain_feedMain P outOff.toNat (inputBytes s inOff len) 0 (begin s)
  have he : CommandEnd P s _ (.feedmsg inOff len outOff outLen) := .msgFed hrun rfl
  exact ⟨_, hrun, rfl, (feedMsg_position h.ok hrun rfl).1, hobuf, sessionKept_of_commandEnd he rfl,
    sessionFed_of_commandEnd h he rfl ((onlyMain_phase ho).trans h.ready)⟩

/-! The end of a message (R190, R203). -/

/-- R197, R203: FINALIZE in Encrypt mode writes the last piece of the ciphertext and the tag. -/
theorem finalizeOn_encrypts {aad x : List Byte} {outOff outLen : Word} (h : SessionFed P ⟨aad, x⟩ s)
    (hm : s.mode = .encrypt) (ht : s.tagLen.toNat ≤ 16) (hout : outLen.toNat ≤ P.obufSize.val)
    (hroom : outOff.toNat + x.length % 16 + s.tagLen.toNat ≤ outLen.toNat) :
    ∃ t, finalizeOn P outOff outLen s = .next t ∧
      MessageClosed P (begin s) t outOff.toNat (x.length % 16 + s.tagLen.toNat)
        (cryptTail (permEnc P s.hpKey) s.lStar s.lDollar s.offsetMain0 x ++
          tagOf (permEnc P s.hpKey) s.lStar s.lDollar s.offsetMain0 s.tagLen.toNat aad x) := by
  obtain ⟨hlen, hpart, htag⟩ := holds_encrypt h.holds hm
  have hfin : finsize s 0 = x.length % 16 + s.tagLen.toNat := by
    rw [← hlen]; simp only [finsize, partialLen, hm, Nat.add_zero]
  refine ⟨_, finalizeOn_completes h.ready hout ht (by simp only [dataTooShort, hm]) (by omega), ?_⟩
  have hc := closeMessage_encrypt P (s := begin s) outOff.toNat hm (hlen.trans_lt (Nat.mod_lt _ (by decide))) ht
  rw [← hpart, ← htag, ← hlen]
  exact hc

/-- R191, R198, R203: FINALIZE in Decrypt mode, the tag of the AAD and the plaintext fed behind the ciphertext `x`, writes
the last piece of the plaintext. -/
theorem finalizeOn_decrypts {aad x tag : List Byte} {outOff outLen : Word} (h : SessionFed P ⟨aad, x ++ tag⟩ s)
    (hm : s.mode = .decrypt) (ht : s.tagLen.toNat ≤ 16) (hlen : tag.length = s.tagLen.toNat)
    (htag : tag = tagOf (permEnc P s.hpKey) s.lStar s.lDollar s.offsetMain0 s.tagLen.toNat aad
      (cryptText (permDec P s.mpKey) (permEnc P s.hpKey) s.lStar s.lDollar s.offsetMain0 x))
    (hout : outLen.toNat ≤ P.obufSize.val) (hroom : outOff.toNat + x.length % 16 ≤ outLen.toNat) :
    ∃ t, finalizeOn P outOff outLen s = .next t ∧
      MessageClosed P (begin s) t outOff.toNat (x.length % 16)
        (cryptTail (permEnc P s.hpKey) s.lStar s.lDollar s.offsetMain0 x) := by
  obtain ⟨hpos, hpartLen, hcand, hpart, hexp⟩ := holds_decrypt h.holds hm hlen
  have hfin : finsize s 0 = x.length % 16 := by
    rw [← hpartLen]; simp only [finsize, partialLen, hm, Nat.add_zero]
  have hge : s.tagLen.toNat ≤ s.mainLane.mainPos.toNat := by omega
  have hd : dataTooShort s = false := by simpa only [dataTooShort, hm, decide_eq_false_iff_not, not_lt] using hge
  refine ⟨_, finalizeOn_completes h.ready hout ht hd (by omega), ?_⟩
  have hc := closeMessage_accept P (s := begin s) outOff.toNat hm hge
    (hpartLen.trans_lt (Nat.mod_lt _ (by decide))) ht (hexp.trans (htag.symm.trans hcand.symm))
  rw [← hpart, ← hpartLen]
  exact hc

/-! The start of a session (R222). -/

/-- R130 to R135: the initial offset is that of the nonce, whether the cache hits or misses. -/
theorem offsetMain0_nonceExpander (nonce : List Byte) (h : s.ktopValid = true → KtopOk P s) :
    (nonceExpander P nonce s).offsetMain0 = initialOffset P (permEnc P s.hpKey) s.tagLen.toNat nonce := by
  obtain ⟨hstretch, -⟩ := fillKtop_stretch h (maskBottom (formatNonce P s.tagLen.toNat nonce))
  rw [nonceExpander, hstretch]
  rfl

/-- R22, R25, R26, R30, R40: the parameters of a session under the key `key`. -/
structure SessionParams (P : Platform) (mode : Mode) (tagLen : Nat) (key : Key) (start : Block) (s : State) : Prop where
  mode : s.mode = mode
  tagLen : s.tagLen.toNat = tagLen
  hpKey : s.hpKey = some key
  mpKey : s.mpKey = some key
  lStar : s.lStar = P.perm key (zeroBytes 16)
  lDollar : s.lDollar = double (P.perm key (zeroBytes 16))
  start : s.offsetMain0 = start

/-- R44: a session that is kept keeps its parameters. -/
theorem sessionParams_of_kept {mode : Mode} {tagLen : Nat} {key : Key} {start : Block}
    (h : SessionParams P mode tagLen key start s) (hk : SessionKept s t) : SessionParams P mode tagLen key start t := by
  rw [hk.frame]
  exact ⟨h.mode, h.tagLen, h.hpKey, h.mpKey, h.lStar, h.lDollar, h.start⟩

theorem ibuf_of_kept (hk : SessionKept s t) : t.ibuf = s.ibuf := by rw [hk.frame]

/-- The bytes a descriptor names depend on IBUF only. -/
theorem inputBytes_congr (h : t.ibuf = s.ibuf) (off len : Word) : inputBytes t off len = inputBytes s off len := by
  simp only [inputBytes, memReadIbuf, readIbuf, h]

/-- R222, R223: the parameters INIT sets with a key. -/
theorem sessionParams_startSession (e : Bool) {tagLenBits : BitVec 16} (h256 : tagLenBits.toNat ≤ 256) (key : Key)
    (nonce aad : List Byte) (s : State) :
    SessionParams P (if e then .encrypt else .decrypt) (tagLenBits.toNat / 8) key
      (initialOffset P (P.perm key) (tagLenBits.toNat / 8) nonce)
      (startSession P e tagLenBits (some key) nonce aad s) := by
  have htag := keyedState_tagLen (P := P) e tagLenBits (some key) s h256
  have hstart := offsetMain0_nonceExpander (P := P) (s := keyedState P e tagLenBits (some key) s) nonce nofun
  rw [htag] at hstart
  rw [startSession_frame]
  exact ⟨rfl, htag, rfl, rfl, rfl, rfl, hstart⟩

/-- A response is no part of the session. -/
theorem sessionKept_respond (val : Nat) (data : List Byte) (s : State) : SessionKept s (respond val data s) :=
  ⟨rfl, List.prefix_refl _⟩

theorem sessionHolds_respond {aad msg : List Byte} (h : SessionHolds P aad msg s) (val : Nat) (data : List Byte) :
    SessionHolds P aad msg (respond val data s) :=
  sessionHolds_congr h rfl rfl rfl rfl rfl rfl rfl rfl

/-- R222, R223: an INIT with `K = 1` whose checks pass opens the session of its key, nonce and AAD. -/
theorem initOn_opens {e : Bool} {tagLenBits : BitVec 16} {keyOff keyLen nonceOff nonceLen aadOff aadLen : Word}
    (hs : SessionOk P s) (hp : s.phase ≠ .noSession) (hlen : P.keyLenOk keyLen.toNat = true)
    (hbits : 32 ≤ tagLenBits.toNat ∧ tagLenBits.toNat ≤ 256 ∧ tagLenBits.toNat % 8 = 0)
    (hnonce : 1 ≤ nonceLen.toNat ∧ nonceLen.toNat ≤ 15)
    (hfits : keyOff.toNat + keyLen.toNat ≤ P.ibufSize.val ∧ nonceOff.toNat + nonceLen.toNat ≤ P.ibufSize.val ∧
      aadOff.toNat + aadLen.toNat ≤ P.ibufSize.val ∧ aadLen.toNat ≤ P.iaadMax.val) :
    ∃ t, initOn P true e tagLenBits keyOff keyLen nonceOff nonceLen aadOff aadLen s = .next t ∧
      t.response.rstat = .ok ∧ t.ibuf = s.ibuf ∧ t.obuf = s.obuf ∧
      SessionParams P (if e then .encrypt else .decrypt) (tagLenBits.toNat / 8) (inputBytes s keyOff keyLen)
        (initialOffset P (P.perm (inputBytes s keyOff keyLen)) (tagLenBits.toNat / 8) (inputBytes s nonceOff nonceLen))
        t ∧
      SessionFed P ⟨inputBytes s aadOff aadLen, []⟩ t := by
  have hrun : initOn P true e tagLenBits keyOff keyLen nonceOff nonceLen aadOff aadLen s =
      .next (respond 0 [] (startSession P e tagLenBits (some (inputBytes s keyOff keyLen))
        (inputBytes s nonceOff nonceLen) (inputBytes s aadOff aadLen) (begin s))) := by
    rw [initOn_eq, if_neg (not_not.mpr (.inl rfl)), if_neg (not_not.mpr ⟨hp, .inl rfl⟩), if_neg (not_not.mpr hbits),
      if_neg (not_not.mpr hnonce), if_neg (not_not.mpr hfits), if_neg (not_not.mpr fun _ => hlen), if_pos rfl]
  have he : CommandEnd P s _ (.init true e tagLenBits keyOff keyLen nonceOff nonceLen aadOff aadLen) :=
    commandEnd_of_execOn hrun
  have hok := sessionOk_of_commandEnd hs he
  have hholds := sessionHolds_startSession P e tagLenBits (some (inputBytes s keyOff keyLen))
    (inputBytes s nonceOff nonceLen) (inputBytes s aadOff aadLen) (s := begin s) hs.ladder
    (by rw [inputBytes_length]; exact aadLen.isLt)
  generalize inputBytes s keyOff keyLen = key at *
  generalize inputBytes s nonceOff nonceLen = nonce at *
  generalize inputBytes s aadOff aadLen = aad at *
  have hparams := sessionParams_startSession (P := P) e hbits.2.1 key nonce aad (begin s)
  have hframe := startSession_frame P e tagLenBits (some key) nonce aad (begin s)
  have hibuf : (startSession P e tagLenBits (some key) nonce aad (begin s)).ibuf = s.ibuf := by rw [hframe]; rfl
  have hready : (startSession P e tagLenBits (some key) nonce aad (begin s)).phase = .ready := by rw [hframe]
  have hobuf := startSession_obuf P e tagLenBits (some key) nonce aad (begin s)
  exact ⟨_, hrun, rfl, hibuf, hobuf, sessionParams_of_kept hparams (sessionKept_respond ..),
    hok, hready, sessionHolds_respond hholds 0 []⟩

/-! The expansions of ENCRYPT and DECRYPT (R90). -/

/-- R68, R222: what the expansion of ENCRYPT or DECRYPT asks of its session, its parameters and its descriptors into
IBUF. -/
structure MessageFits (P : Platform) (tagLenBits : BitVec 16)
    (keyOff keyLen nonceOff nonceLen aadOff aadLen msgOff msgLen : Word) (s : State) : Prop where
  inv : Inv P s
  opened : s.phase ≠ .noSession
  keyAccepted : P.keyLenOk keyLen.toNat = true
  tagAccepted : 32 ≤ tagLenBits.toNat ∧ tagLenBits.toNat ≤ 128 ∧ tagLenBits.toNat % 8 = 0
  nonceAccepted : 1 ≤ nonceLen.toNat ∧ nonceLen.toNat ≤ 15
  key : keyOff.toNat + keyLen.toNat ≤ P.ibufSize.val
  nonce : nonceOff.toNat + nonceLen.toNat ≤ P.ibufSize.val
  aad : aadOff.toNat + aadLen.toNat ≤ P.ibufSize.val
  msg : msgOff.toNat + msgLen.toNat ≤ P.ibufSize.val

/-- R90: INIT without an initial AAD, FEEDAAD and FEEDMSG: the full blocks of the message are in OBUF, and the session
holds the AAD and the message. -/
theorem message_feeds {tagLenBits : BitVec 16}
    {keyOff keyLen nonceOff nonceLen aadOff aadLen msgOff msgLen outOff outLen : Word} (e : Bool)
    (hf : MessageFits P tagLenBits keyOff keyLen nonceOff nonceLen aadOff aadLen msgOff msgLen s)
    (hout : outLen.toNat ≤ P.obufSize.val)
    (hroom : outOff.toNat + 16 * fedBlocks (if e then .encrypt else .decrypt) (tagLenBits.toNat / 8) msgLen.toNat ≤
      outLen.toNat) :
    let mode : Mode := if e then .encrypt else .decrypt
    let tagLen := tagLenBits.toNat / 8
    let key := inputBytes s keyOff keyLen
    let start := initialOffset P (P.perm key) tagLen (inputBytes s nonceOff nonceLen)
    let msg := inputBytes s msgOff msgLen
    ∃ s1 s2 s3, initOn P true e tagLenBits keyOff keyLen nonceOff nonceLen 0 0 s = .next s1 ∧
      feedAadOn P aadOff aadLen s1 = .next s2 ∧
      feedMsgOn P msgOff msgLen outOff outLen s2 = .next s3 ∧
      s1.response.rstat = .ok ∧ s2.response.rstat = .ok ∧ s3.response.rstat = .ok ∧
      s3.response.rval.toNat = 16 * fedBlocks mode tagLen msgLen.toNat ∧
      s3.obuf = s.obuf.write outOff.toNat (cryptBlocks (payloadPerm P (some key) mode)
        (double (P.perm key (zeroBytes 16))) start msg 0 (fedBlocks mode tagLen msgLen.toNat)) ∧
      SessionParams P mode tagLen key start s3 ∧ SessionFed P ⟨inputBytes s aadOff aadLen, msg⟩ s3 := by
  intro mode tagLen key start msg
  obtain ⟨h32, h128, h8⟩ := hf.tagAccepted
  obtain ⟨s1, hrun1, hok1, hibuf1, hobuf1, hparams1, hfed1⟩ := initOn_opens (e := e) (aadOff := 0) (aadLen := 0)
    hf.inv.session hf.opened hf.keyAccepted ⟨h32, by omega, h8⟩ hf.nonceAccepted
    ⟨hf.key, hf.nonce, Nat.zero_le _, Nat.zero_le _⟩
  have hempty : inputBytes s 0 0 = [] := rfl
  rw [hempty] at hfed1
  obtain ⟨s2, hrun2, hok2, hobuf2, hkept2, hfed2⟩ := feedAadOn_feeds hfed1 hf.aad
    (by have := aadLen.isLt; simp only [List.length_nil]; omega)
  have hibuf2 := (ibuf_of_kept hkept2).trans hibuf1
  have hparams2 : SessionParams P mode tagLen key start s2 := sessionParams_of_kept hparams1 hkept2
  have hzero : fedBlocks s2.mode s2.tagLen.toNat ([] : List Byte).length = 0 := by
    rw [fedBlocks_eq, List.length_nil]; omega
  have hupd : updsize s2 msgLen.toNat = 16 * fedBlocks mode tagLen msgLen.toNat := by
    rw [updsize_of_holds hfed2.holds.main, hzero, hparams2.mode, hparams2.tagLen, List.length_nil, Nat.zero_add,
      Nat.sub_zero]
  obtain ⟨s3, hrun3, hok3, hrval, hobuf3, hkept3, hfed3⟩ := feedMsgOn_feeds hfed2 hf.msg hout
    (by rw [hupd]; exact hroom) (by have := msgLen.isLt; simp only [List.length_nil]; omega)
  refine ⟨s1, s2, s3, hrun1, hrun2, hrun3, hok1, hok2, hok3, hrval.trans hupd, ?_,
    sessionParams_of_kept hparams2 hkept3, ?_⟩
  · rw [hobuf3, hzero, hupd, Nat.mul_div_cancel_left _ (by decide), hparams2.mode, hparams2.mpKey, hparams2.lDollar,
      hparams2.start, hobuf2, hobuf1, inputBytes_congr hibuf2, List.nil_append]
  · rw [inputBytes_congr hibuf1, inputBytes_congr hibuf2] at hfed3
    exact hfed3

/-- R61: a written string, read back. -/
theorem readObuf_write {m : Memory} {a : Nat} {v : List Byte} (hw : Memory.wf m = true) (h : t.obuf = m.write a v) :
    (List.range v.length).map (fun i => readObuf t (a + i)) = v := by
  refine List.ext_getElem (by simp) fun i _ hi => ?_
  rw [List.getElem_map, List.getElem_range, readObuf, h, Memory.get?_write_of_lt v hw a hi, Option.getD_some]

/-- R199: what stands in OBUF when FINALIZE has written `last` behind the bytes `out` of the feeds before it. -/
theorem readObuf_messageClosed {m : Memory} {a w : Nat} {out last : List Byte} (hw : Memory.wf m = true)
    (h : s.obuf = m.write a out) (hc : MessageClosed P (begin s) t (a + out.length) w last) :
    t.response = okResponse w [] ∧
    (List.range (out ++ last).length).map (fun i => readObuf t (a + i)) = out ++ last := by
  have hresponse := congrArg State.response hc.frame
  have hobuf := congrArg State.obuf hc.frame
  refine ⟨hresponse, readObuf_write hw (hobuf.trans ?_)⟩
  rw [begin_obuf, h, Memory.write_append]

/-- R203: a tag of at most 16 bytes is as long as it says. -/
theorem length_tagOf (E : Block → Block) (lStar lDollar start : Block) {tagLen : Nat} (h : tagLen ≤ 16)
    (aad p : List Byte) : (tagOf E lStar lDollar start tagLen aad p).length = tagLen := by
  rw [tagOf, List.length_take, Vector.length_toList, Nat.min_eq_left h]

/-- R68: an output offset moved behind `n` bytes, inside a window. -/
theorem toNat_add_ofNat {outOff outLen : Word} {n : Nat} (h : outOff.toNat + n ≤ outLen.toNat) :
    (outOff + BitVec.ofNat 32 n).toNat = outOff.toNat + n := by
  have := outLen.isLt
  rw [BitVec.toNat_add, BitVec.toNat_ofNat]
  omega

/-- R203: what ENCRYPT makes of the AAD and the plaintext `p` under `key`: the ciphertext and, behind it, the tag. -/
def sealedBytes (P : Platform) (key : Key) (tagLen : Nat) (start : Block) (aad p : List Byte) : List Byte :=
  let E := P.perm key
  let lStar := E (zeroBytes 16)
  let lDollar := double lStar
  cryptText E E lStar lDollar start p ++ tagOf E lStar lDollar start tagLen aad p

/-- R177: the ciphertext is as long as the plaintext. -/
theorem length_sealedBytes (key : Key) {tagLen : Nat} (h : tagLen ≤ 16) (start : Block) (aad p : List Byte) :
    (sealedBytes P key tagLen start aad p).length = p.length + tagLen := by
  rw [sealedBytes, List.length_append, length_cryptText, length_tagOf _ _ _ _ h]

/-- R10: the forward permutation under a key. -/
theorem permEnc_some (P : Platform) (key : Key) : permEnc P (some key) = P.perm key := rfl

section Close
variable {tagLen : Nat} {key : Key} {start : Block} {aad p : List Byte} {outOff outLen : Word}

/-- R203: in Encrypt mode FINALIZE writes, behind the full blocks of the ciphertext, what is left of it and the tag. -/
theorem finalizeOn_seals (hparams : SessionParams P .encrypt tagLen key start s) (hfed : SessionFed P ⟨aad, p⟩ s)
    (ht : tagLen ≤ 16) (hout : outLen.toNat ≤ P.obufSize.val)
    (hroom : outOff.toNat + p.length % 16 + tagLen ≤ outLen.toNat) :
    ∃ t last, finalizeOn P outOff outLen s = .next t ∧
      MessageClosed P (begin s) t outOff.toNat (p.length % 16 + tagLen) last ∧
      cryptBlocks (payloadPerm P (some key) .encrypt) (double (P.perm key (zeroBytes 16))) start p 0 (p.length / 16) ++
        last = sealedBytes P key tagLen start aad p := by
  obtain ⟨hmode, rfl, hhp, -, hlS, hlD, rfl⟩ := hparams
  obtain ⟨t, hrun, hclosed⟩ := finalizeOn_encrypts hfed hmode ht hout hroom
  rw [hhp, hlS, hlD] at hclosed
  exact ⟨t, _, hrun, hclosed, (List.append_assoc ..).symm⟩

/-- R203, R231: in Decrypt mode FINALIZE, fed what ENCRYPT made of `p`, writes what is left of `p` behind its full
blocks. -/
theorem finalizeOn_unseals (hparams : SessionParams P .decrypt tagLen key start s)
    (hfed : SessionFed P ⟨aad, sealedBytes P key tagLen start aad p⟩ s)
    (ht : tagLen ≤ 16) (hout : outLen.toNat ≤ P.obufSize.val)
    (hroom : outOff.toNat + p.length % 16 ≤ outLen.toNat) :
    ∃ t last, finalizeOn P outOff outLen s = .next t ∧
      MessageClosed P (begin s) t outOff.toNat (p.length % 16) last ∧
      cryptBlocks (payloadPerm P (some key) .decrypt) (double (P.perm key (zeroBytes 16))) start
        (sealedBytes P key tagLen start aad p) 0 (p.length / 16) ++ last = p := by
  obtain ⟨hmode, rfl, hhp, hmp, hlS, hlD, rfl⟩ := hparams
  rw [sealedBytes] at hfed ⊢
  rw [← hlS] at hlD hfed ⊢
  rw [← hlD] at hfed ⊢
  have hplain := cryptText_inverse (E := P.perm key) (permDec_permEnc P key) s.lStar s.lDollar s.offsetMain0 p
  have hlen := length_cryptText (P.perm key) (P.perm key) s.lStar s.lDollar s.offsetMain0 p
  obtain ⟨t, hrun, hclosed⟩ := finalizeOn_decrypts hfed hmode ht (length_tagOf _ _ _ _ ht aad p)
    (by rw [hhp, hmp, permEnc_some, hplain]) hout (by rw [hlen]; exact hroom)
  rw [hhp, permEnc_some, hlen] at hclosed
  refine ⟨t, _, hrun, hclosed, ?_⟩
  rw [cryptBlocks_append _ _ _ _ _ (by omega), ← hlen]
  exact hplain

end Close

/-- Settles O50: FEEDMSG has written the full blocks, FINALIZE writes the last piece and the tag behind them. -/
theorem encryptWholeMessage : Obligations.EncryptWholeMessage := by
  intro P tagLenBits keyOff keyLen nonceOff nonceLen aadOff aadLen msgOff msgLen outOff outLen s hinv hopen hkeyLen
    h32 h128 h8 hn1 hn15 hkey hnonce haad hmsg hroom hout
  have htag16 : tagLenBits.toNat / 8 ≤ 16 := by omega
  obtain ⟨s1, s2, s3, hrun1, hrun2, hrun3, hok1, hok2, hok3, hrval, hobuf, hparams, hfed⟩ :=
    message_feeds (outOff := outOff) (outLen := outLen) true
      ⟨hinv, hopen, hkeyLen, ⟨h32, h128, h8⟩, ⟨hn1, hn15⟩, hkey, hnonce, haad, hmsg⟩ hout
      (by simp only [if_true, fedBlocks]; omega)
  simp only [if_true, fedBlocks] at hrval hobuf hparams
  have hoff : (outOff + BitVec.ofNat 32 s3.response.rval.toNat).toNat = outOff.toNat + 16 * (msgLen.toNat / 16) := by
    rw [hrval]; exact toNat_add_ofNat (outLen := outLen) (by omega)
  obtain ⟨s4, last, hrun4, hclosed, htext⟩ :=
    finalizeOn_seals (outOff := outOff + BitVec.ofNat 32 s3.response.rval.toNat) hparams hfed htag16 hout
      (by rw [hoff, inputBytes_length]; omega)
  rw [inputBytes_length] at hclosed htext
  rw [hoff, ← length_cryptBlocks] at hclosed
  obtain ⟨hresponse, hread⟩ := readObuf_messageClosed hinv.buffers.obufWf hobuf hclosed
  rw [htext, length_sealedBytes _ htag16, inputBytes_length] at hread
  refine ⟨s1, s2, s3, s4, hrun1, hrun2, hrun3, hrun4, hok1, hok2, hok3, by rw [hresponse]; rfl, ?_, hread⟩
  rw [hrval, hresponse, okResponse_rval _ (by omega)]
  omega

/-- Settles O51: FEEDMSG has written the full blocks of the plaintext of the ciphertext, and FINALIZE, the tag being that
of this plaintext, writes its last piece behind them. -/
theorem decryptInvertsEncrypt : Obligations.DecryptInvertsEncrypt := by
  intro P tagLenBits keyOff keyLen nonceOff nonceLen aadOff aadLen msgOff msgLen outOff outLen p s hinv hopen hkeyLen
    h32 h128 h8 hn1 hn15 hkey hnonce haad hmsg hroom hout hinput
  have htag16 : tagLenBits.toNat / 8 ≤ 16 := by omega
  replace hinput : inputBytes s msgOff msgLen = sealedBytes P (inputBytes s keyOff keyLen) _ _ _ p := hinput
  have hblocks : fedBlocks .decrypt (tagLenBits.toNat / 8) msgLen.toNat = p.length / 16 := by
    rw [fedBlocks, ← inputBytes_length s msgOff, hinput, length_sealedBytes _ htag16, Nat.add_sub_cancel]
  obtain ⟨s1, s2, s3, hrun1, hrun2, hrun3, hok1, hok2, hok3, hrval, hobuf, hparams, hfed⟩ :=
    message_feeds (outOff := outOff) (outLen := outLen) false
      ⟨hinv, hopen, hkeyLen, ⟨h32, h128, h8⟩, ⟨hn1, hn15⟩, hkey, hnonce, haad, hmsg⟩ hout
      (by simp only [Bool.false_eq_true, if_false, hblocks]; omega)
  simp only [Bool.false_eq_true, if_false, hblocks] at hrval hobuf hparams
  rw [hinput] at hobuf hfed
  have hoff : (outOff + BitVec.ofNat 32 s3.response.rval.toNat).toNat = outOff.toNat + 16 * (p.length / 16) := by
    rw [hrval]; exact toNat_add_ofNat (outLen := outLen) (by omega)
  obtain ⟨s4, last, hrun4, hclosed, htext⟩ :=
    finalizeOn_unseals (outOff := outOff + BitVec.ofNat 32 s3.response.rval.toNat) hparams hfed htag16 hout
      (by rw [hoff]; omega)
  rw [hoff, ← length_cryptBlocks] at hclosed
  obtain ⟨hresponse, hread⟩ := readObuf_messageClosed hinv.buffers.obufWf hobuf hclosed
  rw [htext] at hread
  refine ⟨s1, s2, s3, s4, hrun1, hrun2, hrun3, hrun4, hok1, hok2, hok3, by rw [hresponse]; rfl, ?_, hread⟩
  rw [hrval, hresponse, okResponse_rval _ (by omega)]
  omega

end Sys2Proof.Machine

/-! PROOFS. GF(2^128) doubling, `ntz` and the `L` ladder (spec/40_gf_double_ladder.md R110 to R116). -/

namespace Sys2Proof.Machine

open Sys2Proof.Safety

/-! A byte string as a big-endian number (R12): one more byte behind it, and its bound. -/

theorem bytesNumber_concat (l : List Byte) (b : Byte) : bytesNumber (l ++ [b]) = bytesNumber l * 256 + b.toNat := by
  rw [bytesNumber, List.foldl_concat, bytesNumber]

theorem bytesNumber_lt (l : List Byte) : bytesNumber l < 256 ^ l.length := by
  induction l using List.reverseRecOn with
  | nil => decide
  | append_singleton l b ih =>
    rw [bytesNumber_concat, List.length_append, List.length_singleton, Nat.pow_succ]
    have := b.isLt
    omega

/-- The first `k + 1` bytes of a block as a number, from the first `k`. -/
theorem bytesNumber_take_succ (x : Block) {k : Nat} (h : k < 16) :
    bytesNumber (x.toList.take (k + 1)) = bytesNumber (x.toList.take k) * 256 + x[k].toNat := by
  rw [List.take_succ_eq_append_getElem (by simpa using h), bytesNumber_concat, Vector.getElem_toList]

/-- A block as a number, its last byte split off. -/
theorem blockNumber_eq (x : Block) : blockNumber x = bytesNumber (x.toList.take 15) * 256 + x[15].toNat := by
  rw [← bytesNumber_take_succ x (by decide), blockNumber, List.take_of_length_le (by simp)]

/-! The bytes of `double` (R110). -/

/-- A byte shifted left by one that takes in the top bit of the next byte. -/
theorem toNat_shiftLeft_or_shiftRight (a b : Byte) :
    ((a <<< 1) ||| (b >>> 7)).toNat = 2 * a.toNat % 256 + b.toNat / 128 := by
  have htop : b.toNat / 128 < 2 ^ 1 := by have := b.isLt; omega
  have heven : 2 * a.toNat % 256 = 2 ^ 1 * (a.toNat % 128) := by omega
  rw [heven, Nat.two_pow_add_eq_or_of_lt htop, ← heven]
  simp [Nat.shiftLeft_eq, Nat.shiftRight_eq_div_pow, Nat.mul_comm]

/-- The carry is the top bit of byte 0. -/
theorem toNat_doubleCarry (x : Block) : (doubleCarry x).toNat = x[0].toNat / 128 := by
  have hlt : x[0].toNat / 128 < 2 := by have := x[0].isLt; omega
  have hbit : ((x[0] >>> 7) &&& 1).toNat = x[0].toNat / 128 := by
    rw [BitVec.toNat_and, BitVec.toNat_ushiftRight, Nat.shiftRight_eq_div_pow]
    exact (Nat.and_one_is_mod _).trans (Nat.mod_eq_of_lt hlt)
  obtain h | h : x[0].toNat / 128 = 0 ∨ x[0].toNat / 128 = 1 := by omega
  · have hclear : (x[0] >>> 7) &&& 1 = 0 := BitVec.eq_of_toNat_eq (hbit.trans h)
    rw [doubleCarry, hclear, h]; rfl
  · have hset : (x[0] >>> 7) &&& 1 = 1 := BitVec.eq_of_toNat_eq (hbit.trans h)
    rw [doubleCarry, hset, h]; rfl

theorem getElem_double {i : Nat} (x : Block) (h : i < 15) :
    (double x)[i] = (x[i] <<< 1) ||| (x[i + 1] >>> 7) := by
  simp [double, h]

theorem getElem_double_last (x : Block) :
    (double x)[15] = if doubleCarry x then (x[15] <<< 1) ^^^ 0x87 else x[15] <<< 1 := by
  simp [double]

/-- R110: the first `k` bytes of `double x`, and the carry in front of them, are twice the first `k` bytes of `x` with
the top bit of byte `k` shifted in. -/
theorem bytesNumber_take_double (x : Block) : ∀ {k : Nat} (h : k ≤ 15),
    bytesNumber ((double x).toList.take k) + (doubleCarry x).toNat * 256 ^ k =
      2 * bytesNumber (x.toList.take k) + x[k].toNat / 128
  | 0, _ => by simp [bytesNumber, toNat_doubleCarry]
  | k + 1, h => by
    have ih := bytesNumber_take_double x (k := k) (by omega)
    rw [bytesNumber_take_succ _ (by omega), bytesNumber_take_succ _ (by omega), getElem_double x (by omega),
      toNat_shiftLeft_or_shiftRight, Nat.pow_succ, ← Nat.mul_assoc]
    omega

/-- A byte xored into the last byte of a string is xored into its number. -/
theorem mul_add_toNat_xor (n : Nat) (b m : Byte) :
    n * 256 + (b ^^^ m).toNat = (n * 256 + b.toNat) ^^^ m.toNat := by
  have hbits (c : Byte) (i : Nat) :
      (n * 256 + c.toNat).testBit i = if i < 8 then c.toNat.testBit i else n.testBit (i - 8) := by
    rw [Nat.mul_comm]; exact Nat.testBit_two_pow_mul_add n c.isLt i
  refine Nat.eq_of_testBit_eq fun i => ?_
  rw [Nat.testBit_xor, hbits, hbits, BitVec.toNat_xor, Nat.testBit_xor]
  split
  · rfl
  · rw [Nat.testBit_lt_two_pow (x := m.toNat) (i := i)
      (Nat.lt_of_lt_of_le m.isLt (Nat.pow_le_pow_right (by decide) (by omega))), Bool.xor_false]

/-- Before the xor the 16 bytes of `double x` and the carry in front of them are twice the number. -/
theorem shiftedBytes_add_carry (x : Block) :
    bytesNumber ((double x).toList.take 15) * 256 + (x[15] <<< 1).toNat + (doubleCarry x).toNat * 2 ^ 128 =
      2 * blockNumber x := by
  have hshift := bytesNumber_take_double x (k := 15) (by decide)
  have hlast : (x[15] <<< 1).toNat = 2 * x[15].toNat % 256 := by simp [Nat.shiftLeft_eq, Nat.mul_comm]
  rw [hlast, blockNumber_eq]
  omega

/-- Settles O23: the carry is set exactly when twice the number leaves 128 bits, and what is then xored into the last
byte is xored into the number. -/
theorem doubleMultipliesByX : Obligations.DoubleMultipliesByX := by
  intro x
  have hdouble := shiftedBytes_add_carry x
  have hlt : bytesNumber ((double x).toList.take 15) < 2 ^ 120 := by
    simpa using bytesNumber_lt ((double x).toList.take 15)
  have hbyte := (x[15] <<< 1).isLt
  rw [blockNumber_eq (double x), getElem_double_last]
  cases hc : doubleCarry x with
  | true =>
    rw [hc, Bool.toNat_true] at hdouble
    have hmod : 2 * blockNumber x % 2 ^ 128 =
        bytesNumber ((double x).toList.take 15) * 256 + (x[15] <<< 1).toNat := by omega
    rw [if_pos rfl, if_pos (by omega), mul_add_toNat_xor, hmod]
    rfl
  | false =>
    rw [hc, Bool.toNat_false, Nat.zero_mul, Nat.add_zero] at hdouble
    rw [if_neg Bool.false_ne_true, if_neg (by omega), hdouble]

/-- Settles O24: `2^ntz(n)` divides a non-zero `n`, no higher power does, and a 64-bit word leaves room for 63 zeros. -/
theorem ntzCountsTrailingZeros : Obligations.NtzCountsTrailingZeros :=
  ⟨rfl, fun _ h => ⟨Nat.le_of_lt_succ (ntz_lt h), ntz_dvd h, ntz_maximal h⟩⟩

/-- Settles O25: the ladder grows to entry `n` and no further, in its closed form. -/
theorem lsubIsTheClosedForm : Obligations.LsubIsTheClosedForm := fun s n h =>
  ⟨lsub_fst h n, lsub_snd n s, prefix_ladderUpTo _ n _, length_ladderUpTo _ n _, ladderOk_ladderUpTo n h⟩

end Sys2Proof.Machine

/-! PROOFS. The nonce expander (spec/41_nonce_expander.md R130 to R138). -/

namespace Sys2Proof.Machine

open Sys2Proof.Safety

/-! The bytes of the formatted nonce (R131). -/

theorem justifyNonce_getElem (nonce : List Byte) {i : Nat} (h : i < 16) :
    (justifyNonce nonce)[i] = if i < 16 - nonce.length then 0 else nonce.getD (i - (16 - nonce.length)) 0 := by
  simp [justifyNonce]

/-- R131: TAGFIELD in byte 0, the marking bit in the byte before the nonce, which is byte 0 for 15 bytes of nonce. -/
theorem formatNonce_getElem (P : Platform) (tagLen : Nat) (nonce : List Byte) {i : Nat} (h : i < 16) :
    (formatNonce P tagLen nonce)[i] =
      let b := if i = 0 then P.tagField tagLen else (justifyNonce nonce)[i]
      if i = 15 - nonce.length then b ||| 0x01 else b := by
  simp only [formatNonce, setByte_getElem, eq_comm (a := i)]
  split
  · next heq => subst heq; rw [byteAt_lt h, setByte_getElem]
  · rfl

/-! `bottom` and the masked block (R132). -/

theorem nonceBottom_eq (n : Block) : nonceBottom n = n[15].toNat % 64 := by
  rw [nonceBottom, BitVec.toNat_and]
  exact Nat.and_two_pow_sub_one_eq_mod _ 6

theorem maskBottom_getElem (n : Block) {i : Nat} (h : i < 15) : (maskBottom n)[i] = n[i] := by
  rw [maskBottom, setByte_getElem, if_neg (by omega)]

/-- The mask `0xC0` clears the low 6 bits of a byte. -/
theorem toNat_and_0xC0 (b : Byte) : (b &&& 0xC0).toNat = b.toNat / 64 * 64 := by
  revert b; decide

theorem toNat_maskBottom_getElem_last (n : Block) : (maskBottom n)[15].toNat = n[15].toNat / 64 * 64 := by
  rw [maskBottom, setByte_getElem, if_pos rfl, toNat_and_0xC0]

/-- Settles O26: byte by byte; the marking bit falls into byte 0 exactly when the nonce has 15 bytes. -/
theorem formattedNonceBytes : Obligations.FormattedNonceBytes := by
  intro P tagLen nonce hpos hle n
  have hbyte {i : Nat} (h : i < 16) := formatNonce_getElem P tagLen nonce h
  refine ⟨?_, fun i h h1 hlt => ?_, fun i h h1 heq => ?_, fun i h hge => ?_, nonceBottom_eq n,
    fun i h => maskBottom_getElem n h, toNat_maskBottom_getElem_last n⟩
  · have hmark : 0 = 15 - nonce.length ↔ nonce.length = 15 := by omega
    simp only [n, hbyte, hmark, if_true]
  · simp only [n, hbyte, justifyNonce_getElem]
    rw [if_neg (by omega), if_neg (by omega), if_pos (by omega)]
  · simp only [n, hbyte, justifyNonce_getElem]
    rw [if_pos heq, if_neg (by omega), if_pos (by omega)]
    rfl
  · simp only [n, hbyte, justifyNonce_getElem]
    rw [if_neg (by omega), if_neg (by omega), if_neg (by omega)]

/-! The shifted stretch (R135) as a window of the stretch's bits. -/

/-- One byte more of a string as a number. -/
theorem bytesNumber_take_succ_of_lt {l : List Byte} {k : Nat} (h : k < l.length) :
    bytesNumber (l.take (k + 1)) = bytesNumber (l.take k) * 256 + l[k].toNat := by
  rw [List.take_succ_eq_append_getElem h, bytesNumber_concat]

/-- One byte less of a string as a number. -/
theorem bytesNumber_take_succ_div {l : List Byte} {k : Nat} (h : k < l.length) :
    bytesNumber (l.take (k + 1)) / 256 = bytesNumber (l.take k) := by
  rw [bytesNumber_take_succ_of_lt h]
  have := l[k].isLt
  omega

/-- Cutting off the last `d` bytes divides the number by `256^d`. -/
theorem bytesNumber_take_sub (l : List Byte) : ∀ {d : Nat}, d ≤ l.length →
    bytesNumber (l.take (l.length - d)) = bytesNumber l / 256 ^ d
  | 0, _ => by simp
  | d + 1, h => by
    rw [← bytesNumber_take_succ_div (by omega), show l.length - (d + 1) + 1 = l.length - d by omega,
      bytesNumber_take_sub l (by omega), Nat.div_div_eq_div_mul, Nat.pow_succ]

/-- A byte shifted left that takes in the top bits of the next byte: eight adjacent bits of the two. -/
theorem toNat_shiftLeft_or_ushiftRight (a b : Byte) {s : Nat} (h : s ≤ 8) :
    ((a <<< s) ||| (b >>> (8 - s))).toNat = (a.toNat * 2 ^ 8 + b.toNat) / 2 ^ (8 - s) % 2 ^ 8 := by
  refine Nat.eq_of_testBit_eq fun i => ?_
  rw [Nat.testBit_mod_two_pow, Nat.testBit_div_two_pow, Nat.mul_comm, Nat.testBit_two_pow_mul_add _ b.isLt,
    BitVec.toNat_or, BitVec.toNat_shiftLeft, BitVec.toNat_ushiftRight, Nat.testBit_or, Nat.testBit_mod_two_pow,
    Nat.testBit_shiftLeft, Nat.testBit_shiftRight]
  have hout {j : Nat} (hj : 8 ≤ j) : b.toNat.testBit j = false :=
    Nat.testBit_lt_two_pow (b.isLt.trans_le (Nat.pow_le_pow_right (by decide) hj))
  by_cases hi : i < 8
  · by_cases hs : s ≤ i
    · rw [hout (by omega), if_neg (by omega), show i + (8 - s) - 8 = i - s by omega]
      simp [hi, hs]
    · rw [if_pos (by omega), Nat.add_comm i]
      simp [hi, hs]
  · rw [hout (by omega)]
    simp [hi]

/-- R135: without a bit shift the byte of the next one falls out, so one form serves both cases. -/
theorem shiftStretch_getElem (stretch : Bytes 24) {bottom i : Nat} (hb : bottom ≤ 63) (h : i < 16) :
    (shiftStretch stretch bottom)[i] =
      (stretch[bottom / 8 + i] <<< (bottom % 8)) ||| (stretch[bottom / 8 + i + 1] >>> (8 - bottom % 8)) := by
  have hbyte : (shiftStretch stretch bottom)[i] =
      if bottom % 8 = 0 then stretch[bottom / 8 + i]
      else (stretch[bottom / 8 + i] <<< (bottom % 8)) ||| (stretch[bottom / 8 + i + 1] >>> (8 - bottom % 8)) := by
    simp only [shiftStretch, Vector.getElem_ofFn]
    rw [byteAt_lt (by omega), byteAt_lt (by omega)]
  rw [hbyte]
  split
  · next hz =>
    have hout : stretch[bottom / 8 + i + 1] >>> 8 = 0 := BitVec.ushiftRight_eq_zero (Nat.le_refl 8)
    simp [hz, hout]
  · rfl

/-- R136: byte `i` of the shifted stretch is the last byte of the stretch's first bytes, cut at bit
`bottom + 8 * (i + 1)`. -/
theorem toNat_shiftStretch_getElem (stretch : Bytes 24) {bottom i : Nat} (hb : bottom ≤ 63) (h : i < 16) :
    (shiftStretch stretch bottom)[i].toNat =
      bytesNumber (stretch.toList.take (bottom / 8 + i + 2)) / 2 ^ (8 - bottom % 8) % 256 := by
  have hlen (k : Nat) (hk : k < 24) : k < stretch.toList.length := by simpa using hk
  rw [shiftStretch_getElem stretch hb h, toNat_shiftLeft_or_ushiftRight _ _ (by omega),
    bytesNumber_take_succ_of_lt (hlen _ (by omega)), bytesNumber_take_succ_of_lt (hlen _ (by omega))]
  have hsplit : 2 ^ (8 - bottom % 8) * 2 ^ (bottom % 8) = 256 := by
    rw [← Nat.pow_add, Nat.sub_add_cancel (by omega)]
  have hfront (n a b : Nat) :
      a * 2 ^ 8 + b + 2 ^ (8 - bottom % 8) * (n * 2 ^ (bottom % 8) * 256) = (n * 256 + a) * 256 + b := by
    linear_combination n * 256 * hsplit
  rw [← hfront, Nat.add_mul_div_left _ _ (Nat.two_pow_pos _), Nat.add_mul_mod_self_right]
  rfl

/-- R136: the first `k` bytes of the shifted stretch are `k` bytes of the stretch's number, cut at bit
`bottom + 8 * k`. -/
theorem bytesNumber_take_shiftStretch (stretch : Bytes 24) {bottom : Nat} (hb : bottom ≤ 63) : ∀ {k : Nat}, k ≤ 16 →
    bytesNumber ((shiftStretch stretch bottom).toList.take k) =
      bytesNumber (stretch.toList.take (bottom / 8 + k + 1)) / 2 ^ (8 - bottom % 8) % 256 ^ k
  | 0, _ => by simp [bytesNumber, Nat.mod_one]
  | k + 1, h => by
    have ih := bytesNumber_take_shiftStretch stretch hb (k := k) (by omega)
    have hprev : bytesNumber (stretch.toList.take (bottom / 8 + k + 2)) / 256 =
        bytesNumber (stretch.toList.take (bottom / 8 + k + 1)) :=
      bytesNumber_take_succ_div (by rw [Vector.length_toList]; omega)
    rw [bytesNumber_take_succ _ (by omega), ih, toNat_shiftStretch_getElem stretch hb (by omega), ← hprev,
      Nat.div_right_comm, Nat.pow_succ', Nat.mod_mul, Nat.add_comm, Nat.mul_comm]
    rfl

/-- Settles O27: all 16 bytes of the window, of which the stretch's last `7 - bottom / 8` bytes are cut off whole and
the last `8 - bottom % 8` bits of the byte before them. -/
theorem initialOffsetIsTheShiftedStretch : Obligations.InitialOffsetIsTheShiftedStretch := by
  intro stretch bottom hb
  have hall : (shiftStretch stretch bottom).toList.take 16 = (shiftStretch stretch bottom).toList :=
    List.take_of_length_le (by simp)
  have hcut := bytesNumber_take_sub stretch.toList (d := 7 - bottom / 8) (by rw [Vector.length_toList]; omega)
  rw [show stretch.toList.length - (7 - bottom / 8) = bottom / 8 + 16 + 1 by
    rw [Vector.length_toList]; omega] at hcut
  have hpow : 256 ^ (7 - bottom / 8) * 2 ^ (8 - bottom % 8) = 2 ^ (64 - bottom) := by
    rw [show 256 = 2 ^ 8 from rfl, ← Nat.pow_mul, ← Nat.pow_add,
      show 8 * (7 - bottom / 8) + (8 - bottom % 8) = 64 - bottom by omega]
  rw [blockNumber, ← hall, bytesNumber_take_shiftStretch stretch hb (Nat.le_refl 16), hcut, Nat.div_div_eq_div_mul, hpow,
    show 256 ^ 16 = 2 ^ 128 from rfl]

/-! The Ktop cache (R133, R137). -/

/-- R133, R134, R324: a hit makes no request, a miss one `HashPerm`. -/
theorem fillKtop_requests (P : Platform) (n : Block) (s : State) :
    (fillKtop P n s).requests =
      s.requests ++ (if s.ktopValid = true ∧ s.ktopInput = n then [] else [.enc .hp n]) := by
  have hhit : ktopHit s n = true ↔ s.ktopValid = true ∧ s.ktopInput = n := by
    simp only [ktopHit, Bool.and_eq_true, beq_iff_eq]
  rw [fillKtop_eq]
  split
  · next h => rw [if_pos (hhit.mp h), List.append_nil]
  · next h => rw [if_neg (mt hhit.mpr h)]

/-- Settles O28: after a hit and after a miss the cache holds the Ktop of this nonce under the key held. -/
theorem ktopCacheIsInvisible : Obligations.KtopCacheIsInvisible := by
  intro P nonce s h n t
  obtain ⟨hstretch, hinput, hvalid⟩ := fillKtop_stretch h n
  refine ⟨offsetMain0_nonceExpander nonce h, ?_, ?_, ?_, ?_, onlyNonce_nonceExpander P nonce s⟩ <;>
    simp only [t, nonceExpander]
  exacts [hvalid, hinput, hstretch, fillKtop_requests P n s]

end Sys2Proof.Machine

/-! PROOFS. The hash lane (spec/42_hash_lane.md R150 to R155), the closed form of R203 at the end of a message, and the
longest part of a feed that would wrap (93_implementation_defined.md U5). -/

namespace Sys2Proof.Machine

open Sys2Proof.Safety

variable {P : Platform} {s t : State}

/-! FEEDAAD that ends OK (R150). -/

/-- R150, R153, R320: where FEEDAAD leaves the position, the counter, the ladder and the request trace. -/
theorem hashCounts_feedAad {inOff len : Word} (hs : SessionOk P s) (h : feedAadOn P inOff len s = .next t)
    (hr : t.response.rstat = .ok) : HashCounts (begin s) t len.toNat := by
  obtain ⟨hp, -, hc, ht⟩ := feedAad_ok h hr
  obtain ⟨-, hlanes⟩ := hs.ready hp
  have habsorb := hashCounts_absorb P (inputBytes s inOff len) (s := begin s) hlanes.hashPos
    (by rw [inputBytes_length]; exact hc)
  rw [inputBytes_length] at habsorb
  obtain ⟨pos, count, grown, ladder, short, requests⟩ := habsorb
  rw [ht]
  exact ⟨pos, count, grown, ladder, short, requests⟩

/-- R150: FEEDAAD changes the hash lane, the ladder, the response and the trace only. -/
theorem feedAad_frame {inOff len : Word} (h : feedAadOn P inOff len s = .next t) (hr : t.response.rstat = .ok) :
    t = { s with
      response := okResponse 0 [], hashLane := t.hashLane, ladder := t.ladder, requests := t.requests } := by
  obtain ⟨-, -, -, ht⟩ := feedAad_ok h hr
  have ho := onlyHash_absorb P (inputBytes s inOff len) (begin s)
  rw [ht]
  generalize absorb P (inputBytes s inOff len) (begin s) = u at ho
  rw [ho]
  rfl

/-- Settles O35: FEEDAAD absorbs its bytes, and `absorb` appends them to what the lane holds. -/
theorem feedaadAppendsToTheAad : Obligations.FeedaadAppendsToTheAad := by
  intro P inOff len s hs hp hin hc
  have hrun := feedAadOn_completes hp hin hc
  obtain ⟨hpos, hcount, hgrown, -, -, -⟩ := hashCounts_feedAad hs hrun rfl
  exact ⟨_, hrun, fun hP => by rw [exec_eq_execOn, ← hP]; exact hrun, feedAad_frame hrun rfl, hpos, hcount, hgrown,
    fun _ hholds => feedAad_holds hs hholds hrun rfl⟩

/-! Chunks (R154). -/

/-- `s` with another response, and with its requests behind those of `r`. -/
def resumed (x : Response) (r : List PermRequest) (s : State) : State :=
  { s with response := x, requests := r ++ s.requests }

/-- R153: the byte loop reads neither the response nor the trace, to which it only appends. -/
theorem absorb_resumed (P : Platform) (bytes : List Byte) (x : Response) (r : List PermRequest) (s : State) :
    absorb P bytes (resumed x r s) = resumed x r (absorb P bytes s) := by
  refine List.foldl_hom (resumed x r) fun s b => ?_
  rw [absorbByte_eq, absorbByte_eq, apply_ite (resumed x r), processFullHashBlock_eq, processFullHashBlock_eq]
  simp only [resumed, bufferHashByte, List.append_assoc]
  rfl

/-- R68, R154: two adjoining descriptors name the bytes of the descriptor of both. -/
theorem inputBytes_append {a m n : Word} (s : State) (ham : a.toNat + m.toNat < 2 ^ 32)
    (hmn : m.toNat + n.toNat < 2 ^ 32) :
    inputBytes s a (m + n) = inputBytes s a m ++ inputBytes s (a + m) n := by
  rw [inputBytes, inputBytes, inputBytes, BitVec.toNat_add_of_lt ham, BitVec.toNat_add_of_lt hmn, memReadIbuf_append]

/-- Settles O36: what the second FEEDAAD begins with is what the first one's byte loop left, but for the response and
the trace, which the byte loop does not read. -/
theorem feedaadChunking : Obligations.FeedaadChunking := by
  intro P a m n s hs hp hin hmn ham hc
  have hfirst := feedAadOn_completes (P := P) (inOff := a) (len := m) hp (by omega) (by omega)
  have hwhole := feedAadOn_completes (P := P) (inOff := a) (len := m + n) hp
    (by rw [BitVec.toNat_add_of_lt hmn]; omega) (by rw [BitVec.toNat_add_of_lt hmn, ← Nat.add_assoc]; exact hc)
  obtain ⟨hpos, hcount, -, -, -, -⟩ := hashCounts_feedAad hs hfirst rfl
  have ho := onlyHash_absorb P (inputBytes s a m) (begin s)
  have hphase := (onlyHash_phase ho).trans hp
  have hibuf := onlyHash_ibuf ho
  rw [inputBytes_append s ham hmn, absorb_append] at hwhole
  generalize absorb P (inputBytes s a m) (begin s) = u at *
  have hsecond := feedAadOn_completes (P := P) (s := respond 0 [] u) (inOff := a + m) (len := n) hphase
    (by rw [BitVec.toNat_add_of_lt ham]; exact hin)
    (by rw [hpos, hcount, begin_hashLane]; omega)
  rw [inputBytes_congr (s := s) (t := respond 0 [] u) hibuf] at hsecond
  have hresume : u = resumed u.response u.requests (begin (respond 0 [] u)) := by
    simp only [resumed, begin, respond, List.append_nil]
  rw [hresume, absorb_resumed] at hwhole
  exact ⟨_, _, _, hfirst, hsecond, hwhole, rfl, rfl⟩

/-! The tag (R155, R190, R203). -/

/-- R198, R201, R203: FINALIZE in Decrypt mode, another string than the tag of the AAD and the plaintext fed behind the
ciphertext `x`, is AuthenticationFailed; the OBUF window of the last piece holds free bytes. -/
theorem finalizeOn_rejects {aad x tag : List Byte} {outOff outLen : Word} (h : SessionFed P ⟨aad, x ++ tag⟩ s)
    (hm : s.mode = .decrypt) (ht : s.tagLen.toNat ≤ 16) (hlen : tag.length = s.tagLen.toNat)
    (htag : tag ≠ tagOf (permEnc P s.hpKey) s.lStar s.lDollar s.offsetMain0 s.tagLen.toNat aad
      (cryptText (permDec P s.mpKey) (permEnc P s.hpKey) s.lStar s.lDollar s.offsetMain0 x))
    (hout : outLen.toNat ≤ P.obufSize.val) (hroom : outOff.toNat + x.length % 16 ≤ outLen.toNat) :
    ∃ requests, finalizeOn P outOff outLen s = .next { raiseError .authenticationFailed s with
      obuf := s.obuf.write outOff.toNat (freeWindow s.draws (x.length % 16)), requests := requests } := by
  obtain ⟨hpos, hpartLen, hcand, -, hexp⟩ := holds_decrypt h.holds hm hlen
  have hfin : finsize s 0 = x.length % 16 := by
    rw [← hpartLen]; simp only [finsize, partialLen, hm, Nat.add_zero]
  have hge : s.tagLen.toNat ≤ s.mainLane.mainPos.toNat := by omega
  have hd : dataTooShort s = false := by simpa only [dataTooShort, hm, decide_eq_false_iff_not, not_lt] using hge
  have hreject := closeMessage_reject P (s := begin s) outOff.toNat hm hge
    (hpartLen.trans_lt (Nat.mod_lt _ (by decide))) ht fun he => htag (hcand.symm.trans (he.symm.trans hexp))
  rw [finalizeOn_completes h.ready hout ht hd (by omega), hreject, ← hpartLen]
  exact ⟨_, rfl⟩

/-- Settles O46: what the lanes hold gives the closed form of each part FINALIZE computes; in Decrypt mode the
candidate tag is compared with it. -/
theorem tagIsTheClosedForm : Obligations.TagIsTheClosedForm := by
  intro P outOff outLen aad x tag s hs hp ht hout E tagFor last
  constructor
  · intro hm hholds hroom
    obtain ⟨-, -, hexp⟩ := holds_encrypt hholds hm
    obtain ⟨t, hrun, hclosed⟩ := finalizeOn_encrypts ⟨hs, hp, hholds⟩ hm ht hout hroom
    have hmac : macBytes t = tagFor x := hclosed.mac.trans hexp
    have hframe := hclosed.frame
    exact ⟨t, hrun, fun hP => by rw [exec_eq_execOn, ← hP]; exact hrun, by rw [hframe], by rw [hframe],
      by rw [hframe]; rfl, hmac⟩
  · intro hm hlen hholds hroom plain
    obtain ⟨-, -, -, -, hexp⟩ := holds_decrypt hholds hm hlen
    have hfed : SessionFed P ⟨aad, x ++ tag⟩ s := ⟨hs, hp, hholds⟩
    have hplain : plain = cryptText (permDec P s.mpKey) E s.lStar s.lDollar s.offsetMain0 x := by rw [← hs.sameKey]
    have hplatform {t : State} (hrun : finalizeOn P outOff outLen s = .next t) (hP : P = Config.platform) :
        exec (.finalize outOff outLen) s = .next t := by rw [exec_eq_execOn, ← hP]; exact hrun
    rw [hplain]
    by_cases htag : tag = tagFor (cryptText (permDec P s.mpKey) E s.lStar s.lDollar s.offsetMain0 x)
    · obtain ⟨t, hrun, hclosed⟩ := finalizeOn_decrypts hfed hm ht hlen htag hout hroom
      have hmac : macBytes t = tag := hclosed.mac.trans (hexp.trans htag.symm)
      have hframe := hclosed.frame
      exact ⟨t, hrun, hplatform hrun,
        fun _ => ⟨by rw [hframe], by rw [hframe], by rw [hframe]; rfl, hmac⟩, fun hne => absurd htag hne⟩
    · obtain ⟨requests, hrun⟩ := finalizeOn_rejects hfed hm ht hlen htag hout hroom
      refine ⟨_, hrun, hplatform hrun, fun he => absurd he htag, fun _ => ⟨rfl, rfl, rfl, fun hwf a ha => ?_⟩⟩
      refine readObuf_of_write_outside hwf rfl fun hin => ?_
      rw [freeWindow, List.length_map, List.length_range] at hin
      omega

/-! The counters at their end (R151, R171, U5). -/

/-- R171, R176: the counter FEEDMSG leaves. -/
theorem feedMsg_mainCount {inOff len outOff outLen : Word} (hs : SessionOk P s)
    (h : feedMsgOn P inOff len outOff outLen s = .next t) (hr : t.response.rstat = .ok) :
    t.mainLane.mainCount.toNat = s.mainLane.mainCount.toNat + updsize s len.toNat / 16 := by
  obtain ⟨hp, -, -, -, hc, ht⟩ := feedMsg_ok h hr
  obtain ⟨-, hlanes⟩ := hs.ready hp
  have hcounts := mainCounts_feedMain P outOff.toNat (inputBytes s inOff len) 0 (s := begin s)
    (tagLen_le_of_ready (sessionOk_begin hs) hp) hlanes.mainPos (mainCount_lt (inputBytes_length ..) hc)
  rw [ht, respond_mainLane, hcounts.count, inputBytes_length, begin_mainLane, ← updsize_begin, updsize_eq,
    Nat.mul_div_cancel_left _ (by decide)]

/-- Settles O59: the part a feed is cut to counts up to the end of its counter, and the feed of that part leaves the
counter there. -/
theorem beforeWrapIsTheLongestPart : Obligations.BeforeWrapIsTheLongestPart := by
  constructor
  · intro P inOff len s hs h
    obtain ⟨k, hcut, hlt, hend, hwrap, u, hrun, hok⟩ := beforeWrap_feedaad hs h
    exact ⟨k, u, hcut, hlt, hrun, hok, (hashCounts_feedAad hs hrun hok).count.trans hend, hwrap⟩
  · intro P inOff len outOff outLen s hs h
    obtain ⟨k, hcut, hlt, hend, hwrap, u, hrun, hok⟩ := beforeWrap_feedmsg hs h
    exact ⟨k, u, hcut, hlt, hrun, hok, (feedMsg_mainCount hs hrun hok).trans hend, hwrap⟩

end Sys2Proof.Machine

/-! PROOFS. The crypt lane (spec/43_crypt_lane.md R170 to R178): what a FEEDMSG that ends OK leaves and writes, its
chunking law, its independence of the hash lane, and the two size queries. -/

namespace Sys2Proof.Machine

open Sys2Proof.Safety

variable {P : Platform} {s t : State}

/-! The size queries (R174, R175, R177). -/

/-- R174: more bytes complete no fewer blocks. -/
theorem updsize_mono (s : State) {m n : Nat} (h : m ≤ n) : updsize s m ≤ updsize s n := by
  rw [updsize_eq, updsize_eq, blocksDone, blocksDone]
  omega

/-- R174: what UPDSIZE answers fits `RVAL`. -/
theorem updsize_lt (s : State) (len : Word) : updsize s len.toNat < 2 ^ 64 := by
  rw [updsize_eq, blocksDone]
  omega

/-- Settles O41: UPDSIZE answers `updsize`, which fits `RVAL` and is the multiple of 16 at or below its sum. -/
theorem updsizeAnswers : Obligations.UpdsizeAnswers := by
  rw [Obligations.UpdsizeAnswers, exec_eq_execOn]
  refine ⟨fun len s hr hf => (execUpdsize_eq len s).trans (if_neg (not_or.mpr ⟨hr, hf⟩)), fun len s hp => ?_⟩
  refine ⟨_, (execUpdsize_eq len s).trans (if_pos hp), rfl, rfl, rfl, ?_⟩
  rw [okResponse_rval _ (updsize_lt s len), updsize]
  cases s.mode <;> simp only <;> omega

/-- R175: what FINSIZE answers fits `RVAL`. -/
theorem finsize_lt (s : State) (len : Word) : finsize s len.toNat < 2 ^ 64 := by
  cases hm : s.mode <;> simp only [finsize, hm] <;> omega

/-- Settles O42: FINSIZE answers `finsize`, which fits `RVAL`. -/
theorem finsizeAnswers : Obligations.FinsizeAnswers := by
  rw [Obligations.FinsizeAnswers, exec_eq_execOn]
  refine ⟨fun len s hr hf => (execFinsize_eq len s).trans (if_neg (not_or.mpr ⟨hr, hf⟩)), fun len s hp => ?_⟩
  exact ⟨_, (execFinsize_eq len s).trans (if_pos hp), rfl, rfl, rfl, okResponse_rval _ (finsize_lt s len)⟩

/-- R175, R177: a FEEDMSG moves `updsize(LEN)` of the bytes `finsize` promises from the promise to OBUF. -/
theorem finsize_feedMsg {inOff len outOff outLen : Word} (hs : SessionOk P s)
    (h : feedMsgOn P inOff len outOff outLen s = .next t) (hr : t.response.rstat = .ok) :
    finsize s len.toNat = updsize s len.toNat + finsize t 0 := by
  obtain ⟨-, hpos, hmode, htag⟩ := feedMsg_position hs h hr
  cases hm : s.mode <;> simp only [updsize, finsize, hmode, htag, hm] at hpos ⊢ <;> omega

/-- Settles O58: FEEDMSG reports `updsize(LEN)`, the FINALIZE behind it the rest of the promise. -/
theorem finsizeIsWhatIsProduced : Obligations.FinsizeIsWhatIsProduced := by
  intro P inOff len outOff outLen finOff finLen s q t u hs hq hqr ht htr hu hur
  obtain ⟨hfed, -⟩ := feedMsg_position hs ht htr
  have hfin := finalize_rval (sessionOk_of_commandEnd hs (.msgFed ht htr)) hu hur
  obtain ⟨hp, -⟩ := feedMsg_ok ht htr
  rw [exec_eq_execOn] at hq
  obtain rfl := Host.Outcome.next.inj (hq.symm.trans ((execFinsize_eq len s).trans (if_pos (.inl hp))))
  rw [hfed, hfin, ← finsize_feedMsg hs ht htr]
  exact okResponse_rval _ (finsize_lt s len)

/-! FEEDMSG that ends OK (R170, R171, R176). -/

/-- R170: FEEDMSG leaves the lane and writes the bytes that the lane's feed function gives, counts those bytes, and
changes nothing else but the ladder and the trace. -/
theorem feedMsg_effect {inOff len outOff outLen : Word} (hl : LadderOk s.lDollar s.ladder)
    (h : feedMsgOn P inOff len outOff outLen s = .next t) (hr : t.response.rstat = .ok) :
    ∃ ladder requests, t = { s with
      response := okResponse (mainFeedIn P s (inputBytes s inOff len) s.mainLane).1.length []
      mainLane := (mainFeedIn P s (inputBytes s inOff len) s.mainLane).2
      ladder := ladder, requests := requests
      obuf := s.obuf.write outOff.toNat (mainFeedIn P s (inputBytes s inOff len) s.mainLane).1 } := by
  obtain ⟨-, -, -, -, -, ht⟩ := feedMsg_ok h hr
  obtain ⟨hframe, -, hcount, hobuf, hlane⟩ :=
    feedMain_spec P outOff.toNat (inputBytes s inOff len) 0 (s := begin s) hl
  rw [Nat.zero_add] at hcount
  rw [ht, hcount]
  generalize (feedMain P outOff.toNat (inputBytes s inOff len) 0 (begin s)).2 = u at *
  refine ⟨u.ladder, u.requests, ?_⟩
  rw [hframe, hlane, hobuf]
  rfl

/-- R176: the byte loop counts `updsize` bytes. -/
theorem feedMain_count_eq_updsize {bytes : List Byte} (outOff : Nat) (hs : SessionOk P s) (hp : s.phase = .ready)
    (hc : s.mainLane.mainCount.toNat + updsize s bytes.length / 16 < 2 ^ 64) :
    (feedMain P outOff bytes 0 s).1 = updsize s bytes.length := by
  obtain ⟨-, hlanes⟩ := hs.ready hp
  rw [updsize_eq, Nat.mul_div_cancel_left _ (by decide)] at hc
  rw [feedMain_count P outOff bytes 0 (tagLen_le_of_ready hs hp) hlanes.mainPos hc, updsize_eq, Nat.zero_add]

/-- R176: so the lane's feed function emits that many. -/
theorem length_mainFeedIn {bytes : List Byte} (hs : SessionOk P s) (hp : s.phase = .ready)
    (hc : s.mainLane.mainCount.toNat + updsize s bytes.length / 16 < 2 ^ 64) :
    (mainFeedIn P s bytes s.mainLane).1.length = updsize s bytes.length := by
  obtain ⟨-, -, hcount, -⟩ := feedMain_spec P 0 bytes 0 hs.ladder
  rw [← feedMain_count_eq_updsize 0 hs hp hc, hcount, Nat.zero_add]

/-- R203: the bytes the lane's feed function emits are the blocks the message completes. -/
theorem mainFeedIn_eq_cryptBlocks {msg bytes : List Byte} (ht : s.tagLen.toNat ≤ 32)
    (h : MainLaneHolds (payloadPerm P s.mpKey s.mode) s.lDollar s.offsetMain0 s.mode s.tagLen.toNat msg s.mainLane)
    (hc : s.mainLane.mainCount.toNat + updsize s bytes.length / 16 < 2 ^ 64) :
    (mainFeedIn P s bytes s.mainLane).1 = cryptBlocks (payloadPerm P s.mpKey s.mode) s.lDollar s.offsetMain0
      (msg ++ bytes) (fedBlocks s.mode s.tagLen.toNat msg.length) (updsize s bytes.length / 16) := by
  have hmono := fedBlocks_mono s.mode s.tagLen.toNat (Nat.le_add_right msg.length bytes.length)
  have hcount := h.count
  rw [updsize_of_holds h, Nat.mul_div_cancel_left _ (by decide)] at hc ⊢
  obtain ⟨hout, -⟩ := mainLaneHolds_feed ht bytes msg h (by omega)
  rw [mainFeedIn, mainBufLen_eq, hout]

/-- Settles O37: FEEDMSG leaves what the lane's feed function gives, and that is what R203 says of the message. -/
theorem feedmsgAppendsToTheMessage : Obligations.FeedmsgAppendsToTheMessage := by
  intro P inOff len outOff outLen s hs hp hin hout hroom hc
  have hrun := feedMsgOn_completes hp hin hout hroom hc
  obtain ⟨ho, hgrown⟩ := onlyMain_feedMain P outOff.toNat (inputBytes s inOff len) 0 (begin s)
  obtain ⟨-, hlanes⟩ := (sessionOk_of_commandEnd hs (.msgFed hrun rfl)).ready ((onlyMain_phase ho).trans hp)
  obtain ⟨-, hpos, -, -⟩ := feedMsg_position hs hrun rfl
  obtain ⟨ladder, requests, heffect⟩ := feedMsg_effect hs.ladder hrun rfl
  rw [← inputBytes_length s inOff len] at hc
  have hlen := length_mainFeedIn hs hp hc
  rw [inputBytes_length] at hlen
  refine ⟨_, (mainFeedIn P s (inputBytes s inOff len) s.mainLane).1, hrun,
    fun hP => by rw [exec_eq_execOn, ← hP]; exact hrun, hlen, by rw [heffect], by rw [hlen]; exact hpos,
    (onlyMain_mainBufLen ho) ▸ hlanes.mainPos, hgrown, fun msg hholds => ⟨feedMsg_holds hs hholds hrun rfl, ?_⟩⟩
  rw [mainFeedIn_eq_cryptBlocks (tagLen_le_of_ready hs hp) hholds hc, inputBytes_length]

/-! Chunks (R178). -/

/-- R170: the byte loop over two strings is the loop over the first and then over the second. -/
theorem feedMain_append (P : Platform) (outOff : Nat) (y : List Byte) : ∀ (x : List Byte) (w : Nat) (s : State),
    feedMain P outOff (x ++ y) w s =
      feedMain P outOff y (feedMain P outOff x w s).1 (feedMain P outOff x w s).2
  | [], _, _ => rfl
  | b :: x, w, s => by
    rw [List.cons_append, feedMain_cons, feedMain_cons]
    split
    · exact feedMain_append P outOff y x _ _
    · exact feedMain_append P outOff y x _ _

/-- R170: bytes written before count on the offset: they move the write position and add to the count. -/
theorem feedMain_add (P : Platform) (outOff d : Nat) : ∀ (bytes : List Byte) (w : Nat) (s : State),
    feedMain P outOff bytes (d + w) s =
      (d + (feedMain P (outOff + d) bytes w s).1, (feedMain P (outOff + d) bytes w s).2)
  | [], _, _ => rfl
  | b :: bytes, w, s => by
    rw [feedMain_cons, feedMain_cons]
    split
    · rw [Nat.add_assoc d, feedMain_add P outOff d bytes, Nat.add_assoc outOff]
    · exact feedMain_add P outOff d bytes w _

/-- R171: a full block reads neither the response nor the trace, to which it only appends. -/
theorem processFullMainBlock_resumed (P : Platform) (x : Response) (r : List PermRequest) (s : State) :
    processFullMainBlock P (resumed x r s) =
      ((processFullMainBlock P s).1, resumed x r (processFullMainBlock P s).2) := by
  rw [processFullMainBlock_eq, processFullMainBlock_eq]
  simp only [resumed, List.append_assoc]
  rfl

/-- R170: neither does the byte loop. -/
theorem feedMain_resumed (P : Platform) (outOff : Nat) (x : Response) (r : List PermRequest) :
    ∀ (bytes : List Byte) (w : Nat) (s : State),
      feedMain P outOff bytes w (resumed x r s) =
        ((feedMain P outOff bytes w s).1, resumed x r (feedMain P outOff bytes w s).2)
  | [], _, _ => rfl
  | b :: bytes, w, s => by
    have hbuffer : bufferMainByte b (resumed x r s) = resumed x r (bufferMainByte b s) := rfl
    have hwrite (a : Nat) (v : List Byte) (u : State) :
        memWriteObuf a v (resumed x r u) = resumed x r (memWriteObuf a v u) := rfl
    by_cases hfull : (s.mainLane.mainPos + 1).toNat = mainBufLen s
    · rw [feedMain_cons, feedMain_cons, if_pos hfull, hbuffer, processFullMainBlock_resumed, hwrite]
      exact (if_pos hfull).trans (feedMain_resumed P outOff x r bytes _ _)
    · rw [feedMain_cons, feedMain_cons, if_neg hfull, hbuffer]
      exact (if_neg hfull).trans (feedMain_resumed P outOff x r bytes _ _)

/-- R178: the byte loop goes on, behind the `w` bytes it has written, as a FEEDMSG begun on the state `u` it has reached
does; the whole loop keeps the response and the trace of `u` in front. -/
theorem feedMain_goes_on (P : Platform) (outOff : Nat) (bytes : List Byte) (w : Nat) (u : State) :
    feedMain P outOff bytes w u =
      (w + (feedMain P (outOff + w) bytes 0 (begin (respond w [] u))).1,
        resumed u.response u.requests (feedMain P (outOff + w) bytes 0 (begin (respond w [] u))).2) := by
  have hresume : u = resumed u.response u.requests (begin (respond w [] u)) := by
    simp only [resumed, begin, respond, List.append_nil]
  calc feedMain P outOff bytes w u
      = feedMain P outOff bytes (w + 0) (resumed u.response u.requests (begin (respond w [] u))) := congrArg _ hresume
    _ = _ := by rw [feedMain_add, feedMain_resumed]

/-- R174, R178: what two FEEDMSGs write is what one of both writes. -/
theorem updsize_add_of_feedMsg {inOff len outOff outLen : Word} (hs : SessionOk P s)
    (h : feedMsgOn P inOff len outOff outLen s = .next t) (hr : t.response.rstat = .ok) (n : Nat) :
    updsize s (len.toNat + n) = updsize s len.toNat + updsize t n := by
  obtain ⟨-, hpos, hmode, htag⟩ := feedMsg_position hs h hr
  cases hm : s.mode <;> simp only [updsize, hmode, htag, hm] at hpos ⊢ <;> omega

/-- R88: the value of a response that reports two numbers of bytes together. -/
theorem okResponse_rval_add (m n : Nat) :
    (okResponse (m + n) []).rval = (okResponse m []).rval + (okResponse n []).rval := BitVec.ofNat_add m n

/-- R178: behind a FEEDMSG that has ended OK, one of the adjoining input descriptor that writes behind it completes when
one of both would. -/
theorem feedMsgOn_behind {a m n outOff outLen : Word} (hs : SessionOk P s)
    (h : feedMsgOn P a m outOff outLen s = .next t) (hr : t.response.rstat = .ok)
    (ham : a.toNat + m.toNat < 2 ^ 32) (hin : a.toNat + m.toNat + n.toNat ≤ P.ibufSize.val)
    (hroom : outOff.toNat + updsize s (m.toNat + n.toNat) ≤ outLen.toNat)
    (hc : s.mainLane.mainCount.toNat + updsize s (m.toNat + n.toNat) / 16 < 2 ^ 64) :
    let fed := feedMain P (outOff.toNat + updsize s m.toNat) (inputBytes s (a + m) n) 0 (begin t)
    feedMsgOn P (a + m) n (outOff + BitVec.ofNat 32 t.response.rval.toNat) outLen t =
      .next (respond fed.1 [] fed.2) := by
  intro fed
  obtain ⟨hp, -, hout, -⟩ := feedMsg_ok h hr
  obtain ⟨hval, -⟩ := feedMsg_position hs h hr
  obtain ⟨_, _, ht⟩ := feedMsg_effect hs.ladder h hr
  have hready : t.phase = .ready := by rw [ht]; exact hp
  have hibuf : t.ibuf = s.ibuf := by rw [ht]
  have hcount := feedMsg_mainCount hs h hr
  have hblocks := updsize_eq s m.toNat
  rw [updsize_add_of_feedMsg hs h hr] at hroom hc
  have hoff : (outOff + BitVec.ofNat 32 t.response.rval.toNat).toNat = outOff.toNat + updsize s m.toNat := by
    rw [hval]
    exact toNat_add_ofNat (outLen := outLen) (by omega)
  have hrun := feedMsgOn_completes (P := P) (inOff := a + m) (len := n) hready
    (by rw [BitVec.toNat_add_of_lt ham]; exact hin) hout (by rw [hoff]; omega) (by rw [hcount]; omega)
  rwa [hoff, inputBytes_congr hibuf] at hrun

/-- Settles O39: what the second FEEDMSG begins with is what the first one's byte loop left, but for the response and
the trace, which the byte loop does not read; and it writes where the first one stopped. -/
theorem feedmsgChunking : Obligations.FeedmsgChunking := by
  intro P a m n outOff outLen s hs hp hin hmn ham hout hroom hc
  have hlen := BitVec.toNat_add_of_lt hmn
  have hle := updsize_mono s (Nat.le_add_right m.toNat n.toNat)
  have hcfirst : s.mainLane.mainCount.toNat + updsize s m.toNat / 16 < 2 ^ 64 := by omega
  have hfirst := feedMsgOn_completes (P := P) (inOff := a) (outOff := outOff) hp (by omega) hout (by omega) hcfirst
  have hsecond := feedMsgOn_behind hs hfirst rfl ham hin hroom hc
  have hwhole := feedMsgOn_completes (P := P) (inOff := a) (len := m + n) (outOff := outOff) hp
    (by rw [hlen, ← Nat.add_assoc]; exact hin) hout (by rw [hlen]; exact hroom) (by rw [hlen]; exact hc)
  have hw := feedMain_count_eq_updsize (bytes := inputBytes s a m) outOff.toNat (sessionOk_begin hs) hp
    (by rw [inputBytes_length]; exact hcfirst)
  rw [inputBytes_length, updsize_begin] at hw
  rw [← hw] at hsecond
  rw [inputBytes_append s ham hmn, feedMain_append, feedMain_goes_on] at hwhole
  generalize feedMain P outOff.toNat (inputBytes s a m) 0 (begin s) = fed at hfirst hsecond hwhole
  generalize feedMain P (outOff.toNat + fed.1) (inputBytes s (a + m) n) 0 _ = rest at hsecond hwhole
  exact ⟨_, _, _, hfirst, hsecond, hwhole, rfl, rfl, rfl, rfl, rfl, okResponse_rval_add ..⟩

/-! The two lanes (R178, R228). -/

/-- R150: FEEDAAD leaves the hash lane that the lane's byte function gives, and changes nothing else but the ladder and
the trace. -/
theorem feedAad_effect {inOff len : Word} (hl : LadderOk s.lDollar s.ladder)
    (h : feedAadOn P inOff len s = .next t) (hr : t.response.rstat = .ok) :
    ∃ ladder requests, t = { s with
      response := okResponse 0 []
      hashLane := (inputBytes s inOff len).foldl (hashByteOf (permEnc P s.hpKey) s.lDollar) s.hashLane
      ladder := ladder, requests := requests } := by
  obtain ⟨-, -, -, ht⟩ := feedAad_ok h hr
  have hlane : t.hashLane = (inputBytes s inOff len).foldl (hashByteOf (permEnc P s.hpKey) s.lDollar) s.hashLane := by
    rw [ht]
    exact absorb_hashLane P _ (s := begin s) hl
  exact ⟨t.ladder, t.requests, hlane ▸ feedAad_frame h hr⟩

/-- Settles O40: each feed is a function of its own lane and of registers that neither feed writes. -/
theorem lanesDoNotInteract : Obligations.LanesDoNotInteract := by
  intro P aadOff aadLen inOff len outOff outLen s t u t' u' hs ht htr hu hur ht' hu'
  obtain ⟨-, hin, hcount, -⟩ := feedAad_ok ht htr
  have hst := sessionOk_of_commandEnd hs (.aadFed ht htr)
  obtain ⟨ladder, requests, rfl⟩ := feedAad_effect hs.ladder ht htr
  obtain ⟨hp, hmin, hout, hroom, hmcount, -⟩ := feedMsg_ok hu hur
  obtain ⟨_, _, rfl⟩ := feedMsg_effect hst.ladder hu hur
  have htr' : t'.response.rstat = .ok := by
    cases ht'.symm.trans (feedMsgOn_completes (s := s) hp hmin hout hroom hmcount)
    rfl
  have hst' := sessionOk_of_commandEnd hs (.msgFed ht' htr')
  obtain ⟨ladder', requests', rfl⟩ := feedMsg_effect hs.ladder ht' htr'
  have hur' : u'.response.rstat = .ok := by
    cases hu'.symm.trans (feedAadOn_completes hp hin hcount)
    rfl
  obtain ⟨_, _, rfl⟩ := feedAad_effect hst'.ladder hu' hur'
  exact ⟨rfl, rfl, rfl, rfl, rfl, rfl, rfl⟩

end Sys2Proof.Machine

/-! PROOFS. FINALIZE and MAC (spec/44_finalizer.md R190 to R204): the two ends of a message and their frames, and the
tag lengths FINALIZE refuses. -/

namespace Sys2Proof.Machine

open Sys2Proof.Safety

variable {P : Platform} {s t : State}

/-! FINALIZE (R190). -/

/-- R41, R191: the bytes FINALIZE finds behind the last full block do not fill another one. -/
theorem partialLen_lt (h : s.mainLane.mainPos.toNat < mainBufLen s) : partialLen s < 16 := by
  cases hm : s.mode <;> simp only [mainBufLen, partialLen, hm] at h ⊢ <;> omega

/-- R196, R199: the tag an accepted FINALIZE keeps, the AAD it replays, the ladder it leaves. -/
theorem messageClosed_keeps {outOff w : Nat} {out : List Byte} (hl : LadderOk s.lDollar s.ladder)
    (h : MessageClosed P s t outOff w out) :
    slice t.macBlock 0 s.tagLen.toNat = expectedTag P s ∧
      HashLaneHolds (permEnc P s.hpKey) s.lDollar (initAADBytes s) t.hashLane ∧ s.ladder <+: t.ladder := by
  have hlen : t.macLen = s.tagLen := by rw [h.frame]
  have hkey : t.hpKey = s.hpKey := by rw [h.frame]
  have hdollar : t.lDollar = s.lDollar := by rw [h.frame]
  refine ⟨?_, ?_, h.grown⟩
  · rw [← hlen]; exact h.mac
  · rw [← hkey, ← hdollar]; exact (sessionHolds_of_messageClosed hl h).hash

/-- Settles O44: nothing is refused, so the message is closed, with the partial block and the tag written. -/
theorem finalizeEncrypts : Obligations.FinalizeEncrypts := by
  intro P outOff outLen s hs hp hm ht hout hroom
  have hlast : partialLen s = s.mainLane.mainPos.toNat := by simp only [partialLen, hm]
  have hlt := partialLen_lt (hs.ready hp).2.mainPos
  have hrun := finalizeOn_completes (P := P) (outOff := outOff) hp hout ht (by simp only [dataTooShort, hm])
    (by simpa only [finsize, hm, Nat.add_zero] using hroom)
  have hc := closeMessage_encrypt P (s := begin s) outOff.toNat hm hlt ht
  refine ⟨_, hrun, fun hP => by rw [exec_eq_execOn, ← hP]; exact hrun, ?_,
    (length_partialOut P hlt).trans hlast, length_expectedTag P ht, messageClosed_keeps (s := begin s) hs.ladder hc⟩
  rw [← hlast]
  exact hc.frame

/-- Settles O45: nothing is refused, so the comparison decides: the message is closed, or it is AuthenticationFailed. -/
theorem finalizeDecrypts : Obligations.FinalizeDecrypts := by
  intro P outOff outLen s hs hp hm ht hd hout hroom
  have hlast : partialLen s = s.mainLane.mainPos.toNat - s.tagLen.toNat := by simp only [partialLen, hm]
  have hlt := partialLen_lt (hs.ready hp).2.mainPos
  have hrun := finalizeOn_completes (P := P) (outOff := outOff) hp hout ht
    (by simpa only [dataTooShort, hm, decide_eq_false_iff_not, Nat.not_lt] using hd)
    (by simpa only [finsize, hm, Nat.add_zero] using hroom)
  refine ⟨_, hrun, fun hP => by rw [exec_eq_execOn, ← hP]; exact hrun, fun he => ?_, fun he => ?_⟩
  · have hc := closeMessage_accept P (s := begin s) outOff.toNat hm hd hlt ht he
    obtain ⟨hmac, hkept⟩ := messageClosed_keeps (s := begin s) hs.ladder hc
    refine ⟨?_, (length_partialOut P hlt).trans hlast, hmac.trans he, hkept⟩
    rw [← hlast]
    exact hc.frame
  · have hreject := closeMessage_reject P (s := begin s) outOff.toNat hm hd hlt ht he
    rw [hreject, ← hlast]
    rfl

/-- Settles O43: the phase and the descriptor pass, and the length of the tag is the check behind them (R276). -/
theorem longTagsAreNotFinalized : Obligations.LongTagsAreNotFinalized := by
  rw [Obligations.LongTagsAreNotFinalized, exec_eq_execOn]
  intro outOff outLen s hp hout ht
  exact (finalizeOn_eq Config.platform outOff outLen s).trans <| by
    rw [if_neg (not_not.mpr hp), if_neg (not_not.mpr hout), if_pos ht]

/-! MAC (R204). -/

/-- R37, R88: byte `i` of the response that carries the tag; behind the tag it is zero. -/
theorem okResponse_macBytes_getElem (val : Nat) (s : State) {i : Nat} (h : i < 32) :
    (okResponse val (macBytes s)).rdata[i] = if i < s.macLen.toNat then s.macBlock[i] else 0 := by
  rw [okResponse, ofList_getElem _ h, macBytes, getD_slice, byteAt_lt h]

/-- Settles O48: MAC answers `macBlock[0 .. macLen)` in `FINAL` and is refused in every other phase. -/
theorem macAnswersTheTag : Obligations.MacAnswersTheTag := by
  rw [Obligations.MacAnswersTheTag, exec_eq_execOn]
  refine fun s => ⟨fun hp => ?_, fun hp => (execMac_eq s).trans (if_pos hp), fun hp => (execMac_eq s).trans ?_⟩
  · have hlen : (okResponse 0 (macBytes s)).rlen = s.macLen := by
      rw [okResponse, macBytes, slice_length, BitVec.ofNat_toNat, BitVec.setWidth_eq]
    have hrun : execMac s = .next { s with response := okResponse 0 (macBytes s), requests := [] } := by
      rw [execMac_eq, if_neg (by rw [hp]; decide), if_neg (not_not.mpr hp)]
    exact ⟨_, hrun, rfl, rfl, rfl, hlen, fun i hi => okResponse_macBytes_getElem 0 s hi⟩
  · rcases hp with hp | hp | hp <;> rw [if_neg (by rw [hp]; decide), if_pos (by rw [hp]; decide)]

end Sys2Proof.Machine

/-! PROOFS. The phase table of the session (spec/45_session_control.md R220). -/

namespace Sys2Proof.Machine

open Sys2Proof.Safety

variable {P : Platform} {i : Instr} {s t : State}

/-- How a command, begun in `s`, has ended in `t`, read against its cell of the phase table; `refusal` is the status of
a cell that refuses. -/
inductive PhaseEnd (s t : State) (refusal : Status) (cell : Option Phase) : Prop
  /-- The command ended OK, in the phase of its cell. -/
  | completed {p : Phase} (hc : cell = some p) (hr : t.response.rstat = .ok) (hp : t.phase = p)
  /-- R274: an error of codes 2..6. -/
  | failed {p : Phase} (hc : cell = some p) (hr : isSessionError t.response.rstat = true) (hp : t.phase = .error)
  /-- R221: the straps differ. -/
  | notConfigured {p : Phase} (hc : cell = some p) (hr : t.response.rstat = .configurationError)
    (hp : t.phase = .noSession)
  /-- R273: a refusal for another reason than the phase. -/
  | refused {p : Phase} (st : Status) (hc : cell = some p) (hr : t.response.rstat = st)
    (hst : st = .badDescriptor ∨ st = .unsupportedTagLength ∨ st = .keyRejected)
  /-- R220: the cell refuses, and nothing changes. -/
  | outOfPhase (hc : cell = none) (ht : t = { s with response := bareResponse refusal, requests := [] })

/-- R220: the status of the cells of a command that refuse. -/
def phaseRefusal (i : Instr) (phase : Phase) : Status :=
  if i = .mac ∧ phase ≠ .noSession then .macNotReady else .illegalState

/-- The status of a cell that refuses is IllegalState or MacNotReady. -/
theorem phaseRefusal_cases (i : Instr) (phase : Phase) :
    phaseRefusal i phase = .macNotReady ∨ phaseRefusal i phase = .illegalState := by
  unfold phaseRefusal
  split
  · exact .inl rfl
  · exact .inr rfl

/-- R190, R220: FINALIZE, its checks passed. -/
theorem phaseEnd_closeMessage (outOff : Nat) (s u : State) (refusal : Status) {cell : Option Phase}
    (hc : cell = some .final) : PhaseEnd u (closeMessage P outOff s) refusal cell := by
  rcases closeMessage_cases P outOff s with
    ⟨-, out, requests, h⟩ | ⟨w, out, macBlock, macLen, requests, hashLane, ladder, -, h⟩
  · exact .failed hc (by rw [h]; rfl) (by rw [h])
  · exact .completed hc (by rw [h]; rfl) (by rw [h])

/-- R220, R222: a well-formed INIT, at each of its ends. -/
theorem phaseEnd_of_initOn {k e : Bool} {tagLenBits : BitVec 16} {keyOff keyLen nonceOff nonceLen aadOff aadLen : Word}
    (hwf : keyDescriptorOk k keyOff keyLen = true)
    (h : initOn P k e tagLenBits keyOff keyLen nonceOff nonceLen aadOff aadLen s = .next t) :
    PhaseEnd s t .illegalState
      (phaseAfter (.init k e tagLenBits keyOff keyLen nonceOff nonceLen aadOff aadLen) s.phase s.inited s.keyed) := by
  rw [initOn_eq] at h
  split at h
  · rename_i hkey
    exact absurd (by simpa [keyDescriptorOk] using hwf) hkey
  have hcell : (s.phase = .noSession ∨ (k = false ∧ s.keyed = false)) ↔
      ¬ (s.phase ≠ .noSession ∧ (k = true ∨ s.keyed = true)) := by
    simp only [ne_eq, not_and_or, not_or, not_not, Bool.not_eq_true]
  split at h
  · cases h; exact .outOfPhase (if_pos (hcell.mpr ‹_›)) rfl
  · rename_i hallowed
    have hc : phaseAfter (.init k e tagLenBits keyOff keyLen nonceOff nonceLen aadOff aadLen) s.phase s.inited
        s.keyed = some .ready := if_neg fun h => hallowed (hcell.mp h)
    split at h
    · cases h; exact .failed hc rfl rfl
    split at h
    · cases h; exact .failed hc rfl rfl
    split at h
    · cases h; exact .refused .badDescriptor hc rfl (by decide)
    split at h <;> cases h
    · exact .refused .keyRejected hc rfl (by decide)
    · exact .completed hc rfl (by rw [respond_phase, startSession_frame])

/-- R220, R276: every well-formed command, at each of its ends. -/
theorem phaseEnd_of_execOn (hwf : i.wellFormed = true) (h : execOn P i s = .next t) :
    PhaseEnd s t (phaseRefusal i s.phase) (phaseAfter i s.phase s.inited s.keyed) := by
  cases i <;> simp only [execOn] at h
  case newsession =>
    rw [newSessionOn_eq] at h
    split at h <;> cases h
    · exact .completed rfl rfl rfl
    · exact .notConfigured rfl rfl rfl
  case init => exact phaseEnd_of_initOn hwf h
  case feedaad =>
    rw [feedAadOn_eq] at h
    split at h
    · cases h; exact .outOfPhase (if_neg ‹_›) rfl
    · rename_i hp
      have hp := not_not.mp hp
      split at h
      · cases h; exact .refused .badDescriptor (if_pos hp) rfl (by decide)
      split at h <;> cases h
      exact .completed (if_pos hp) rfl ((onlyHash_phase (onlyHash_absorb P _ _)).trans hp)
  case feedmsg =>
    rw [feedMsgOn_eq] at h
    split at h
    · cases h; exact .outOfPhase (if_neg ‹_›) rfl
    · rename_i hp
      have hp := not_not.mp hp
      split at h
      · cases h; exact .refused .badDescriptor (if_pos hp) rfl (by decide)
      split at h
      · cases h; exact .failed (if_pos hp) rfl rfl
      split at h <;> cases h
      exact .completed (if_pos hp) rfl ((onlyMain_phase (onlyMain_feedMain P _ _ _ _).1).trans hp)
  case updsize =>
    rw [execUpdsize_eq] at h
    split at h <;> cases h
    · exact .completed (if_pos ‹_›) rfl rfl
    · exact .outOfPhase (if_neg ‹_›) rfl
  case finsize =>
    rw [execFinsize_eq] at h
    split at h <;> cases h
    · exact .completed (if_pos ‹_›) rfl rfl
    · exact .outOfPhase (if_neg ‹_›) rfl
  case finalize =>
    rw [finalizeOn_eq] at h
    split at h
    · cases h; exact .outOfPhase (if_neg ‹_›) rfl
    · rename_i hp
      have hp := not_not.mp hp
      split at h
      · cases h; exact .refused .badDescriptor (if_pos hp) rfl (by decide)
      split at h
      · cases h; exact .refused .unsupportedTagLength (if_pos hp) rfl (by decide)
      split at h
      · cases h; exact .failed (if_pos hp) rfl rfl
      split at h <;> cases h
      · exact .failed (if_pos hp) rfl rfl
      · exact phaseEnd_closeMessage _ _ _ _ (if_pos hp)
  case reset =>
    rw [resetOn_eq] at h
    split at h <;> cases h
    · exact .completed (if_pos ‹_›) rfl rfl
    · exact .outOfPhase (if_neg ‹_›) rfl
  case mac =>
    rw [execMac_eq] at h
    split at h
    · rename_i hp
      cases h
      exact .outOfPhase (if_neg (by rw [hp]; decide)) (by rw [phaseRefusal, if_neg fun h => h.2 hp])
    · rename_i hopen
      split at h <;> cases h
      · exact .outOfPhase (if_neg ‹_›) (by rw [phaseRefusal, if_pos ⟨rfl, hopen⟩])
      · rename_i hp
        exact .completed (if_pos (not_not.mp hp)) rfl (not_not.mp hp)
  case algid =>
    rw [algIdOn_eq] at h
    split at h <;> cases h
    · exact .outOfPhase (if_pos ‹_›) rfl
    · exact .completed (if_neg ‹_›) rfl rfl

/-- Settles O16: each end of a command, read against its cell. -/
theorem phaseTable : Obligations.PhaseTable := by
  intro i s t hwf h
  rw [exec_eq_execOn] at h
  cases phaseEnd_of_execOn hwf h with
  | completed hc hr hp =>
    rw [hc, hr]
    exact ⟨nofun, nofun, nofun, nofun, fun _ => hp⟩
  | failed hc hr hp =>
    have hst : ∀ st, isSessionError st = false → t.response.rstat ≠ st := by
      rintro st hfalse rfl
      rw [hfalse] at hr
      cases hr
    rw [hc]
    exact ⟨fun _ => hp, fun h => absurd h (hst _ rfl), hst _ rfl, hst _ rfl, fun h => absurd h (hst _ rfl)⟩
  | notConfigured hc hr hp =>
    rw [hc, hr]
    exact ⟨nofun, fun _ => hp, nofun, nofun, nofun⟩
  | refused st hc hr hst =>
    rw [hc, hr]
    rcases hst with rfl | rfl | rfl <;> exact ⟨nofun, nofun, nofun, nofun, nofun⟩
  | outOfPhase hc ht =>
    rw [hc]
    refine ⟨?_, ?_, ht⟩ <;> rcases phaseRefusal_cases i s.phase with hst | hst <;> rw [ht, hst] <;> nofun

end Sys2Proof.Machine

/-! PROOFS. NEWSESSION, INIT, RESET and ALGID (spec/45_session_control.md R221 to R230): the session INIT starts, the
lanes INIT and RESET leave, and that no other command comes between them. -/

namespace Sys2Proof.Machine

open Sys2Proof.Safety

variable {P : Platform} {i : Instr} {s t : State}

/-! NEWSESSION and ALGID (R221, R227). -/

/-- Settles O29: NEWSESSION's two ends, each written out. -/
theorem newsessionZeroizes : Obligations.NewsessionZeroizes := by
  intro P s
  refine ⟨?_, fun hP => by rw [hP]; rfl⟩
  rw [newSessionOn_eq]
  split <;> rfl

/-- R88: the length of a response's data of at most 32 bytes. -/
theorem okResponse_rlen (val : Nat) {data : List Byte} (h : data.length ≤ 32) :
    (okResponse val data).rlen.toNat = data.length := by
  rw [okResponse, BitVec.toNat_ofNat]
  omega

/-- Settles O34: the name and its suffix are the data of the response. -/
theorem algidAnswersTheName : Obligations.AlgidAnswersTheName := by
  rw [Obligations.AlgidAnswersTheName, exec_eq_execOn]
  refine ⟨fun s hp => (algIdOn_eq _ s).trans (if_pos hp), fun s hp => ?_⟩
  refine ⟨_, (algIdOn_eq _ s).trans (if_neg hp), rfl, rfl, rfl, ?_, fun i hi => ofList_getElem _ hi⟩
  rw [okResponse_rlen 0 (length_algId_le _), List.length_append]
  rfl

/-! INIT whose checks pass (R222, R276). -/

section Init

variable {k e : Bool} {tagLenBits : BitVec 16} {keyOff keyLen nonceOff nonceLen aadOff aadLen : Word}

/-- R276: the checks of INIT, in their order. -/
structure InitAccepted (P : Platform) (k : Bool) (tagLenBits : BitVec 16)
    (keyOff keyLen nonceOff nonceLen aadOff aadLen : Word) (s : State) : Prop where
  keyWords : k = true ∨ (keyOff = 0 ∧ keyLen = 0)
  allowed : s.phase ≠ .noSession ∧ (k = true ∨ s.keyed = true)
  tag : 32 ≤ tagLenBits.toNat ∧ tagLenBits.toNat ≤ 256 ∧ tagLenBits.toNat % 8 = 0
  nonce : 1 ≤ nonceLen.toNat ∧ nonceLen.toNat ≤ 15
  fits : keyOff.toNat + keyLen.toNat ≤ P.ibufSize.val ∧ nonceOff.toNat + nonceLen.toNat ≤ P.ibufSize.val ∧
    aadOff.toNat + aadLen.toNat ≤ P.ibufSize.val ∧ aadLen.toNat ≤ P.iaadMax.val
  key : k = true → P.keyLenOk keyLen.toNat = true

/-- R223: the key an INIT brings. -/
def initKey (k : Bool) (keyOff keyLen : Word) (s : State) : Option Key :=
  if k then some (inputBytes s keyOff keyLen) else none

/-- R222: the session INIT starts in `s`, before its response. -/
def startedBy (P : Platform) (k e : Bool) (tagLenBits : BitVec 16)
    (keyOff keyLen nonceOff nonceLen aadOff aadLen : Word) (s : State) : State :=
  startSession P e tagLenBits (initKey k keyOff keyLen s) (inputBytes s nonceOff nonceLen)
    (inputBytes s aadOff aadLen) (begin s)

theorem initOn_completes (h : InitAccepted P k tagLenBits keyOff keyLen nonceOff nonceLen aadOff aadLen s) :
    initOn P k e tagLenBits keyOff keyLen nonceOff nonceLen aadOff aadLen s =
      .next (respond 0 [] (startedBy P k e tagLenBits keyOff keyLen nonceOff nonceLen aadOff aadLen s)) := by
  rw [initOn_eq, if_neg (not_not.mpr h.keyWords), if_neg (not_not.mpr h.allowed), if_neg (not_not.mpr h.tag),
    if_neg (not_not.mpr h.nonce), if_neg (not_not.mpr h.fits), if_neg (not_not.mpr h.key)]
  rfl

/-- R276: an INIT that ends OK has passed all its checks. -/
theorem initOn_ok (h : initOn P k e tagLenBits keyOff keyLen nonceOff nonceLen aadOff aadLen s = .next t)
    (hr : t.response.rstat = .ok) :
    InitAccepted P k tagLenBits keyOff keyLen nonceOff nonceLen aadOff aadLen s ∧
      t = respond 0 [] (startedBy P k e tagLenBits keyOff keyLen nonceOff nonceLen aadOff aadLen s) := by
  rw [initOn_eq] at h
  iterate 6 (split at h; · cases h; cases hr)
  rename_i h1 h2 h3 h4 h5 h6
  cases h
  exact ⟨⟨not_not.mp h1, not_not.mp h2, not_not.mp h3, not_not.mp h4, not_not.mp h5, not_not.mp h6⟩, rfl⟩

end Init


/-! The lanes INIT and RESET leave (R225, R230). -/

/-- R225: the lanes and the tag as the reset procedure leaves them: a function of the key, `offsetMain_0` and the retained
AAD. -/
structure LanesRebuilt (P : Platform) (s : State) : Prop where
  hash : s.hashLane = (initAADBytes s).foldl (hashByteOf (permEnc P s.hpKey) s.lDollar) HashLane.zero
  main : s.mainLane = { MainLane.zero with offsetMain := s.offsetMain0 }
  macBlock : s.macBlock = zeroBytes 32
  macLen : s.macLen = 0

/-- The retained AAD is kept with the session. -/
theorem initAADBytes_of_kept (hk : SessionKept s t) : initAADBytes t = initAADBytes s := by
  rw [hk.frame]
  rfl

theorem lanesRebuilt_resetProcedure (hl : LadderOk s.lDollar s.ladder) :
    LanesRebuilt P (resetProcedure P false s) := by
  have ho := onlyHash_resetProcedure P false s
  refine ⟨?_, (onlyHash_mainLane ho).trans ?_, onlyHash_macBlock ho, onlyHash_macLen ho⟩
  · rw [initAADBytes_of_kept (sessionKept_resetProcedure P false s), onlyHash_hpKey ho, onlyHash_lDollar ho]
    exact resetProcedure_hashLane P false hl
  · rw [onlyHash_offsetMain0 ho]
    rfl

/-- R222: the lanes of the session that INIT has just started. -/
theorem lanesRebuilt_startSession (hs : SessionOk P s) (e : Bool) (tagLenBits : BitVec 16) {key : Option Key}
    (hkey : key = none → s.keyed = true) (nonce aad : List Byte) :
    LanesRebuilt P (startSession P e tagLenBits key nonce aad s) := by
  obtain ⟨hk, -⟩ := keysOk_noncedState (keysOk_of_sessionOk hs) e tagLenBits hkey nonce aad
  obtain ⟨hash, main, macBlock, macLen⟩ := lanesRebuilt_resetProcedure (P := P) hk.ladder.1
  rw [startSession_eq]
  exact ⟨hash, main, macBlock, macLen⟩

/-- R230: two states of one session whose lanes have been rebuilt have the same lanes. -/
theorem LanesRebuilt.unique (hs : LanesRebuilt P s) (ht : LanesRebuilt P t) (hk : SessionKept s t) :
    t.hashLane = s.hashLane ∧ t.mainLane = s.mainLane ∧ t.macBlock = s.macBlock ∧ t.macLen = s.macLen := by
  refine ⟨?_, ?_, ht.macBlock.trans hs.macBlock.symm, ht.macLen.trans hs.macLen.symm⟩
  · rw [ht.hash, hs.hash, initAADBytes_of_kept hk, hk.frame]
  · rw [ht.main, hs.main, hk.frame]

/-! RESET (R226). -/

/-- R226: RESET, accepted. -/
theorem resetOn_completes (hp : s.phase = .ready ∨ s.phase = .final ∨ (s.phase = .error ∧ s.inited = true)) :
    resetOn P s = .next (respond 0 [] { resetProcedure P false (begin s) with phase := .ready }) :=
  (resetOn_eq P s).trans (if_pos hp)

/-- Settles O32: RESET is the reset procedure, which clears the lanes and absorbs the initial AAD. -/
theorem resetRebuildsTheLanes : Obligations.ResetRebuildsTheLanes := by
  rw [Obligations.ResetRebuildsTheLanes, exec_eq_execOn]
  intro s hl hp
  have ho := onlyHash_resetProcedure Config.platform false (begin s)
  have hkept := sessionKept_resetProcedure Config.platform false (begin s)
  have hholds := (sessionHolds_resetProcedure Config.platform false (s := begin s) hl).hash
  rw [onlyHash_hpKey ho, onlyHash_lDollar ho] at hholds
  refine ⟨_, resetOn_completes hp, ?_, hholds, hkept.grown⟩
  generalize resetProcedure Config.platform false (begin s) = u at ho
  rw [ho]
  rfl

/-! Commands between an INIT and a RESET (R230, R275). -/

/-- R24: only INIT and NEWSESSION write `inited`. -/
theorem inited_of_commandEnd (h : CommandEnd P s t i) (hi : changesSession i = false) : t.inited = s.inited := by
  cases h with
  | responded r _ ht => subst ht; rfl
  | failed st ht => subst ht; rfl
  | initFailed | opened | started => cases hi
  | aadFed h hr => rw [feedAad_frame h hr]
  | @msgFed inOff len outOff _ h hr =>
    obtain ⟨-, -, -, -, -, ht⟩ := feedMsg_ok h hr
    subst ht
    have hin := onlyMain_inited (onlyMain_feedMain P outOff.toNat (inputBytes s inOff len) 0 (begin s)).1
    exact hin
  | @closed outOff _ _ _ _ _ _ ht =>
    rcases closeMessage_cases P outOff.toNat (begin s) with ⟨-, _, _, h⟩ | ⟨_, _, _, _, _, _, _, -, h⟩
    · rw [ht, h]; rfl
    · rw [ht, h]; rfl
  | replayed _ ht =>
    subst ht
    have hin := onlyHash_inited (onlyHash_resetProcedure P false (begin s))
    exact hin

/-- R44: a run without INIT and NEWSESSION keeps the session, its invariant and `inited`. -/
theorem sessionKept_of_runOn : ∀ {commands : List Instr} {s t : State}, SessionOk P s →
    (∀ c ∈ commands, changesSession c = false) → runOn P commands s = some t →
    SessionOk P t ∧ SessionKept s t ∧ t.inited = s.inited
  | [], s, t, hs, _, h => by
    cases h
    exact ⟨hs, ⟨rfl, List.prefix_refl _⟩, rfl⟩
  | c :: rest, s, t, hs, hc, h => by
    rw [runOn] at h
    split at h
    · rename_i u hu
      have he := commandEnd_of_execOn hu
      have hfixed := hc c List.mem_cons_self
      obtain ⟨hok, hkept, hin⟩ := sessionKept_of_runOn (sessionOk_of_commandEnd hs he)
        (fun d hd => hc d (List.mem_cons_of_mem c hd)) h
      exact ⟨hok, sessionKept_trans (sessionKept_of_commandEnd he hfixed) hkept,
        hin.trans (inited_of_commandEnd he hfixed)⟩
    · cases h
    · cases h

/-- R226, R275: an initialised session accepts RESET, whatever its phase. -/
theorem resettable_of_inited (hs : SessionOk P s) (hi : s.inited = true) :
    s.phase = .ready ∨ s.phase = .final ∨ (s.phase = .error ∧ s.inited = true) := by
  cases hp : s.phase with
  | noSession => rw [(hs.noSession hp).2.1] at hi; cases hi
  | uninit => rw [(hs.uninit hp).1] at hi; cases hi
  | ready => exact .inl rfl
  | final => exact .inr (.inl rfl)
  | error => exact .inr (.inr ⟨rfl, hi⟩)

/-! What INIT sets (R222, R223). -/

/-- R38: the retained AAD of the session INIT has started. -/
theorem initAADBytes_startSession (P : Platform) (e : Bool) (tagLenBits : BitVec 16) (key : Option Key)
    (nonce aad : List Byte) (s : State) (h : aad.length < 2 ^ 32) :
    initAADBytes (startSession P e tagLenBits key nonce aad s) = aad := by
  rw [startSession_frame]
  exact initAADBytes_setInitAAD aad _ h

/-- R21, R22, R28, R30, R43, R137: the parameters INIT sets, whether it brings a key or goes on with the session's. -/
theorem startSession_params (hs : SessionOk P s) (e : Bool) {tagLenBits : BitVec 16} (h256 : tagLenBits.toNat ≤ 256)
    {key : Option Key} (hkey : key = none → s.keyed = true) (nonce aad : List Byte) :
    (startSession P e tagLenBits key nonce aad s).mode = (if e then .encrypt else .decrypt) ∧
    (startSession P e tagLenBits key nonce aad s).tagLen.toNat = tagLenBits.toNat / 8 ∧
    (startSession P e tagLenBits key nonce aad s).ktopValid = true ∧
    (startSession P e tagLenBits key nonce aad s).ktopInput =
      maskBottom (formatNonce P (tagLenBits.toNat / 8) nonce) ∧
    (startSession P e tagLenBits key nonce aad s).offsetMain0 =
      initialOffset P (permEnc P (startSession P e tagLenBits key nonce aad s).hpKey) (tagLenBits.toNat / 8) nonce := by
  obtain ⟨hk, -⟩ := keysOk_keyedState (keysOk_of_sessionOk hs) e tagLenBits hkey
  have htag := keyedState_tagLen (P := P) e tagLenBits key s h256
  have hmode : (keyedState P e tagLenBits key s).mode = if e then .encrypt else .decrypt := by cases key <;> rfl
  obtain ⟨hoffset, hvalid, hinput, -⟩ := ktopCacheIsInvisible P nonce (keyedState P e tagLenBits key s) hk.ktop
  rw [htag] at hoffset hinput
  rw [startSession_frame]
  simp only [noncedState, setInitAAD_ktopValid, setInitAAD_ktopInput, setInitAAD_offsetMain0]
  exact ⟨hmode, htag, hvalid, hinput, hoffset⟩

/-- R60: INIT leaves the buffer spaces, the host's queue and the draws alone. -/
theorem startSession_ports (P : Platform) (e : Bool) (tagLenBits : BitVec 16) (key : Option Key)
    (nonce aad : List Byte) (s : State) :
    (startSession P e tagLenBits key nonce aad s).ibuf = s.ibuf ∧
    (startSession P e tagLenBits key nonce aad s).obuf = s.obuf ∧
    (startSession P e tagLenBits key nonce aad s).hostQueue = s.hostQueue ∧
    (startSession P e tagLenBits key nonce aad s).draws = s.draws := by
  rw [startSession_frame]
  cases key <;> exact ⟨rfl, rfl, rfl, rfl⟩

section Init

variable {k e : Bool} {tagLenBits : BitVec 16} {keyOff keyLen nonceOff nonceLen aadOff aadLen : Word}

/-- R220: an INIT without a key is accepted in a keyed session only. -/
theorem InitAccepted.keyed (h : InitAccepted P k tagLenBits keyOff keyLen nonceOff nonceLen aadOff aadLen s)
    (hkey : initKey k keyOff keyLen s = none) : s.keyed = true := by
  cases k with
  | false => exact h.allowed.2.resolve_left Bool.false_ne_true
  | true => cases hkey

/-- R222: the session `t` that an INIT of mode `e`, a tag length, a nonce and an AAD has started in `s`, whatever its key. -/
structure SessionStarted (P : Platform) (e : Bool) (tagLenBits : BitVec 16) (nonce aad : List Byte) (s t : State) :
    Prop where
  ok : SessionOk P t
  phase : t.phase = .ready
  mode : t.mode = if e then .encrypt else .decrypt
  tagLen : t.tagLen.toNat = tagLenBits.toNat / 8
  ktopValid : t.ktopValid = true
  ktopInput : t.ktopInput = maskBottom (formatNonce P (tagLenBits.toNat / 8) nonce)
  offsetMain0 : t.offsetMain0 = initialOffset P (permEnc P t.hpKey) (tagLenBits.toNat / 8) nonce
  initAADLen : t.initAADLen = BitVec.ofNat 32 aad.length
  initAADBytes : initAADBytes t = aad
  rebuilt : LanesRebuilt P t
  holds : SessionHolds P aad [] t
  ibuf : t.ibuf = s.ibuf
  obuf : t.obuf = s.obuf
  hostQueue : t.hostQueue = s.hostQueue
  draws : t.draws = s.draws

theorem sessionStarted_startedBy (hs : SessionOk P s)
    (h : InitAccepted P k tagLenBits keyOff keyLen nonceOff nonceLen aadOff aadLen s) (e : Bool) :
    SessionStarted P e tagLenBits (inputBytes s nonceOff nonceLen) (inputBytes s aadOff aadLen) s
      (startedBy P k e tagLenBits keyOff keyLen nonceOff nonceLen aadOff aadLen s) := by
  have hb := sessionOk_begin hs
  have hkeyed := h.keyed
  have haad : (inputBytes s aadOff aadLen).length < 2 ^ 32 := by rw [inputBytes_length]; exact aadLen.isLt
  unfold startedBy
  generalize initKey k keyOff keyLen s = key at *
  generalize inputBytes s nonceOff nonceLen = nonce
  generalize inputBytes s aadOff aadLen = aad at *
  obtain ⟨hmode, htag, hvalid, hinput, hoffset⟩ := startSession_params hb e h.tag.2.1 hkeyed nonce aad
  obtain ⟨hibuf, hobuf, hqueue, hdraws⟩ := startSession_ports P e tagLenBits key nonce aad (begin s)
  have hframe := startSession_frame P e tagLenBits key nonce aad (begin s)
  exact
    { ok := sessionOk_startSession hb e h.tag.1 h.tag.2.1 hkeyed nonce aad
      phase := by rw [hframe]
      mode := hmode
      tagLen := htag
      ktopValid := hvalid
      ktopInput := hinput
      offsetMain0 := hoffset
      initAADLen := by rw [hframe]; rfl
      initAADBytes := initAADBytes_startSession P e tagLenBits key nonce aad (begin s) haad
      rebuilt := lanesRebuilt_startSession hb e tagLenBits hkeyed nonce aad
      holds := sessionHolds_startSession P e tagLenBits key nonce aad hb.ladder haad
      ibuf := hibuf
      obuf := hobuf
      hostQueue := hqueue
      draws := hdraws }

/-- R222: what INIT makes of its key and nonce does not depend on its AAD, and neither does the crypt lane. -/
theorem startedBy_aad_free (P : Platform) (k e : Bool) (tagLenBits : BitVec 16)
    (keyOff keyLen nonceOff nonceLen aadOff aadLen aadOff' aadLen' : Word) {t u : State}
    (ht : t = startedBy P k e tagLenBits keyOff keyLen nonceOff nonceLen aadOff aadLen s)
    (hu : u = startedBy P k e tagLenBits keyOff keyLen nonceOff nonceLen aadOff' aadLen' s) :
    u.hpKey = t.hpKey ∧ u.lDollar = t.lDollar ∧ u.mainLane = t.mainLane := by
  rw [ht, hu, startedBy, startedBy, startSession_frame, startSession_frame]
  exact ⟨rfl, rfl, rfl⟩

/-- R223: INIT loads its key, or keeps the session's with what was made from it. -/
theorem startedBy_keys {t : State}
    (ht : t = startedBy P k e tagLenBits keyOff keyLen nonceOff nonceLen aadOff aadLen s) :
    (k = true → t.hpKey = some (inputBytes s keyOff keyLen)) ∧
    (k = false → t.hpKey = s.hpKey ∧ t.lStar = s.lStar ∧ t.lDollar = s.lDollar ∧ s.ladder <+: t.ladder) := by
  subst ht
  constructor <;> rintro rfl
  · exact (startSession_loads_key P e tagLenBits _ _ _ (begin s)).1
  · obtain ⟨hhp, -, hkept⟩ := startSession_keeps_keys P e tagLenBits (inputBytes s nonceOff nonceLen)
      (inputBytes s aadOff aadLen) (begin s)
    exact ⟨hhp, hkept⟩

end Init

/-- R224: the AAD of an INIT is folded into the empty hash lane. -/
theorem SessionStarted.hashLane {e : Bool} {tagLenBits : BitVec 16} {nonce aad : List Byte}
    (h : SessionStarted P e tagLenBits nonce aad s t) :
    t.hashLane = aad.foldl (hashByteOf (permEnc P t.hpKey) t.lDollar) HashLane.zero := by
  rw [h.rebuilt.hash, h.initAADBytes]

/-- Settles O30: the checks pass, the invariant gives the key state, and the rest is what INIT sets. -/
theorem initStartsTheSession : Obligations.InitStartsTheSession := by
  intro P k e tagLenBits keyOff keyLen nonceOff nonceLen aadOff aadLen s hs hp hkeep hlen h32 h256 h8 hn1 hn15
    hkeyFits hnonceFits haadFits haadMax
  have haccepted : InitAccepted P k tagLenBits keyOff keyLen nonceOff nonceLen aadOff aadLen s := by
    refine ⟨?_, ⟨hp, ?_⟩, ⟨h32, h256, h8⟩, ⟨hn1, hn15⟩, ⟨hkeyFits, hnonceFits, haadFits, haadMax⟩, hlen⟩ <;>
      cases k
    · exact .inr (hkeep rfl).2
    · exact .inl rfl
    · exact .inr (hkeep rfl).1
    · exact .inl rfl
  have hrun := initOn_completes (e := e) haccepted
  have hstarted := sessionStarted_startedBy hs haccepted e
  obtain ⟨hloaded, hkept⟩ := startedBy_keys (rfl :
    startedBy P k e tagLenBits keyOff keyLen nonceOff nonceLen aadOff aadLen s = _)
  generalize startedBy P k e tagLenBits keyOff keyLen nonceOff nonceLen aadOff aadLen s = t at *
  have hin := (hstarted.ok.ready hstarted.phase).1
  obtain ⟨hkeyed, -⟩ := hstarted.ok.inited hin
  obtain ⟨key, hhp, hstar, hdollar⟩ := hstarted.ok.keyed hkeyed
  obtain ⟨_, hhp', hstretch⟩ := hstarted.ok.ktop hstarted.ktopValid
  cases hhp.symm.trans hhp'
  have hoffset := hstarted.offsetMain0
  rw [hhp] at hoffset
  have haadLen := hstarted.initAADLen
  rw [inputBytes_length, BitVec.ofNat_toNat, BitVec.setWidth_eq] at haadLen
  refine ⟨respond 0 [] t, key, hrun, fun hP => by rw [exec_eq_execOn, ← hP]; exact hrun, fun hk => ?_, fun hk => ?_,
    hhp, hstarted.ok.sameKey.symm.trans hhp, hstar, hdollar, hstarted.mode, hstarted.tagLen, hstarted.ktopValid,
    hstarted.ktopInput, hstretch, hoffset, haadLen, hstarted.initAADBytes, sessionHolds_respond hstarted.holds 0 [],
    hstarted.rebuilt.main, hstarted.rebuilt.macBlock, hstarted.rebuilt.macLen, hin, hkeyed, hstarted.phase, rfl,
    hstarted.ibuf, hstarted.obuf, hstarted.hostQueue, hstarted.draws⟩
  · exact Option.some.inj (hhp.symm.trans (hloaded hk))
  · obtain ⟨hsame, hmade⟩ := hkept hk
    exact ⟨hsame.symm.trans hhp, hmade⟩

/-- Settles O31: INIT folds its AAD into the empty hash lane, and so does FEEDAAD into the lane that the INIT without AAD
leaves. -/
theorem initialAadIsFedAsByFeedaad : Obligations.InitialAadIsFedAsByFeedaad := by
  intro P k e tagLenBits keyOff keyLen nonceOff nonceLen aadOff aadLen s t u v hs ht hr hu hv
  obtain ⟨haccepted, rfl⟩ := initOn_ok ht hr
  obtain ⟨hkey, hnonce, haad, -⟩ := haccepted.fits
  have haccepted₀ : InitAccepted P k tagLenBits keyOff keyLen nonceOff nonceLen 0 0 s :=
    { haccepted with fits := ⟨hkey, hnonce, Nat.zero_le _, Nat.zero_le _⟩ }
  cases hu.symm.trans (initOn_completes haccepted₀)
  have hstarted := sessionStarted_startedBy hs haccepted e
  have hstarted₀ := sessionStarted_startedBy hs haccepted₀ e
  obtain ⟨hhp, hdollar, hmain⟩ := startedBy_aad_free P k e tagLenBits keyOff keyLen nonceOff nonceLen aadOff aadLen 0 0
    rfl (rfl : startedBy P k e tagLenBits keyOff keyLen nonceOff nonceLen 0 0 s = _)
  generalize startedBy P k e tagLenBits keyOff keyLen nonceOff nonceLen aadOff aadLen s = w at *
  generalize startedBy P k e tagLenBits keyOff keyLen nonceOff nonceLen 0 0 s = w₀ at *
  have hempty : w₀.hashLane = HashLane.zero := hstarted₀.hashLane
  have hcount : w₀.hashLane.hashCount.toNat + (w₀.hashLane.hashPos.toNat + aadLen.toNat) / 16 < 2 ^ 64 := by
    have hzero : HashLane.zero.hashCount.toNat = 0 ∧ HashLane.zero.hashPos.toNat = 0 := ⟨rfl, rfl⟩
    have := aadLen.isLt
    rw [hempty]
    omega
  have hvr : v.response.rstat = .ok := by
    cases hv.symm.trans (feedAadOn_completes (s := respond 0 [] w₀) hstarted₀.phase haad hcount)
    rfl
  obtain ⟨ladder, requests, rfl⟩ := feedAad_effect (s := respond 0 [] w₀) hstarted₀.ok.ladder hv hvr
  refine ⟨rfl, ?_, hmain, hstarted₀.phase.trans hstarted.phase.symm⟩
  rw [inputBytes_congr (s := s) (t := respond 0 [] w₀) hstarted₀.ibuf]
  simp only [respond_hashLane, respond_hpKey, respond_lDollar, hstarted.hashLane, hempty, hhp, hdollar]

/-- Settles O33: an initialised session accepts RESET, and INIT and RESET both rebuild the lanes of the session that the
commands between them have kept. -/
theorem resetRestoresInitsLanes : Obligations.ResetRestoresInitsLanes := by
  intro P k e tagLenBits keyOff keyLen nonceOff nonceLen aadOff aadLen s t u v commands hs ht hr hc hu hv
  obtain ⟨haccepted, rfl⟩ := initOn_ok ht hr
  have hstarted := sessionStarted_startedBy hs haccepted e
  generalize startedBy P k e tagLenBits keyOff keyLen nonceOff nonceLen aadOff aadLen s = w at *
  obtain ⟨huok, hukept, huin⟩ := sessionKept_of_runOn (sessionOk_respond hstarted.ok 0 []) hc hu
  have hin := huin.trans (hstarted.ok.ready hstarted.phase).1
  cases hv.symm.trans (resetOn_completes (resettable_of_inited huok hin))
  have hreset := lanesRebuilt_resetProcedure (P := P) (s := begin u) huok.ladder
  have hbegin : SessionKept u (begin u) := ⟨rfl, List.prefix_refl _⟩
  have hkept := sessionKept_trans (s := w) (sessionKept_respond 0 [] w)
    (sessionKept_trans hukept (sessionKept_trans hbegin (sessionKept_resetProcedure P false (begin u))))
  obtain ⟨hhash, hmain, hblock, hlen⟩ := hstarted.rebuilt.unique hreset hkept
  have hmode : (resetProcedure P false (begin u)).mode = w.mode := by rw [hkept.frame]
  have htag : (resetProcedure P false (begin u)).tagLen = w.tagLen := by rw [hkept.frame]
  exact ⟨rfl, hhash, hmain, hstarted.phase.symm, hmode, htag, hblock, hlen⟩

end Sys2Proof.Machine

/-! PROOFS. How commands end (spec/60_exceptions.md): the first check that fires decides whether it is with a refusal
(R273), with an error (R274) or OK (R276); the response holds no secret (R280). -/

namespace Sys2Proof.Machine

open Sys2Proof.Safety

variable {P : Platform} {i : Instr} {s t : State}

/-! The first check, in the order in which the commands ask (R276). -/

section
variable (P) (s)

theorem firstCheck_newsession : firstCheck P .newsession s =
    if P.hpBlk = 16 ∧ P.mpBlk = 16 ∧ P.hpName.string = P.mpName.string then .ok else .configurationError := by
  simp only [firstCheck, ne_eq, ← not_and_or, ite_not]

theorem firstCheck_init (k e : Bool) (tagLenBits : BitVec 16) (keyOff keyLen nonceOff nonceLen aadOff aadLen : Word) :
    firstCheck P (.init k e tagLenBits keyOff keyLen nonceOff nonceLen aadOff aadLen) s =
      if ¬ (k = true ∨ (keyOff = 0 ∧ keyLen = 0)) then .illegalCommand
      else if ¬ (s.phase ≠ .noSession ∧ (k = true ∨ s.keyed = true)) then .illegalState
      else if ¬ (32 ≤ tagLenBits.toNat ∧ tagLenBits.toNat ≤ 256 ∧ tagLenBits.toNat % 8 = 0) then .invalidTagLength
      else if ¬ (1 ≤ nonceLen.toNat ∧ nonceLen.toNat ≤ 15) then .invalidNonce
      else if ¬ (keyOff.toNat + keyLen.toNat ≤ P.ibufSize.val ∧ nonceOff.toNat + nonceLen.toNat ≤ P.ibufSize.val ∧
          aadOff.toNat + aadLen.toNat ≤ P.ibufSize.val ∧ aadLen.toNat ≤ P.iaadMax.val) then .badDescriptor
      else if ¬ (k = true → P.keyLenOk keyLen.toNat = true) then .keyRejected
      else .ok := by
  simp only [firstCheck, not_or, not_and_or, not_not, ne_eq, Nat.not_le, Bool.not_eq_true, Classical.not_imp]

theorem firstCheck_feedaad (inOff len : Word) : firstCheck P (.feedaad inOff len) s =
    if s.phase ≠ .ready then .illegalState
    else if ¬ inOff.toNat + len.toNat ≤ P.ibufSize.val then .badDescriptor
    else .ok := by
  simp only [firstCheck, Nat.not_le]

theorem firstCheck_feedmsg (inOff len outOff outLen : Word) : firstCheck P (.feedmsg inOff len outOff outLen) s =
    if s.phase ≠ .ready then .illegalState
    else if ¬ (inOff.toNat + len.toNat ≤ P.ibufSize.val ∧ outLen.toNat ≤ P.obufSize.val) then .badDescriptor
    else if ¬ outOff.toNat + updsize s len.toNat ≤ outLen.toNat then .bufferTooSmall
    else .ok := by
  simp only [firstCheck, not_and_or, Nat.not_le]

theorem firstCheck_updsize (len : Word) : firstCheck P (.updsize len) s =
    if s.phase = .ready ∨ s.phase = .final then .ok else .illegalState := by
  simp only [firstCheck, ne_eq, ← not_or, ite_not]

theorem firstCheck_finsize (len : Word) : firstCheck P (.finsize len) s =
    if s.phase = .ready ∨ s.phase = .final then .ok else .illegalState :=
  firstCheck_updsize P s len

theorem firstCheck_finalize (outOff outLen : Word) : firstCheck P (.finalize outOff outLen) s =
    if s.phase ≠ .ready then .illegalState
    else if ¬ outLen.toNat ≤ P.obufSize.val then .badDescriptor
    else if 16 < s.tagLen.toNat then .unsupportedTagLength
    else if dataTooShort s = true then .dataTooShort
    else if ¬ outOff.toNat + finsize s 0 ≤ outLen.toNat then .bufferTooSmall
    else .ok := by
  have hshort : dataTooShort s = true ↔ s.mode = .decrypt ∧ s.mainLane.mainPos.toNat < s.tagLen.toNat := by
    cases hm : s.mode <;> simp [dataTooShort, hm]
  simp only [firstCheck, hshort, Nat.not_le]

theorem firstCheck_reset : firstCheck P .reset s =
    if s.phase = .ready ∨ s.phase = .final ∨ (s.phase = .error ∧ s.inited = true) then .ok else .illegalState := by
  cases hp : s.phase <;> cases hi : s.inited <;> simp [firstCheck, hp, hi]

end

/-! The ends of a command (R273, R274, R276). -/

/-- R274: the command `i`, begun in `s`, has raised the error `st` and made no request. -/
def errorEntry (i : Instr) (st : Status) (s : State) : State := { s with
  response := bareResponse st
  macBlock := zeroBytes 32, macLen := 0
  hashLane := HashLane.free s.draws, mainLane := MainLane.free s.draws, draws := s.draws + 1
  phase := .error
  inited := match i with
    | .init _ _ _ _ _ _ _ _ _ => false
    | _ => s.inited
  keyed := match i with
    | .init k _ _ _ _ _ _ _ _ => if k then false else s.keyed
    | _ => s.keyed
  requests := [] }

/-- R88, R174, R175, R176, R190: `RVAL` of a command that ends OK. -/
def answerValue (i : Instr) (s : State) : Nat :=
  match i with
  | .feedmsg _ len _ _ => updsize s len.toNat
  | .updsize len => updsize s len.toNat
  | .finsize len => finsize s len.toNat
  | .finalize _ _ => finsize s 0
  | _ => 0

/-- R88, R204, R227: the data of a command that ends OK. -/
def answerData (P : Platform) (i : Instr) (s : State) : List Byte :=
  match i with
  | .mac => macBytes s
  | .algid => P.hpName.string ++ ocbSuffix
  | _ => []

/-- U5: the command `i` is a feed that would carry its block counter past `2^64 - 1`. -/
def CounterWraps (i : Instr) (s : State) : Prop :=
  (∃ inOff len, i = .feedaad inOff len ∧
    2 ^ 64 ≤ s.hashLane.hashCount.toNat + (s.hashLane.hashPos.toNat + len.toNat) / 16) ∨
  (∃ inOff len outOff outLen, i = .feedmsg inOff len outOff outLen ∧
    2 ^ 64 ≤ s.mainLane.mainCount.toNat + updsize s len.toNat / 16)

/-- How the command `i`, begun in `s`, ends when `st` is the first check that fires. -/
inductive CheckedEnd (P : Platform) (i : Instr) (s : State) : Status → Result → Prop
  /-- R273. -/
  | refused {st : Status} (hst : isRefusal st = true) :
      CheckedEnd P i s st (.next { s with response := bareResponse st, requests := [] })
  /-- R274: an error that a check has found. -/
  | failed {st : Status} (hst : isSessionError st = true) : CheckedEnd P i s st (.next (errorEntry i st s))
  /-- R261: the straps differ. -/
  | notConfigured :
      CheckedEnd P i s .configurationError (.next { zeroize s with response := bareResponse .configurationError })
  /-- U5: a feed stops behind its checks. -/
  | stopped (h : CounterWraps i s) : CheckedEnd P i s .ok (.fault .counterWrap)
  /-- R198: FINALIZE has found another tag than the one received. -/
  | rejected {outOff outLen : Word} (hi : i = .finalize outOff outLen) (hm : s.mode = .decrypt) (obuf : Memory)
      (requests : List PermRequest) : CheckedEnd P i s .ok
        (.next { errorEntry i .authenticationFailed s with obuf := obuf, requests := requests })
  /-- R88: the command has done its work. -/
  | completed {t : State} (hok : t.response.rstat = .ok)
      (hr : SessionOk P s → t.response = okResponse (answerValue i s) (answerData P i s)) :
      CheckedEnd P i s .ok (.next t)

/-- R190, R198: FINALIZE, its checks passed. -/
theorem checkedEnd_closeMessage {outOff outLen : Word}
    (h : finalizeOn P outOff outLen s = .next (closeMessage P outOff.toNat (begin s))) :
    CheckedEnd P (.finalize outOff outLen) s .ok (.next (closeMessage P outOff.toNat (begin s))) := by
  rcases closeMessage_cases P outOff.toNat (begin s) with ⟨hm, out, requests, ht⟩ | ⟨w, _, _, _, _, _, _, -, ht⟩
  · rw [ht]
    exact .rejected (s := s) rfl hm _ requests
  · have hok : (closeMessage P outOff.toNat (begin s)).response.rstat = .ok := by rw [ht]; rfl
    refine .completed hok fun hs => ?_
    obtain ⟨-, -, -, out, hclosed⟩ := finalize_ok hs h hok
    rw [hclosed.frame]
    rfl

/-- R276: every command, in every state, ends as its first check says. -/
theorem checkedEnd_execOn (P : Platform) (i : Instr) (s : State) :
    CheckedEnd P i s (firstCheck P i s) (execOn P i s) := by
  cases i with
  | newsession =>
    rw [firstCheck_newsession, execOn, newSessionOn_eq]
    split
    · exact .completed rfl fun _ => rfl
    · exact .notConfigured
  | init =>
    rw [firstCheck_init, execOn, initOn_eq]
    split; · exact .refused rfl
    split; · exact .refused rfl
    split; · exact .failed rfl
    split; · exact .failed rfl
    split; · exact .refused rfl
    split; · exact .refused rfl
    exact .completed rfl fun _ => rfl
  | feedaad inOff len =>
    rw [firstCheck_feedaad, execOn, feedAadOn_eq]
    split; · exact .refused rfl
    split; · exact .refused rfl
    split
    · exact .stopped (.inl ⟨inOff, len, rfl, ‹_›⟩)
    · exact .completed rfl fun _ => rfl
  | feedmsg inOff len outOff outLen =>
    rw [firstCheck_feedmsg, execOn, feedMsgOn_eq]
    split; · exact .refused rfl
    rename_i hp
    split; · exact .refused rfl
    split; · exact .failed rfl
    split
    · exact .stopped (.inr ⟨inOff, len, outOff, outLen, rfl, ‹_›⟩)
    · rename_i hc
      refine .completed rfl fun hs => ?_
      have hcount := feedMain_count_eq_updsize (bytes := inputBytes s inOff len) outOff.toNat (sessionOk_begin hs)
        (not_not.mp hp) (by rw [inputBytes_length]; exact Nat.lt_of_not_le hc)
      rw [inputBytes_length] at hcount
      exact congrArg (okResponse · []) hcount
  | updsize =>
    rw [firstCheck_updsize, execOn, execUpdsize_eq]
    split
    · exact .completed rfl fun _ => rfl
    · exact .refused rfl
  | finsize =>
    rw [firstCheck_finsize, execOn, execFinsize_eq]
    split
    · exact .completed rfl fun _ => rfl
    · exact .refused rfl
  | finalize outOff outLen =>
    rw [firstCheck_finalize, execOn, finalizeOn_eq]
    split; · exact .refused rfl
    split; · exact .refused rfl
    split; · exact .refused rfl
    split; · exact .failed rfl
    split; · exact .failed rfl
    rename_i hp hout htag hshort hroom
    exact checkedEnd_closeMessage (finalizeOn_completes (not_not.mp hp) (not_not.mp hout) (Nat.le_of_not_lt htag)
      (Bool.eq_false_of_not_eq_true hshort) (not_not.mp hroom))
  | reset =>
    rw [firstCheck_reset, execOn, resetOn_eq]
    split
    · exact .completed rfl fun _ => rfl
    · exact .refused rfl
  | mac =>
    rw [firstCheck, execOn, execMac_eq]
    split; · exact .refused rfl
    split
    · exact .refused rfl
    · exact .completed rfl fun _ => rfl
  | algid =>
    rw [firstCheck, execOn, algIdOn_eq]
    split
    · exact .refused rfl
    · exact .completed rfl fun _ => rfl

/-- The same of a known result, the first check under a name of its own. -/
theorem checkedEnd_of_execOn {r : Result} (h : execOn P i s = r) :
    ∃ st, firstCheck P i s = st ∧ CheckedEnd P i s st r :=
  ⟨_, rfl, h ▸ checkedEnd_execOn P i s⟩

/-- Settles O12: of the ends of a command, only the stop of a feed answers no next state. -/
theorem everyCommandResponds : Obligations.EveryCommandResponds := by
  intro i s
  rw [exec_eq_execOn]
  generalize hrun : execOn Config.platform i s = r
  obtain ⟨st, -, hend⟩ := checkedEnd_of_execOn hrun
  cases hend with
  | stopped hwraps => exact .inr ⟨rfl, hwraps⟩
  | _ => exact .inl ⟨_, rfl⟩

/-! The status (R276). -/

/-- R276: the status is that of the first check, but for a tag found wrong behind all checks. -/
theorem rstat_of_execOn (h : execOn P i s = .next t) :
    t.response.rstat = firstCheck P i s ∨
      (firstCheck P i s = .ok ∧ t.response.rstat = .authenticationFailed ∧ s.mode = .decrypt ∧
        ∃ outOff outLen, i = .finalize outOff outLen) := by
  obtain ⟨st, hc, hend⟩ := checkedEnd_of_execOn h
  rw [hc]
  cases hend with
  | rejected hi hm => exact .inr ⟨rfl, rfl, hm, _, _, hi⟩
  | completed hok => exact .inl hok
  | _ => exact .inl rfl

/-- R267: a transaction that is a command, but one the decoder refuses, is IllegalCommand in every state. -/
theorem answerReject_of_ne_commandLength {why : Reject} (hwhy : why ≠ .commandLength) (s : State) :
    answerReject why s = .next (illegalCommand s) := by
  cases why with
  | commandLength => exact absurd rfl hwhy
  | _ => rfl

/-- Settles O17: the decoder's refusal asks nothing of the state; behind it the first check gives the status. -/
theorem checksFireInOrder : Obligations.ChecksFireInOrder := by
  refine ⟨fun words why s hd hwhy => ⟨illegalCommand s, ?_, rfl⟩, fun i s => ?_⟩
  · rw [runCommand, hd]
    exact answerReject_of_ne_commandLength hwhy s
  · rw [exec_eq_execOn]
    cases hrun : execOn Config.platform i s with
    | next t => exact rstat_of_execOn hrun
    | fault f =>
      obtain ⟨st, hc, hend⟩ := checkedEnd_of_execOn hrun
      cases hend
      exact hc
    | refused r =>
      obtain ⟨st, -, hend⟩ := checkedEnd_of_execOn hrun
      cases hend

/-! Refusals (R273). -/

/-- R260: an error is no refusal. -/
theorem not_isRefusal_of_isSessionError {st : Status} (h : isSessionError st = true) : ¬ isRefusal st = true := by
  cases st <;> revert h <;> decide

/-- R273: when the first check that fires refuses, only the response and the trace change. -/
theorem execOn_of_isRefusal (h : isRefusal (firstCheck P i s) = true) :
    execOn P i s = .next { s with response := bareResponse (firstCheck P i s), requests := [] } := by
  have hend := checkedEnd_execOn P i s
  generalize firstCheck P i s = st at h hend ⊢
  generalize execOn P i s = r at hend ⊢
  cases hend with
  | refused => rfl
  | failed hst => exact absurd h (not_isRefusal_of_isSessionError hst)
  | _ => cases h

/-- R273: no check looks into IBUF. -/
theorem firstCheck_ibuf (P : Platform) (i : Instr) (s : State) (m : Memory) :
    firstCheck P i { s with ibuf := m } = firstCheck P i s := by
  cases i <;> rfl

/-- Settles O14: a refusal is the first check's, which is the same whatever IBUF holds. -/
theorem refusalsChangeNothing : Obligations.RefusalsChangeNothing := by
  intro i s t h href
  rw [exec_eq_execOn] at h ⊢
  have hst : t.response.rstat = firstCheck Config.platform i s := by
    rcases rstat_of_execOn h with hst | ⟨-, hst, -⟩
    · exact hst
    · rw [hst] at href
      cases href
  rw [hst] at href ⊢
  have ht := Host.Outcome.next.inj (h.symm.trans (execOn_of_isRefusal href))
  refine ⟨ht, fun m => ?_⟩
  rw [execOn_of_isRefusal (by rwa [firstCheck_ibuf]), firstCheck_ibuf, ht]

/-! Errors (R274). -/

/-- Settles O15: an error is a check's, or the wrong tag that FINALIZE found. -/
theorem errorsEnterErrorPhase : Obligations.ErrorsEnterErrorPhase := by
  intro i s t h herr
  rw [exec_eq_execOn] at h
  obtain ⟨st, -, hend⟩ := checkedEnd_of_execOn h
  cases hend with
  | failed => exact ⟨rfl, fun _ => ⟨rfl, rfl⟩⟩
  | rejected => exact ⟨rfl, fun hst => absurd rfl hst⟩
  | refused hst => exact absurd hst (not_isRefusal_of_isSessionError herr)
  | notConfigured => cases herr
  | completed hok =>
    rw [hok] at herr
    cases herr

/-! The response (R280). -/

/-- R88, R276: the response of a command, wherever no tag is found wrong. -/
def checkedResponse (P : Platform) (i : Instr) (s : State) : Response :=
  if firstCheck P i s = .ok then okResponse (answerValue i s) (answerData P i s) else bareResponse (firstCheck P i s)

/-- R88, R276: a FINALIZE in Encrypt mode, and every other command, answers what its checks and its sizes say. -/
theorem response_eq_checkedResponse (hs : SessionOk P s)
    (hmode : (∃ outOff outLen, i = .finalize outOff outLen) → s.mode = .encrypt) (h : execOn P i s = .next t) :
    t.response = checkedResponse P i s := by
  obtain ⟨st, hc, hend⟩ := checkedEnd_of_execOn h
  rw [checkedResponse, hc]
  cases hend with
  | refused hst | failed hst => exact (if_neg (by rintro rfl; cases hst)).symm
  | notConfigured => rfl
  | rejected hi hm => exact absurd (hm.symm.trans (hmode ⟨_, _, hi⟩)) nofun
  | completed _ hr => exact hr hs

/-- Settles O49: checks and sizes read the phase, the flags, the mode, the tag's length and the positions, no secret; of
the data only MAC's is one. -/
theorem responsesKeepTheSecrets : Obligations.ResponsesKeepTheSecrets := by
  intro P i s s' t t' hs hs' hmac hmode heq h h'
  have hmode' : s'.mode = s.mode := by rw [heq]
  have hpublic : checkedResponse P i s' = checkedResponse P i s := by
    rw [heq]
    cases i with
    | mac => exact absurd rfl hmac
    | _ => rfl
  rw [response_eq_checkedResponse hs hmode h, ← hpublic]
  exact response_eq_checkedResponse hs' (fun hi => hmode'.trans (hmode hi)) h'

end Sys2Proof.Machine

/-! PROOFS. The permutation ports and what FINALIZE gives away of a wrong tag (spec/70_reset_and_hazards.md R309, R320,
R324). -/

namespace Sys2Proof.Machine

open Sys2Proof.Safety

variable {P : Platform} {i : Instr} {s t : State}

/-! A FINALIZE that finds a wrong tag (R198, R201, R309). -/

/-- R198, R201: the state AuthenticationFailed leaves, with the requests that computed the tag. -/
def rejectedState (P : Platform) (outOff : Nat) (s : State) : State :=
  { raiseError .authenticationFailed s with
    obuf := s.obuf.write outOff (freeWindow s.draws (partialLen s))
    requests := s.requests ++ hashRequestsOf s ++ partRequests s ++ [.enc .hp (tagInput P s)] }

/-- R190, R198: FINALIZE, its checks passed, closes the message, or in Decrypt mode rejects the tag. -/
theorem closeMessage_closes_or_rejects (outOff : Nat) (hl : s.mainLane.mainPos.toNat < mainBufLen s)
    (ht : s.tagLen.toNat ≤ 16) (hd : dataTooShort s = false) :
    (∃ w out, MessageClosed P s (closeMessage P outOff s) outOff w out) ∨
    (s.mode = .decrypt ∧ closeMessage P outOff s = rejectedState P outOff s) := by
  have hp := partialLen_lt hl
  cases hm : s.mode with
  | encrypt => exact .inl ⟨_, _, closeMessage_encrypt P outOff hm hp ht⟩
  | decrypt =>
    have hge : s.tagLen.toNat ≤ s.mainLane.mainPos.toNat := by
      simpa only [dataTooShort, hm, decide_eq_false_iff_not, Nat.not_lt] using hd
    by_cases he : expectedTag P s = candidateTag s
    · exact .inl ⟨_, _, closeMessage_accept P outOff hm hge hp ht he⟩
    · exact .inr ⟨rfl, closeMessage_reject P outOff hm hge hp ht he⟩

/-- R198: a FINALIZE that answers AuthenticationFailed has passed its checks and rejected the tag. -/
theorem finalizeOn_rejected {outOff outLen : Word} (hl : s.phase = .ready → s.mainLane.mainPos.toNat < mainBufLen s)
    (h : finalizeOn P outOff outLen s = .next t) (hr : t.response.rstat = .authenticationFailed) :
    s.phase = .ready ∧ s.mode = .decrypt ∧ t = rejectedState P outOff.toNat (begin s) := by
  rw [finalizeOn_eq] at h
  iterate 5 (split at h; · cases h; cases hr)
  rename_i hp _ ht hd _
  cases h
  have hready := not_not.mp hp
  rcases closeMessage_closes_or_rejects (P := P) (s := begin s) outOff.toNat (hl hready) (Nat.le_of_not_lt ht)
    (Bool.eq_false_of_not_eq_true hd) with ⟨_, _, hclosed⟩ | ⟨hm, hreject⟩
  · rw [hclosed.frame] at hr
    cases hr
  · exact ⟨hready, hm, hreject⟩

/-- `s` with other bytes in `mainBuf`. -/
def withMainBuf (buf : Bytes 48) (s : State) : State := { s with mainLane := { s.mainLane with mainBuf := buf } }

theorem withMainBuf_mode (buf : Bytes 48) (s : State) : (withMainBuf buf s).mode = s.mode := rfl

/-- R193, R195: of `mainBuf`, the input of the raw tag takes only the bytes in front of the candidate tag. -/
theorem tagInput_withMainBuf {buf : Bytes 48}
    (h : slice buf 0 (partialLen s) = slice s.mainLane.mainBuf 0 (partialLen s)) :
    tagInput P (withMainBuf buf s) = tagInput P s := by
  have hout : partialOut P (withMainBuf buf s) = partialOut P s :=
    congrArg (List.zipWith (· ^^^ ·) · (permEnc P s.hpKey (xorBytes s.mainLane.offsetMain s.lStar)).toList) h
  have hplain : partialPlain P (withMainBuf buf s) = partialPlain P s := by
    rw [partialPlain, partialPlain, withMainBuf_mode]
    cases s.mode with
    | encrypt => exact h
    | decrypt => exact hout
  simp only [tagInput, hplain]
  rfl

/-- R201, R309: the state AuthenticationFailed leaves depends on no byte of the candidate tag. -/
theorem rejectedState_withMainBuf {buf : Bytes 48} (outOff : Nat)
    (h : slice buf 0 (partialLen s) = slice s.mainLane.mainBuf 0 (partialLen s)) :
    rejectedState P outOff (withMainBuf buf s) = rejectedState P outOff s := by
  simp only [rejectedState, tagInput_withMainBuf h]
  rfl

/-- Settles O47: both end in `rejectedState`, which reads `mainBuf` in front of the candidate tag only. -/
theorem authenticationFailureRevealsNothing : Obligations.AuthenticationFailureRevealsNothing := by
  intro P outOff outLen buf s t t' hs hbuf h hr h' hr'
  have hl (hp : s.phase = .ready) : s.mainLane.mainPos.toNat < mainBufLen s := (hs.ready hp).2.mainPos
  obtain ⟨hp, hm, rfl⟩ := finalizeOn_rejected hl h hr
  obtain ⟨-, -, rfl⟩ := finalizeOn_rejected (s := withMainBuf buf s) hl h' hr'
  have hpart : partialLen s = s.mainLane.mainPos.toNat - s.tagLen.toNat := by simp only [partialLen, hm]
  have hlt := partialLen_lt (hl hp)
  refine rejectedState_withMainBuf (s := begin s) outOff.toNat (slice_congr fun j hj => ?_)
  have hj' : j < partialLen s := hj
  rw [Nat.zero_add, byteAt_lt (by omega), byteAt_lt (by omega)]
  exact hbuf j (by omega) (by omega)

/-! The shape of a trace (R320, R324). -/

/-- R223: the key loads of an INIT that brings a key. -/
def keyTrace : Option Key → List PermRequest
  | none => []
  | some key => [.setKey .hp key, .setKey .mp key]

/-- R320: key loads, `HashPerm` requests and `MainPerm` requests of a trace. -/
def countRequests (r : List PermRequest) : Nat × Nat × Nat := (keyLoads r, hashRequests r, mainRequests r)

theorem countRequests_append (r r' : List PermRequest) :
    countRequests (r ++ r') = countRequests r + countRequests r' := by
  simp only [countRequests, keyLoads, hashRequests, mainRequests, List.countP_append, Prod.mk_add_mk]

theorem countRequests_keyTrace (key : Option Key) :
    countRequests (keyTrace key) = (if key = none then 0 else 2, 0, 0) := by
  cases key <;> rfl

theorem countRequests_hash (hash : List Block) : countRequests (hash.map (.enc .hp)) = (0, hash.length, 0) := by
  simp [countRequests, keyLoads, hashRequests, mainRequests, Function.comp_def]

theorem countRequests_main (mode : Mode) (main : List Block) :
    countRequests (main.map (modeRequest mode)) = (0, 0, main.length) := by
  cases mode <;> simp [countRequests, keyLoads, hashRequests, mainRequests, modeRequest, Function.comp_def]

/-! The requests of each operation (R150, R170, R190, R222, R225). -/

/-- A request to `HP` made unless `c`. -/
theorem optionalRequest_eq_map (c : Prop) [Decidable c] (b : Block) :
    ∃ hash : List Block, hash.length = (if c then 0 else 1) ∧
      (if c then [] else [PermRequest.enc .hp b]) = hash.map (.enc .hp) := by
  by_cases h : c
  · exact ⟨[], by rw [if_pos h]; rfl, if_pos h⟩
  · exact ⟨[b], by rw [if_neg h]; rfl, if_neg h⟩

/-- R225: the reset procedure asks `HP` for each full block of the retained AAD. -/
theorem resetProcedure_requests (P : Platform) (m : Bool) (s : State) :
    ∃ hash : List Block, hash.length = s.initAADLen.toNat / 16 ∧
      (resetProcedure P m s).requests = s.requests ++ hash.map (.enc .hp) := by
  obtain ⟨hash, hlen, hreq⟩ := (hashCounts_resetProcedure P m s).requests
  exact ⟨hash, by simpa [HashLane.zero] using hlen, hreq⟩

/-- R150: FEEDAAD asks `HP` for each block it completes. -/
theorem feedAad_requests {inOff len : Word} (hs : SessionOk P s) (h : feedAadOn P inOff len s = .next t)
    (hr : t.response.rstat = .ok) :
    ∃ hash : List Block, hash.length = (s.hashLane.hashPos.toNat + len.toNat) / 16 ∧
      t.requests = hash.map (.enc .hp) :=
  (hashCounts_feedAad hs h hr).requests

/-- R171: FEEDMSG asks `MP` for each block it completes, in the direction of the mode. -/
theorem feedMsg_requests {inOff len outOff outLen : Word} (hs : SessionOk P s)
    (h : feedMsgOn P inOff len outOff outLen s = .next t) (hr : t.response.rstat = .ok) :
    ∃ main : List Block, main.length = updsize s len.toNat / 16 ∧ t.requests = main.map (modeRequest t.mode) := by
  obtain ⟨hp, -, -, -, hc, ht⟩ := feedMsg_ok h hr
  obtain ⟨-, hlanes⟩ := hs.ready hp
  have hcounts := mainCounts_feedMain P outOff.toNat (inputBytes s inOff len) 0 (s := begin s)
    (tagLen_le_of_ready (sessionOk_begin hs) hp) hlanes.mainPos (mainCount_lt (inputBytes_length ..) hc)
  obtain ⟨main, hlen, hreq⟩ := hcounts.requests
  refine ⟨main, ?_, ?_⟩
  · rw [hlen, inputBytes_length, ← updsize_begin, updsize_eq, Nat.mul_div_cancel_left _ (by decide)]
  · rw [ht, respond_requests, hreq, respond_mode, onlyMain_mode hcounts.only]
    rfl

/-- R152, R193, R195: the blocks the tag of a message asks `HP` for. -/
theorem tagRequests_eq_map (P : Platform) (s : State) :
    ∃ hash : List Block,
      hash.length = (if 0 < s.hashLane.hashPos.toNat then 1 else 0) + (if 0 < partialLen s then 1 else 0) + 1 ∧
      hashRequestsOf s ++ partRequests s ++ [PermRequest.enc .hp (tagInput P s)] = hash.map (.enc .hp) := by
  obtain ⟨b, hb, hreq⟩ := optionalRequest_eq_map (s.hashLane.hashPos = 0)
    (xorBytes (padBlock (slice s.hashLane.hashBuf 0 s.hashLane.hashPos.toNat)) (xorBytes s.hashLane.offsetHash s.lStar))
  obtain ⟨b', hb', hreq'⟩ := optionalRequest_eq_map (partialLen s = 0) (xorBytes s.mainLane.offsetMain s.lStar)
  have hpos : s.hashLane.hashPos = 0 ↔ ¬ 0 < s.hashLane.hashPos.toNat := by
    rw [← BitVec.toNat_inj, Nat.not_lt, Nat.le_zero]
    rfl
  have hpart : partialLen s = 0 ↔ ¬ 0 < partialLen s := by omega
  refine ⟨b ++ b' ++ [tagInput P s], ?_, ?_⟩
  · simp only [List.length_append, hb, hb', List.length_singleton, hpos, hpart, ite_not]
  · rw [hashRequestsOf, partRequests, hreq, hreq', List.map_append, List.map_append, List.map_singleton]

/-- R190, R199: FINALIZE that ends OK asks `HP` for the tag and for the retained AAD. -/
theorem messageClosed_requests {outOff w : Nat} {out : List Byte} (h : MessageClosed P s t outOff w out) :
    ∃ hash : List Block,
      hash.length = (if 0 < s.hashLane.hashPos.toNat then 1 else 0) + (if 0 < partialLen s then 1 else 0) + 1
        + s.initAADLen.toNat / 16 ∧
      t.requests = s.requests ++ hash.map (.enc .hp) := by
  obtain ⟨b, hb, hreq⟩ := tagRequests_eq_map P s
  obtain ⟨b', hb', hreq'⟩ := h.requests
  refine ⟨b ++ b', by rw [List.length_append, hb, hb'], ?_⟩
  rw [hreq', List.map_append, ← hreq]
  simp only [List.append_assoc]

/-- R190: FINALIZE, its checks passed, asks `HP` only, whether it accepts the tag or not. -/
theorem closeMessage_requests (outOff : Nat) (hl : s.mainLane.mainPos.toNat < mainBufLen s)
    (ht : s.tagLen.toNat ≤ 16) (hd : dataTooShort s = false) :
    ∃ hash : List Block, (closeMessage P outOff s).requests = s.requests ++ hash.map (.enc .hp) := by
  rcases closeMessage_closes_or_rejects (P := P) outOff hl ht hd with ⟨w, out, hclosed⟩ | ⟨-, hreject⟩
  · obtain ⟨hash, -, hreq⟩ := messageClosed_requests hclosed
    exact ⟨hash, hreq⟩
  · obtain ⟨hash, -, hreq⟩ := tagRequests_eq_map P s
    rw [hreject]
    exact ⟨hash, by rw [← hreq]; simp only [rejectedState, List.append_assoc]⟩

/-- R223: INIT loads the key it brings and asks `HP` for its `L_star`. -/
theorem keyedState_requests (P : Platform) (e : Bool) (tagLenBits : BitVec 16) (key : Option Key) (s : State) :
    ∃ hash : List Block, hash.length = (if key = none then 0 else 1) ∧
      (keyedState P e tagLenBits key s).requests = s.requests ++ keyTrace key ++ hash.map (.enc .hp) := by
  cases key with
  | none => exact ⟨[], rfl, by simp [keyedState, keyTrace]⟩
  | some k =>
    refine ⟨[zeroBytes 16], rfl, ?_⟩
    rw [keyedState, rekey_eq]
    simp [keyTrace]

/-- R137, R223: the Ktop cache is valid after INIT's key handling when it was and no key came. -/
theorem keyedState_ktop (P : Platform) (e : Bool) (tagLenBits : BitVec 16) (key : Option Key) (s : State) (n : Block) :
    ((keyedState P e tagLenBits key s).ktopValid = true ∧ (keyedState P e tagLenBits key s).ktopInput = n) ↔
      key = none ∧ s.ktopValid = true ∧ s.ktopInput = n := by
  cases key with
  | none => exact ⟨fun h => ⟨rfl, h⟩, fun h => h.2⟩
  | some k => exact ⟨fun h => (nomatch h.1), fun h => (nomatch h.1)⟩

/-- R134, R137: the nonce expander asks `HP` for Ktop unless the cache holds it. -/
theorem nonceExpander_requests (P : Platform) (nonce : List Byte) (s : State) :
    (nonceExpander P nonce s).requests = s.requests ++
      (if s.ktopValid = true ∧ s.ktopInput = maskBottom (formatNonce P s.tagLen.toNat nonce) then []
        else [PermRequest.enc .hp (maskBottom (formatNonce P s.tagLen.toNat nonce))]) := by
  simp only [nonceExpander]
  exact fillKtop_requests P _ s

/-- R134, R223: the requests of INIT before its reset procedure. -/
theorem noncedState_requests (P : Platform) (e : Bool) {tagLenBits : BitVec 16} (h256 : tagLenBits.toNat ≤ 256)
    (key : Option Key) (nonce aad : List Byte) (s : State) :
    ∃ hash : List Block,
      hash.length = (if key = none then 0 else 1)
        + (if key = none ∧ s.ktopValid = true ∧
            s.ktopInput = maskBottom (formatNonce P (tagLenBits.toNat / 8) nonce) then 0 else 1) ∧
      (noncedState P e tagLenBits key nonce aad s).requests = s.requests ++ keyTrace key ++ hash.map (.enc .hp) := by
  obtain ⟨b, hb, hkey⟩ := keyedState_requests P e tagLenBits key s
  have hktop := nonceExpander_requests P nonce (keyedState P e tagLenBits key s)
  rw [keyedState_tagLen e tagLenBits key s h256] at hktop
  generalize maskBottom (formatNonce P (tagLenBits.toNat / 8) nonce) = n at *
  obtain ⟨b', hb', hcache⟩ := optionalRequest_eq_map (key = none ∧ s.ktopValid = true ∧ s.ktopInput = n) n
  refine ⟨b ++ b', by rw [List.length_append, hb, hb'], ?_⟩
  rw [noncedState, setInitAAD_requests, hktop, hkey]
  simp only [keyedState_ktop, hcache, List.map_append, List.append_assoc]

/-- R222, R223, R134, R225: INIT loads its key, and asks `HP` for `L_star`, for Ktop unless the cache holds it, and for
each full block of its AAD. -/
theorem startSession_requests (P : Platform) (e : Bool) {tagLenBits : BitVec 16} (h256 : tagLenBits.toNat ≤ 256)
    (key : Option Key) (nonce : List Byte) {aad : List Byte} (ha : aad.length < 2 ^ 32) (s : State) :
    ∃ hash : List Block,
      hash.length = (if key = none then 0 else 1)
        + (if key = none ∧ s.ktopValid = true ∧
            s.ktopInput = maskBottom (formatNonce P (tagLenBits.toNat / 8) nonce) then 0 else 1)
        + aad.length / 16 ∧
      (startSession P e tagLenBits key nonce aad s).requests = s.requests ++ keyTrace key ++ hash.map (.enc .hp) := by
  obtain ⟨b, hb, hnonced⟩ := noncedState_requests P e h256 key nonce aad s
  obtain ⟨b', hb', hreset⟩ := resetProcedure_requests P false (noncedState P e tagLenBits key nonce aad s)
  have hlen : (noncedState P e tagLenBits key nonce aad s).initAADLen.toNat = aad.length := by
    rw [noncedState, setInitAAD_initAADLen, BitVec.toNat_ofNat, Nat.mod_eq_of_lt ha]
  refine ⟨b ++ b', by rw [List.length_append, hb, hb', hlen], ?_⟩
  rw [startSession_eq]
  simp only [hreset, hnonced, List.map_append, List.append_assoc]

/-! The table (R320). -/

/-- Settles O22: each command's trace holds the blocks that the table counts. -/
theorem requestCounts : Obligations.RequestCounts := by
  intro P i s t hs h hr
  change countRequests t.requests = requestTable P i s
  cases i <;> simp only [execOn] at h
  case newsession =>
    rw [newSessionOn_eq] at h
    split at h <;> cases h <;> rfl
  case init k e tagLenBits keyOff keyLen nonceOff nonceLen aadOff aadLen =>
    obtain ⟨haccepted, ht⟩ := initOn_ok h hr
    obtain ⟨-, h256, -⟩ := haccepted.tag
    obtain ⟨hash, hlen, hreq⟩ := startSession_requests P e h256 (initKey k keyOff keyLen s)
      (inputBytes s nonceOff nonceLen) (aad := inputBytes s aadOff aadLen)
      (by rw [inputBytes_length]; exact aadLen.isLt) (begin s)
    have hnone : initKey k keyOff keyLen s = none ↔ k = false := by cases k <;> simp [initKey]
    rw [ht, respond_requests, startedBy, hreq, begin_requests, List.nil_append, countRequests_append,
      countRequests_keyTrace, countRequests_hash, hlen, inputBytes_length]
    simp only [hnone]
    cases k <;> simp [requestTable]
  case feedaad =>
    obtain ⟨hash, hlen, hreq⟩ := feedAad_requests hs h hr
    rw [hreq, countRequests_hash, hlen]
    rfl
  case feedmsg =>
    obtain ⟨main, hlen, hreq⟩ := feedMsg_requests hs h hr
    rw [hreq, countRequests_main, hlen]
    rfl
  case updsize =>
    rw [execUpdsize_eq] at h
    split at h <;> cases h <;> rfl
  case finsize =>
    rw [execFinsize_eq] at h
    split at h <;> cases h <;> rfl
  case finalize =>
    obtain ⟨-, -, -, out, hclosed⟩ := finalize_ok hs h hr
    obtain ⟨hash, hlen, hreq⟩ := messageClosed_requests hclosed
    rw [hreq, begin_requests, List.nil_append, countRequests_hash, hlen]
    rfl
  case reset =>
    rw [resetOn_eq] at h
    split at h <;> cases h
    · obtain ⟨hash, hlen, hreq⟩ := resetProcedure_requests P false (begin s)
      rw [respond_requests, hreq, begin_requests, List.nil_append, countRequests_hash, hlen]
      rfl
    · cases hr
  case mac =>
    rw [execMac_eq] at h
    split at h; · cases h; rfl
    split at h <;> cases h <;> rfl
  case algid =>
    rw [algIdOn_eq] at h
    split at h <;> cases h <;> rfl

/-! The ports (R324). -/

/-- R324: a trace loads the key of an INIT and asks `HP` for blocks, or it asks `MP` for blocks in the direction of the
mode. -/
theorem requests_of_commandEnd (hs : SessionOk P s) (h : CommandEnd P s t i) :
    (∃ (key : Option Key) (hash : List Block), t.requests = keyTrace key ++ hash.map (.enc .hp) ∧
      (key ≠ none → ∃ e tagLenBits keyOff keyLen nonceOff nonceLen aadOff aadLen,
        i = .init true e tagLenBits keyOff keyLen nonceOff nonceLen aadOff aadLen)) ∨
    ∃ main : List Block, t.requests = main.map (modeRequest t.mode) := by
  cases h with
  | responded _ _ ht | failed _ ht | initFailed _ _ ht | opened _ _ _ ht =>
    exact .inr ⟨[], by subst ht; rfl⟩
  | @started k e tagLenBits keyOff keyLen nonceOff nonceLen aadOff aadLen _ _ h256 _ ht =>
    obtain ⟨hash, -, hreq⟩ := startSession_requests P e h256 (if k then some (inputBytes s keyOff keyLen) else none)
      (inputBytes s nonceOff nonceLen) (aad := inputBytes s aadOff aadLen)
      (by rw [inputBytes_length]; exact aadLen.isLt) (begin s)
    refine .inl ⟨_, hash, by rw [ht]; exact hreq, fun hkey => ?_⟩
    cases k with
    | true => exact ⟨e, tagLenBits, keyOff, keyLen, nonceOff, nonceLen, aadOff, aadLen, rfl⟩
    | false => exact absurd rfl hkey
  | aadFed h hr =>
    obtain ⟨hash, -, hreq⟩ := feedAad_requests hs h hr
    exact .inl ⟨none, hash, hreq, absurd rfl⟩
  | msgFed h hr =>
    obtain ⟨main, -, hreq⟩ := feedMsg_requests hs h hr
    exact .inr ⟨main, hreq⟩
  | @closed outOff _ hp _ htag hd _ ht =>
    obtain ⟨-, hlanes⟩ := hs.ready hp
    obtain ⟨hash, hreq⟩ := closeMessage_requests (P := P) (s := begin s) outOff.toNat hlanes.mainPos htag hd
    exact .inl ⟨none, hash, by rw [ht]; exact hreq, absurd rfl⟩
  | replayed _ ht =>
    obtain ⟨hash, -, hreq⟩ := resetProcedure_requests P false (begin s)
    exact .inl ⟨none, hash, by rw [ht]; exact hreq, absurd rfl⟩

/-- R324: a command that asks a port leaves an initialised session. -/
theorem inited_of_requests (hs : SessionOk P s) (h : CommandEnd P s t i) (hr : t.requests ≠ []) :
    t.inited = true := by
  have hend := h
  have hready (hp : s.phase = .ready) : s.inited = true := (hs.ready hp).1
  cases h with
  | responded _ _ ht | failed _ ht | initFailed _ _ ht | opened _ _ _ ht =>
    rw [ht] at hr
    exact absurd rfl hr
  | started _ _ _ _ ht => rw [ht, respond_inited, startSession_eq]
  | aadFed h hr =>
    obtain ⟨hp, -⟩ := feedAad_ok h hr
    exact (inited_of_commandEnd hend rfl).trans (hready hp)
  | msgFed h hr =>
    obtain ⟨hp, -⟩ := feedMsg_ok h hr
    exact (inited_of_commandEnd hend rfl).trans (hready hp)
  | closed hp => exact (inited_of_commandEnd hend rfl).trans (hready hp)
  | replayed hp =>
    refine (inited_of_commandEnd hend rfl).trans ?_
    obtain hp | hp | ⟨-, hinited⟩ := hp
    · exact hready hp
    · exact (hs.final hp).1
    · exact hinited

/-- Settles O21: each request is one of its trace's shape, and an initialised session is keyed. -/
theorem portRequestsRespectTheMode : Obligations.PortRequestsRespectTheMode := by
  intro P i s t hs h
  have hend := commandEnd_of_execOn h
  have hok := sessionOk_of_commandEnd hs hend
  constructor
  · intro r hr
    obtain ⟨key, hash, hreq, hinit⟩ | ⟨main, hreq⟩ := requests_of_commandEnd hs hend
    · rw [hreq, List.mem_append] at hr
      obtain hload | hhash := hr
      · cases key with
        | none => cases hload
        | some k =>
          have hkey := hinit nofun
          simp only [keyTrace, List.mem_cons, List.not_mem_nil, or_false] at hload
          obtain rfl | rfl := hload <;> exact hkey
      · obtain ⟨b, -, rfl⟩ := List.mem_map.mp hhash
        trivial
    · rw [hreq] at hr
      obtain ⟨b, -, rfl⟩ := List.mem_map.mp hr
      cases t.mode <;> rfl
  · intro hr
    obtain ⟨hkeyed, -⟩ := hok.inited (inited_of_requests hs hend hr)
    obtain ⟨k, hk, -⟩ := hok.keyed hkeyed
    exact ⟨by rw [hk]; exact Option.some_ne_none k, hok.sameKey.symm⟩

end Sys2Proof.Machine
